-- ==== Sys2Proof/Word.lean ====
section
/-! DEFINITION. The word types of HUFFCORE (`00_scope.md` R6 to R8). Widths are fixed by R6; every value is
unsigned (R7). -/

namespace Sys2Proof

/-- A symbol, "one byte value (0–255)" (R8): 8 bits. It is also a Byte of DEC_OUT and an address of CT. -/
abbrev Sym := BitVec 8

/-- A node index (R8): 9 bits, an address of TM. -/
abbrev Idx := BitVec 9

/-- A Char (R8): one 8-bit element of the encoded stream as carried on a port. -/
abbrev EncChar := BitVec 8

/-- The stored code bits of a CT entry and of field C of a command: CODEW = 255 bits (R6). -/
abbrev CodeBits := BitVec 255

/-- A command word: CMDW = 276 bits (R6, R70). -/
abbrev CmdWord := BitVec 276

/-- A response word: RSPW = 32 bits (R6, R77). -/
abbrev RspWord := BitVec 32

/-- The info field of a response: 28 bits (R77). -/
abbrev Info := BitVec 28

/-- A BitSym, one encoded symbol (R8): `false` is '0' and `true` is '1'. -/
abbrev BitSym := Bool

/-- A Code, a finite sequence of BitSym (R8, R9); position 0 is the first symbol emitted and the first edge
from the root. -/
abbrev Code := List BitSym

end Sys2Proof
end

