-- ==== Sys2Proof/Config.lean ====
section
/-! DEFINITION. The parameters of the block (`00_scope.md` R6). Every one but MAXH is fixed by the spec. MAXH is
open: it is the one field of `Config`, and every function that depends on it takes a `Config` (or a state, which
carries one). No definition gives it a value but `Config.recommended`. -/

namespace Sys2Proof

/-- What one instance of the block fixes: MAXH, the greatest code length a CT entry may hold (R6), an integer
from 1 to 255. The 8 bits bound it above; `Config.Legal` bounds it below. -/
structure Config where
  maxh : BitVec 8
  deriving DecidableEq, Repr

/-- `1 ≤ MAXH ≤ 255` (R6); the upper bound is the width of the field. -/
abbrev Config.Legal (c : Config) : Prop := 1 ≤ c.maxh.toNat

/-- DESIGN CHOICE (log 2, unsafe where a claim rests on it): the spec's "recommended default 255" (R6). -/
def Config.recommended : Config := ⟨255#8⟩

/-- ALPHA, the number of CT entries (R6). -/
abbrev Config.alpha : Nat := 256

/-- NODES, the number of TM entries (R6). -/
abbrev Config.nodes : Nat := 512

end Sys2Proof
end

