-- ==== Sys2Proof/Syntax.lean ====
section
/-! DEFINITION. The commands of the block: one constructor per row of `spec/opcode_table.json`
(`30_encoding.md` R71, R72, R74). -/

namespace Sys2Proof

/-- The register numbers RD_REG may name (`20_memory.md` R59, `30_encoding.md` R72): 0, 1, 2. The number 3 is
not here: a word that holds it is illegal (R74; log 11). -/
inductive RegNo where
  /-- Register number 0, STATUS (`10_state.md` R33). -/
  | status
  /-- Register number 1, DECPTR (R34). -/
  | decptr
  /-- Register number 2, CONFIG (R35). -/
  | config
  deriving DecidableEq, Repr

/-- A decoded command. Operands are unsigned and taken as they stand (R72). -/
inductive Instr where
  /-- NOP, OP 0x0 (R121). -/
  | nop
  /-- CT_CLEAR, OP 0x1 (R122). -/
  | ctClear
  /-- CT_WRITE, OP 0x2 (R123): `sym = A`, `len = B`, `code = C`. -/
  | ctWrite (sym : Sym) (len : BitVec 9) (code : CodeBits)
  /-- TR_CLEAR, OP 0x3 (R124). -/
  | trClear
  /-- TR_LEAF, OP 0x4 (R125): `idx = B`, `sym = A`. -/
  | trLeaf (idx : Idx) (sym : Sym)
  /-- TR_NODE, OP 0x5 (R126): `idx = B`, `left = C[8:0]`, `right = C[17:9]`. -/
  | trNode (idx left right : Idx)
  /-- TR_ROOT, OP 0x6 (R127): `idx = B`. -/
  | trRoot (idx : Idx)
  /-- RD_REG, OP 0x7 (R128): `regno = A`. -/
  | rdReg (regno : RegNo)
  /-- ENC_START, OP 0x8 (R141). -/
  | encStart
  /-- ENC_SYM, OP 0x9 (R142): `sym = A`. -/
  | encSym (sym : Sym)
  /-- ENC_END, OP 0xA (R143). -/
  | encEnd
  /-- DEC_START, OP 0xB (R151). -/
  | decStart
  /-- DEC_BIT, OP 0xC (R152): `ch = A`. -/
  | decBit (ch : EncChar)
  /-- DEC_END, OP 0xD (R153). -/
  | decEnd
  /-- RESERVED_E, OP 0xE (R129): "The other 272 bits are not examined"; they are kept so that no bit of the
  word is dropped (log 7). -/
  | reservedE (rest : BitVec 272)
  /-- RESERVED_F, OP 0xF (R129), as RESERVED_E. -/
  | reservedF (rest : BitVec 272)
  deriving DecidableEq, Repr

end Sys2Proof
end

