-- ==== Sys2Proof/Machine/State.lean ====
section
/-! DEFINITION. The state of one HUFFCORE instance (`10_state.md` R20 to R29, R37, R41), as plain data. -/

namespace Sys2Proof.Machine

/-- State of an engine (R20): IDLE 0, ACTIVE 1, FAULTED 2. "The value 3 never occurs", so the type has three
values (`93_implementation_defined.md` U12; log 6). -/
inductive EngineState where
  | idle
  | active
  | faulted
  deriving DecidableEq, Repr

/-- The status codes of a response (`60_exceptions.md` R170). Codes 9 to 15 are "never produced by the block"
and are not here (U12; log 6). -/
inductive Status where
  /-- 0: the command was executed. -/
  | ok
  /-- 1, a refusal: the word spells no command (R177). -/
  | eBadcmd
  /-- 2, a refusal: out of sequence for the engine's state (R178). -/
  | eSeq
  /-- 3, a refusal: a table or tree write while its engine has a transaction open (R179). -/
  | eBusy
  /-- 4, a transaction fault: encode of a symbol with no code (R180). -/
  | eUnksym
  /-- 5, a transaction fault: the stream ended mid-code, or a '1' met a one-symbol tree (R181). -/
  | eMalformed
  /-- 6, a transaction fault: a character that is neither '0' nor '1' (R182). -/
  | eBadch
  /-- 7, a transaction fault: a character arrived with no root set (R183). -/
  | eNotree
  /-- 8, a transaction fault: the walk reached an entry that holds no node (R184). -/
  | eBadtree
  deriving DecidableEq, Repr

/-- A CT entry with `v = 1` (`20_memory.md` R52): `len` and `code`. -/
structure CtEntry where
  len  : BitVec 8
  code : CodeBits
  deriving DecidableEq, Repr

/-- A TM entry with `v = 1` (R54), in "one of two shapes": a leaf has a symbol and no children, an internal node
has two children and no symbol (log 5). -/
inductive TmNode where
  | leaf (sym : Sym)
  | internal (left right : Idx)
  deriving DecidableEq, Repr

/-- An entry-addressed memory: the entries with `v = 1`, each with its address, in rising order of address. An
address that is not listed reads as `v = 0` (R28, R29, U8; log 4). -/
abbrev Memory (α : Type) := List (Nat × α)

/-- The whole state of one instance: seven registers, two memories (R20), the four channels (R37; log 3) and the
instance's parameters (R6; log 2). A channel is listed oldest element first. -/
structure State where
  /-- ENC_ST (R21). -/
  encSt  : EngineState
  /-- ENC_ERR (R22). -/
  encErr : Status
  /-- DEC_ST (R23). -/
  decSt  : EngineState
  /-- DEC_ERR (R24). -/
  decErr : Status
  /-- CUR (R25). -/
  cur    : Idx
  /-- ROOT (R26). -/
  root   : Idx
  /-- ROOT_V (R27). -/
  rootV  : Bool
  /-- CT, 256 entries (R28). -/
  ct     : Memory CtEntry
  /-- TM, 512 entries (R29). -/
  tm     : Memory TmNode
  /-- CMD: words put there by the host and not yet accepted. -/
  cmd    : List CmdWord
  /-- RSP: responses not yet taken by the host. -/
  rsp    : List RspWord
  /-- ENC_OUT: elements not yet taken by the host. -/
  encOut : List EncChar
  /-- DEC_OUT: bytes not yet taken by the host. -/
  decOut : List Sym
  /-- The parameters of the instance; no step changes them. -/
  cfg    : Config
  deriving DecidableEq, Repr

/-- No step of the block stops with a fault: "every command in every state completes with a response"
(`93_implementation_defined.md`, end of part 1). The block's own failures are responses, `Status`. -/
inductive Fault
  deriving DecidableEq, Repr

/-- Why the model has no meaning for an instruction. -/
inductive Refusal where
  /-- Raised only by an arm of `exec` whose instruction has no meaning yet: no arm does. Safe. -/
  | notModelled (mnemonic : String)
  deriving DecidableEq, Repr

/-- The outcome of a command. -/
abbrev Result := Host.Outcome State Fault Refusal

/-- The state after reset of an instance with parameters `c` (R41, R201). -/
def State.resetWith (c : Config) : State where
  encSt := .idle
  encErr := .ok
  decSt := .idle
  decErr := .ok
  cur := 0#9
  root := 0#9
  rootV := false
  ct := []
  tm := []
  cmd := []
  rsp := []
  encOut := []
  decOut := []
  cfg := c

/-- The state after reset (R41). MAXH is the recommended default (log 2). -/
def State.reset : State := State.resetWith Config.recommended

end Sys2Proof.Machine
end

