-- ==== Sys2Proof/Machine/Flags.lean ====
section
/-! DEFINITION. Status values as bits: the codes of the engine states and of the status (`10_state.md` R20,
`60_exceptions.md` R170) and the three read-only register views (R33 to R35). -/

namespace Sys2Proof.Machine

/-- ENC_ST and DEC_ST as two bits (R20). -/
def EngineState.bits (e : EngineState) : BitVec 2 :=
  match e with
  | .idle => 0#2
  | .active => 1#2
  | .faulted => 2#2

/-- A status code as four bits (R170). -/
def Status.bits (c : Status) : BitVec 4 :=
  match c with
  | .ok => 0#4
  | .eBadcmd => 1#4
  | .eSeq => 2#4
  | .eBusy => 3#4
  | .eUnksym => 4#4
  | .eMalformed => 5#4
  | .eBadch => 6#4
  | .eNotree => 7#4
  | .eBadtree => 8#4

/-- The refusals, codes 1 to 3 (R170, R172). -/
def Status.isRefusal (c : Status) : Bool :=
  match c with
  | .eBadcmd | .eSeq | .eBusy => true
  | .ok | .eUnksym | .eMalformed | .eBadch | .eNotree | .eBadtree => false

/-- The transaction faults, codes 4 to 8 (R170, R173). -/
def Status.isTransactionFault (c : Status) : Bool :=
  match c with
  | .eUnksym | .eMalformed | .eBadch | .eNotree | .eBadtree => true
  | .ok | .eBadcmd | .eSeq | .eBusy => false

/-- The faults a decode transaction can have (R24). -/
def Status.isDecodeFault (c : Status) : Bool :=
  match c with
  | .eMalformed | .eBadch | .eNotree | .eBadtree => true
  | .ok | .eBadcmd | .eSeq | .eBusy | .eUnksym => false

/-- The status with a given code; 9 to 15 name none (R170). -/
def Status.ofBits (b : BitVec 4) : Option Status :=
  [Status.ok, .eBadcmd, .eSeq, .eBusy, .eUnksym, .eMalformed, .eBadch, .eNotree, .eBadtree].find?
    (fun c => c.bits = b)

/-- STATUS (R33): ENC_ST in 1:0, ENC_ERR in 5:2, DEC_ST in 7:6, DEC_ERR in 11:8, the rest 0. -/
def State.statusView (s : State) : Info :=
  0#16 ++ s.decErr.bits ++ s.decSt.bits ++ s.encErr.bits ++ s.encSt.bits

/-- DECPTR (R34): CUR in 8:0, ROOT in 17:9, ROOT_V in 18, the rest 0. -/
def State.decptrView (s : State) : Info :=
  0#9 ++ BitVec.ofBool s.rootV ++ s.root ++ s.cur

/-- CONFIG (R35): MAXH in 7:0, the rest 0. -/
def State.configView (s : State) : Info :=
  0#20 ++ s.cfg.maxh

end Sys2Proof.Machine
end

