-- ==== Sys2Proof/WellFormed.lean ====
section
/-! DEFINITION. Which commands a word can spell (`30_encoding.md` R72 to R74): the value conditions that the
operand types do not already express. Only CT_WRITE has any; they depend on MAXH (R81). -/

namespace Sys2Proof

/-- The value conditions of CT_WRITE (R74): `1 ≤ len ≤ MAXH`, and `C[i] = 0` for every `i ≥ len`. -/
abbrev ctWriteLegal (c : Config) (len : BitVec 9) (code : CodeBits) : Prop :=
  1 ≤ len.toNat ∧ len.toNat ≤ c.maxh.toNat ∧ ∀ i : Fin 255, len.toNat ≤ i.val → code.getLsbD i = false

/-- A command some 276-bit word spells under MAXH (R74). The reserved rows have no condition: each of their
words decodes to them (R129). -/
abbrev Instr.WellFormed (c : Config) : Instr → Prop
  | .nop => True
  | .ctClear => True
  | .ctWrite _ len code => ctWriteLegal c len code
  | .trClear => True
  | .trLeaf _ _ => True
  | .trNode _ _ _ => True
  | .trRoot _ => True
  | .rdReg _ => True
  | .encStart => True
  | .encSym _ => True
  | .encEnd => True
  | .decStart => True
  | .decBit _ => True
  | .decEnd => True
  | .reservedE _ => True
  | .reservedF _ => True

end Sys2Proof
end

