-- ==== Sys2Proof/Decode.lean ====
section
/-! DEFINITION. The command word: opcode map, decoder and encoder (`30_encoding.md` R70 to R76, R81). A command
is one 276-bit element of the CMD channel, not bytes in a memory (`20_memory.md` R56), so the decoder reads a word. -/

namespace Sys2Proof

/-! ## The four fields of the word (R70) -/

/-- OP, bits 275:272. -/
def fieldOp (w : CmdWord) : BitVec 4 := w.extractLsb' 272 4

/-- A, bits 271:264. -/
def fieldA (w : CmdWord) : BitVec 8 := w.extractLsb' 264 8

/-- B, bits 263:255. -/
def fieldB (w : CmdWord) : BitVec 9 := w.extractLsb' 255 9

/-- C, bits 254:0. -/
def fieldC (w : CmdWord) : CodeBits := w.extractLsb' 0 255

/-- Every bit below OP, bits 271:0: what a reserved row does not examine (R129). -/
def fieldRest (w : CmdWord) : BitVec 272 := w.extractLsb' 0 272

/-! ## The opcode map (R74, R75) -/

/-- The sixteen rows of the opcode map, one for each value of OP. -/
inductive Opcode where
  | nop
  | ctClear
  | ctWrite
  | trClear
  | trLeaf
  | trNode
  | trRoot
  | rdReg
  | encStart
  | encSym
  | encEnd
  | decStart
  | decBit
  | decEnd
  | reservedE
  | reservedF
  deriving DecidableEq, Repr

/-- The rows in the order of their OP value. -/
def opcodes : Vector Opcode 16 :=
  #v[.nop, .ctClear, .ctWrite, .trClear, .trLeaf, .trNode, .trRoot, .rdReg,
    .encStart, .encSym, .encEnd, .decStart, .decBit, .decEnd, .reservedE, .reservedF]

/-- The row of an OP value. -/
def Opcode.ofBits (b : BitVec 4) : Opcode := opcodes.get b.toFin

/-- The OP value of a row (R74, column OP). -/
def Opcode.bits (o : Opcode) : BitVec 4 :=
  match o with
  | .nop => 0x0#4
  | .ctClear => 0x1#4
  | .ctWrite => 0x2#4
  | .trClear => 0x3#4
  | .trLeaf => 0x4#4
  | .trNode => 0x5#4
  | .trRoot => 0x6#4
  | .rdReg => 0x7#4
  | .encStart => 0x8#4
  | .encSym => 0x9#4
  | .encEnd => 0xA#4
  | .decStart => 0xB#4
  | .decBit => 0xC#4
  | .decEnd => 0xD#4
  | .reservedE => 0xE#4
  | .reservedF => 0xF#4

/-- The row's `match` value in `spec/opcode_table.json`. -/
def Opcode.pattern (o : Opcode) : CmdWord :=
  match o with
  | .nop => 0x000000000000000000000000000000000000000000000000000000000000000000000#276
  | .ctClear => 0x100000000000000000000000000000000000000000000000000000000000000000000#276
  | .ctWrite => 0x200000000000000000000000000000000000000000000000000000000000000000000#276
  | .trClear => 0x300000000000000000000000000000000000000000000000000000000000000000000#276
  | .trLeaf => 0x400000000000000000000000000000000000000000000000000000000000000000000#276
  | .trNode => 0x500000000000000000000000000000000000000000000000000000000000000000000#276
  | .trRoot => 0x600000000000000000000000000000000000000000000000000000000000000000000#276
  | .rdReg => 0x700000000000000000000000000000000000000000000000000000000000000000000#276
  | .encStart => 0x800000000000000000000000000000000000000000000000000000000000000000000#276
  | .encSym => 0x900000000000000000000000000000000000000000000000000000000000000000000#276
  | .encEnd => 0xA00000000000000000000000000000000000000000000000000000000000000000000#276
  | .decStart => 0xB00000000000000000000000000000000000000000000000000000000000000000000#276
  | .decBit => 0xC00000000000000000000000000000000000000000000000000000000000000000000#276
  | .decEnd => 0xD00000000000000000000000000000000000000000000000000000000000000000000#276
  | .reservedE => 0xE00000000000000000000000000000000000000000000000000000000000000000000#276
  | .reservedF => 0xF00000000000000000000000000000000000000000000000000000000000000000000#276

/-- The row's `mask` value in `spec/opcode_table.json`: a word matches the row when `w AND mask = match` (R70). -/
def Opcode.mask (o : Opcode) : CmdWord :=
  match o with
  | .nop => 0xFFFFFFFFFFFFFFFFFFFFFFFFFFFFFFFFFFFFFFFFFFFFFFFFFFFFFFFFFFFFFFFFFFFFF#276
  | .ctClear => 0xFFFFFFFFFFFFFFFFFFFFFFFFFFFFFFFFFFFFFFFFFFFFFFFFFFFFFFFFFFFFFFFFFFFFF#276
  | .ctWrite => 0xF00000000000000000000000000000000000000000000000000000000000000000000#276
  | .trClear => 0xFFFFFFFFFFFFFFFFFFFFFFFFFFFFFFFFFFFFFFFFFFFFFFFFFFFFFFFFFFFFFFFFFFFFF#276
  | .trLeaf => 0xF00007FFFFFFFFFFFFFFFFFFFFFFFFFFFFFFFFFFFFFFFFFFFFFFFFFFFFFFFFFFFFFFF#276
  | .trNode => 0xFFF007FFFFFFFFFFFFFFFFFFFFFFFFFFFFFFFFFFFFFFFFFFFFFFFFFFFFFFFFFFC0000#276
  | .trRoot => 0xFFF007FFFFFFFFFFFFFFFFFFFFFFFFFFFFFFFFFFFFFFFFFFFFFFFFFFFFFFFFFFFFFFF#276
  | .rdReg => 0xFFCFFFFFFFFFFFFFFFFFFFFFFFFFFFFFFFFFFFFFFFFFFFFFFFFFFFFFFFFFFFFFFFFFF#276
  | .encStart => 0xFFFFFFFFFFFFFFFFFFFFFFFFFFFFFFFFFFFFFFFFFFFFFFFFFFFFFFFFFFFFFFFFFFFFF#276
  | .encSym => 0xF00FFFFFFFFFFFFFFFFFFFFFFFFFFFFFFFFFFFFFFFFFFFFFFFFFFFFFFFFFFFFFFFFFF#276
  | .encEnd => 0xFFFFFFFFFFFFFFFFFFFFFFFFFFFFFFFFFFFFFFFFFFFFFFFFFFFFFFFFFFFFFFFFFFFFF#276
  | .decStart => 0xFFFFFFFFFFFFFFFFFFFFFFFFFFFFFFFFFFFFFFFFFFFFFFFFFFFFFFFFFFFFFFFFFFFFF#276
  | .decBit => 0xF00FFFFFFFFFFFFFFFFFFFFFFFFFFFFFFFFFFFFFFFFFFFFFFFFFFFFFFFFFFFFFFFFFF#276
  | .decEnd => 0xFFFFFFFFFFFFFFFFFFFFFFFFFFFFFFFFFFFFFFFFFFFFFFFFFFFFFFFFFFFFFFFFFFFFF#276
  | .reservedE => 0xF00000000000000000000000000000000000000000000000000000000000000000000#276
  | .reservedF => 0xF00000000000000000000000000000000000000000000000000000000000000000000#276

/-- The row a command belongs to. -/
def Instr.opcode (i : Instr) : Opcode :=
  match i with
  | .nop => .nop
  | .ctClear => .ctClear
  | .ctWrite _ _ _ => .ctWrite
  | .trClear => .trClear
  | .trLeaf _ _ => .trLeaf
  | .trNode _ _ _ => .trNode
  | .trRoot _ => .trRoot
  | .rdReg _ => .rdReg
  | .encStart => .encStart
  | .encSym _ => .encSym
  | .encEnd => .encEnd
  | .decStart => .decStart
  | .decBit _ => .decBit
  | .decEnd => .decEnd
  | .reservedE _ => .reservedE
  | .reservedF _ => .reservedF

/-! ## Decoding (R81) -/

/-- Why a word is illegal (R73 to R75, R177). -/
inductive Illegal where
  /-- A non-zero bit of field A where the command does not use it, or in A[7:2] of RD_REG. -/
  | nonzeroA
  /-- A non-zero bit of field B where the command does not use it. -/
  | nonzeroB
  /-- A non-zero bit of field C where the command does not use it, or in C[254:18] of TR_NODE. -/
  | nonzeroC
  /-- CT_WRITE with `len = 0`. -/
  | lenZero
  /-- CT_WRITE with `len > MAXH`. -/
  | lenAboveMaxh
  /-- CT_WRITE with a set bit `C[i]`, `i ≥ len`. -/
  | codeAboveLen
  /-- RD_REG with `regno = 3`. -/
  | regnoThree
  deriving DecidableEq, Repr

/-- The result of decoding (R81): the command with its operands, or `illegal`. -/
inductive Decoded where
  | command (i : Instr)
  | illegal (why : Illegal)
  deriving DecidableEq, Repr

/-- The command `i` if none of the listed conditions holds, else `illegal` for the first that does. -/
def checked (checks : List (Bool × Illegal)) (i : Instr) : Decoded :=
  match checks with
  | [] => .command i
  | (bad, why) :: more => if bad then .illegal why else checked more i

/-- Field A is used by no operand: it must be zero (R73). -/
def zeroA (w : CmdWord) : Bool × Illegal := (decide (fieldA w ≠ 0#8), .nonzeroA)

/-- Field B is used by no operand: it must be zero (R73). -/
def zeroB (w : CmdWord) : Bool × Illegal := (decide (fieldB w ≠ 0#9), .nonzeroB)

/-- Field C is used by no operand: it must be zero (R73). -/
def zeroC (w : CmdWord) : Bool × Illegal := (decide (fieldC w ≠ 0#255), .nonzeroC)

/-- Some bit `C[i]` with `i ≥ len` is set (R73, R123). -/
def codeAboveLen (len : BitVec 9) (code : CodeBits) : Bool := decide (code >>> len.toNat ≠ 0#255)

/-- The three value checks of CT_WRITE, in the order of R123. -/
def ctWriteChecks (c : Config) (len : BitVec 9) (code : CodeBits) : List (Bool × Illegal) :=
  [(decide (len.toNat < 1), .lenZero), (decide (c.maxh.toNat < len.toNat), .lenAboveMaxh),
    (codeAboveLen len code, .codeAboveLen)]

/-- The register a legal number names (R72, `20_memory.md` R59); the decoder refuses 3 beside it. -/
def RegNo.ofNumber (n : BitVec 2) : RegNo :=
  if n = 0#2 then .status else if n = 1#2 then .decptr else .config

/-- RD_REG's operand (R72, R74): A[7:2] must be zero and A[1:0] name one of three registers. -/
def decodeRegNo (w : CmdWord) : Decoded :=
  checked [(decide ((fieldA w).extractLsb' 2 6 ≠ 0#6), .nonzeroA), zeroB w, zeroC w,
    (decide ((fieldA w).extractLsb' 0 2 = 3#2), .regnoThree)]
    (.rdReg (RegNo.ofNumber ((fieldA w).extractLsb' 0 2)))

/-- The function from a word to a decoded command (R81). It depends on MAXH through CT_WRITE and on nothing
else. The reserved rows decode to their own constructors, whose meaning is the refusal of R129 (log 7). -/
def decode (c : Config) (w : CmdWord) : Decoded :=
  match Opcode.ofBits (fieldOp w) with
  | .nop => checked [zeroA w, zeroB w, zeroC w] .nop
  | .ctClear => checked [zeroA w, zeroB w, zeroC w] .ctClear
  | .ctWrite => checked (ctWriteChecks c (fieldB w) (fieldC w)) (.ctWrite (fieldA w) (fieldB w) (fieldC w))
  | .trClear => checked [zeroA w, zeroB w, zeroC w] .trClear
  | .trLeaf => checked [zeroC w] (.trLeaf (fieldB w) (fieldA w))
  | .trNode =>
    checked [zeroA w, (decide ((fieldC w).extractLsb' 18 237 ≠ 0#237), .nonzeroC)]
      (.trNode (fieldB w) ((fieldC w).extractLsb' 0 9) ((fieldC w).extractLsb' 9 9))
  | .trRoot => checked [zeroA w, zeroC w] (.trRoot (fieldB w))
  | .rdReg => decodeRegNo w
  | .encStart => checked [zeroA w, zeroB w, zeroC w] .encStart
  | .encSym => checked [zeroB w, zeroC w] (.encSym (fieldA w))
  | .encEnd => checked [zeroA w, zeroB w, zeroC w] .encEnd
  | .decStart => checked [zeroA w, zeroB w, zeroC w] .decStart
  | .decBit => checked [zeroB w, zeroC w] (.decBit (fieldA w))
  | .decEnd => checked [zeroA w, zeroB w, zeroC w] .decEnd
  | .reservedE => .command (.reservedE (fieldRest w))
  | .reservedF => .command (.reservedF (fieldRest w))

/-! ## Encoding (R70, R71) -/

/-- The word with the given fields (R70). -/
def packWord (o : Opcode) (a : BitVec 8) (b : BitVec 9) (c : CodeBits) : CmdWord := o.bits ++ a ++ b ++ c

/-- The word of a reserved row (R129). -/
def packReserved (o : Opcode) (rest : BitVec 272) : CmdWord := o.bits ++ rest

/-- Field C of TR_NODE (R71): C[17:9] = right, C[8:0] = left. -/
def packChildren (left right : Idx) : CodeBits := 0#237 ++ right ++ left

/-- The register number in field A (R72). -/
def RegNo.bits (r : RegNo) : BitVec 8 :=
  match r with
  | .status => 0#8
  | .decptr => 1#8
  | .config => 2#8

/-- The word that spells a command (R71, R72, R82). -/
def encode (i : Instr) : CmdWord :=
  match i with
  | .nop => packWord .nop 0#8 0#9 0#255
  | .ctClear => packWord .ctClear 0#8 0#9 0#255
  | .ctWrite sym len code => packWord .ctWrite sym len code
  | .trClear => packWord .trClear 0#8 0#9 0#255
  | .trLeaf idx sym => packWord .trLeaf sym idx 0#255
  | .trNode idx left right => packWord .trNode 0#8 idx (packChildren left right)
  | .trRoot idx => packWord .trRoot 0#8 idx 0#255
  | .rdReg r => packWord .rdReg r.bits 0#9 0#255
  | .encStart => packWord .encStart 0#8 0#9 0#255
  | .encSym sym => packWord .encSym sym 0#9 0#255
  | .encEnd => packWord .encEnd 0#8 0#9 0#255
  | .decStart => packWord .decStart 0#8 0#9 0#255
  | .decBit ch => packWord .decBit ch 0#9 0#255
  | .decEnd => packWord .decEnd 0#8 0#9 0#255
  | .reservedE rest => packReserved .reservedE rest
  | .reservedF rest => packReserved .reservedF rest

/-! ## The host's questions -/

/-- The command word an instruction of `nbits` bits is: bit 0 of `w` is bit 0 of the word and every bit above
`nbits` is 0. A word has 276 bits; `none` when `w` has a set bit above them (log 9). -/
def tableWord (nbits w : Nat) : Option CmdWord :=
  if w % 2 ^ nbits < 2 ^ 276 then some (BitVec.ofNat 276 (w % 2 ^ nbits)) else none

/-- The instruction the decoder reads from the bits `w`, under the recommended MAXH (log 2, log 9). -/
def decodeTableWord (nbits w : Nat) : Option Instr :=
  match tableWord nbits w with
  | none => none
  | some word =>
    match decode Config.recommended word with
    | .command i => some i
    | .illegal _ => none

end Sys2Proof
end

