-- ==== Sys2Proof/Machine/Operands.lean ====
section
/-! DEFINITION. Operand forms and their conversions: characters (`00_scope.md` R8), the code string of a CT entry
(`20_memory.md` R53, `30_encoding.md` R72), and the bits of a memory entry (R52, R54). -/

namespace Sys2Proof.Machine

/-- `chr` (R8): the Char of an encoded symbol, 0x30 for '0' and 0x31 for '1' (log 14); `0x30 + code[i]` of R142. -/
def chr (b : BitSym) : EncChar := 0x30#8 + (BitVec.ofBool b).setWidth 8

/-- `sym_of` (R8), "defined only for `c = 0x30` and `c = 0x31`": all 8 bits are compared, and the symbol is the
low bit of the character (R152). -/
def symOf (ch : EncChar) : Option BitSym :=
  if ch ≠ 0x30#8 ∧ ch ≠ 0x31#8 then none else some (ch.getLsbD 0)

/-- The code string of a CT entry: bit `i` of the field is symbol `i`, for `0 ≤ i < len` (R53, R72). -/
def CtEntry.symbols (e : CtEntry) : Code := (List.range e.len.toNat).map e.code.getLsbD

/-- The number whose bit `i` is symbol `i` of the code. -/
def codeNat (k : Code) : Nat :=
  match k with
  | [] => 0
  | b :: more => b.toNat + 2 * codeNat more

/-- The code field of a code string (R53): `code[i] = 1` where symbol `i` is '1', and 0 from the length on. -/
def codeBits (k : Code) : CodeBits := BitVec.ofNat 255 (codeNat k)

/-- The CT entry of a code string (R52, R53). -/
def codeEntry (k : Code) : CtEntry := ⟨BitVec.ofNat 8 k.length, codeBits k⟩

/-- The 264 bits of a valid CT entry (R52): `v` 263, `len` 262:255, `code` 254:0. The placement is not
observable. -/
def CtEntry.bits (e : CtEntry) : BitVec 264 := 1#1 ++ e.len ++ e.code

/-- The 28 bits of a valid TM entry (R54): `v` 27, `leaf` 26, `sym` 25:18, `left` 17:9, `right` 8:0, the fields
of the other shape 0. -/
def TmNode.bits (n : TmNode) : BitVec 28 :=
  match n with
  | .leaf sym => 1#1 ++ 1#1 ++ sym ++ 0#9 ++ 0#9
  | .internal left right => 1#1 ++ 0#1 ++ 0#8 ++ left ++ right

/-- The child an encoded symbol leads to: left on '0', right on '1' (R152). -/
def childOf (b : BitSym) (left right : Idx) : Idx := if b then right else left

end Sys2Proof.Machine
end

