-- ==== Sys2Proof/Machine/Ops.lean ====
section
/-! DEFINITION. The primitives of the pseudocode (`00_scope.md` R10): memory accesses, emission, the response,
refusal, and the entry into and return from a transaction fault (`60_exceptions.md` R172 to R175). -/

namespace Sys2Proof.Machine

/-! ## Memories -/

/-- The canonical form of a memory of `size` entries: addresses strictly rising and below `size`. -/
abbrev Memory.wf {α : Type} (size : Nat) (m : Memory α) : Prop :=
  m.Pairwise (fun x y => x.1 < y.1) ∧ ∀ c ∈ m, c.1 < size

/-- The entry at an address: `none` is an entry with `v = 0`. -/
def Memory.read {α : Type} (m : Memory α) (a : Nat) : Option α :=
  match m with
  | [] => none
  | (b, e) :: more => if a = b then some e else Memory.read more a

/-- Replace the entry at an address by a valid one. -/
def Memory.write {α : Type} (m : Memory α) (a : Nat) (e : α) : Memory α :=
  match m with
  | [] => [(a, e)]
  | (b, x) :: more =>
    if a < b then (a, e) :: (b, x) :: more
    else if a = b then (a, e) :: more
    else (b, x) :: Memory.write more a e

/-- CtRead (R10): the address of the entry for a symbol is the symbol itself (`20_memory.md` R51). -/
def State.ctRead (s : State) (sym : Sym) : Option CtEntry := s.ct.read sym.toNat

/-- CtWrite (R10) of a valid entry. -/
def State.ctWrite (s : State) (sym : Sym) (e : CtEntry) : State := { s with ct := s.ct.write sym.toNat e }

/-- CtWrite of `v = 0` to all 256 entries (R122). -/
def State.ctClearAll (s : State) : State := { s with ct := [] }

/-- TmRead (R10): the address of a node is its index (`20_memory.md` R55). -/
def State.tmRead (s : State) (i : Idx) : Option TmNode := s.tm.read i.toNat

/-- TmWrite (R10) of a valid entry. -/
def State.tmWrite (s : State) (i : Idx) (n : TmNode) : State := { s with tm := s.tm.write i.toNat n }

/-- TmWrite of `v = 0` to all 512 entries (R124). -/
def State.tmClearAll (s : State) : State := { s with tm := [] }

/-! ## Registers -/

/-- `ROOT <- i; ROOT_V <- v` (R124, R127). -/
def State.setRoot (s : State) (i : Idx) (v : Bool) : State := { s with root := i, rootV := v }

/-- `CUR <- i` (R25). -/
def State.setCur (s : State) (i : Idx) : State := { s with cur := i }

/-! ## Output -/

/-- `emit ENC_OUT(c)` for each element in turn (R10). -/
def State.emitEnc (s : State) (cs : List EncChar) : State := { s with encOut := s.encOut ++ cs }

/-- `emit DEC_OUT(b)` (R10). -/
def State.emitDec (s : State) (b : Sym) : State := { s with decOut := s.decOut ++ [b] }

/-- The response word `{code, info}` (`30_encoding.md` R77). -/
def rspWord (code : Status) (info : Info) : RspWord := code.bits ++ info

/-- `respond(code, info)` (R10): append the response; it is the last action of every command. -/
def State.respond (s : State) (code : Status) (info : Info) : State :=
  { s with rsp := s.rsp ++ [rspWord code info] }

/-- `refuse CODE` (R10, R172): the response `{code, 0}` and no other effect. -/
def refuse (code : Status) (s : State) : Result := .next (s.respond code 0#28)

/-- The end of a command executed: `respond(OK, 0)`. -/
def done (s : State) : Result := .next (s.respond .ok 0#28)

/-! ## A transaction fault: entry, replay, return -/

/-- `fault_enc CODE(info)` (R10, R173): the encoder is FAULTED, ENC_ERR takes the code, the response carries the
info; nothing is emitted and nothing else changes. -/
def faultEnc (code : Status) (info : Info) (s : State) : Result :=
  .next (State.respond { s with encSt := .faulted, encErr := code } code info)

/-- `fault_dec CODE(info)` (R10, R173): the same for the decoder; CUR keeps its value. -/
def faultDec (code : Status) (info : Info) (s : State) : Result :=
  .next (State.respond { s with decSt := .faulted, decErr := code } code info)

/-- A data command in FAULTED: it answers the latched code with info 0 (R174). -/
def replayEnc (s : State) : Result := .next (s.respond s.encErr 0#28)

/-- A data command of the decoder in FAULTED (R174). -/
def replayDec (s : State) : Result := .next (s.respond s.decErr 0#28)

/-- An END command closes the encode transaction: IDLE, ENC_ERR kept, the response carries the code with info 0
(R175, R143). -/
def closeEnc (code : Status) (s : State) : Result := .next (State.respond { s with encSt := .idle } code 0#28)

/-- An END command closes the decode transaction: IDLE, DEC_ERR kept (R175, R153). -/
def closeDec (code : Status) (s : State) : Result := .next (State.respond { s with decSt := .idle } code 0#28)

/-- The mid-code fault of DEC_END (R153, R173): DEC_ERR takes E_MALFORMED and the engine goes directly to IDLE. -/
def closeMidCode (s : State) : Result :=
  .next (State.respond { s with decErr := .eMalformed, decSt := .idle } .eMalformed (s.cur.setWidth 28))

end Sys2Proof.Machine
end

