-- ==== Sys2Proof/Machine/Control.lean ====
section
/-! DEFINITION. Meanings of the control commands NOP, RD_REG and of the reserved rows (`41_control_and_load.md`
R121, R128, R129). -/

namespace Sys2Proof.Machine

/-- NOP (R121). -/
def execNop (s : State) : Result := done s

/-- The view RD_REG reads (R33 to R35). -/
def State.regView (s : State) (r : RegNo) : Info :=
  match r with
  | .status => s.statusView
  | .decptr => s.decptrView
  | .config => s.configView

/-- RD_REG (R128): the read has no side effect. -/
def execRdReg (r : RegNo) (s : State) : Result := .next (s.respond .ok (s.regView r))

/-- RESERVED_E (R129): refused; the other bits are not examined. -/
def execReservedE (_rest : BitVec 272) (s : State) : Result := refuse .eBadcmd s

/-- RESERVED_F (R129). -/
def execReservedF (_rest : BitVec 272) (s : State) : Result := refuse .eBadcmd s

end Sys2Proof.Machine
end

