-- ==== Sys2Proof/Machine/Decoder.lean ====
section
/-! DEFINITION. Meanings of the decoder commands (`43_decoder.md` R151 to R153). -/

namespace Sys2Proof.Machine

/-- DEC_START (R151). -/
def execDecStart (s : State) : Result :=
  if s.decSt ≠ .idle then refuse .eSeq s
  else done { s with decSt := .active, decErr := .ok, cur := s.root }

/-- Enter the child `nxt` (R152): a leaf is emitted and the pointer returns to the root in the same command, an
internal node becomes the current one. -/
def enterChild (nxt : Idx) (s : State) : Result :=
  match s.tmRead nxt with
  | none => faultDec .eBadtree (nxt.setWidth 28) s
  | some (.leaf sym) => done ((s.emitDec sym).setCur s.root)
  | some (.internal _ _) => done (s.setCur nxt)

/-- One move of the tree walk, for a legal character (R152). A leaf at CUR is a leaf root: '0' emits its symbol
and CUR stays, '1' is a fault. -/
def walkEdge (b : BitSym) (s : State) : Result :=
  if s.rootV = false then faultDec .eNotree 0#28 s
  else
    match s.tmRead s.cur with
    | none => faultDec .eBadtree (s.cur.setWidth 28) s
    | some (.leaf sym) =>
      if b then faultDec .eMalformed (s.cur.setWidth 28) s else done (s.emitDec sym)
    | some (.internal left right) => enterChild (childOf b left right) s

/-- DEC_BIT (R152). -/
def execDecBit (ch : EncChar) (s : State) : Result :=
  match s.decSt with
  | .idle => refuse .eSeq s
  | .faulted => replayDec s
  | .active =>
    match symOf ch with
    | none => faultDec .eBadch (ch.setWidth 28) s
    | some b => walkEdge b s

/-- DEC_END (R153): the stream is exhausted; it must have ended on a code boundary. -/
def execDecEnd (s : State) : Result :=
  match s.decSt with
  | .idle => refuse .eSeq s
  | .faulted => closeDec s.decErr s
  | .active => if s.cur ≠ s.root then closeMidCode s else closeDec .ok s

end Sys2Proof.Machine
end

