-- ==== Sys2Proof/Machine/Encoder.lean ====
section
/-! DEFINITION. Meanings of the encoder commands (`42_encoder.md` R141 to R143). -/

namespace Sys2Proof.Machine

/-- ENC_START (R141). -/
def execEncStart (s : State) : Result :=
  if s.encSt ≠ .idle then refuse .eSeq s
  else done { s with encSt := .active, encErr := .ok }

/-- ENC_SYM (R142): look the symbol up and append its code to the stream, `code[0]` first. -/
def execEncSym (sym : Sym) (s : State) : Result :=
  match s.encSt with
  | .idle => refuse .eSeq s
  | .faulted => replayEnc s
  | .active =>
    match s.ctRead sym with
    | none => faultEnc .eUnksym (sym.setWidth 28) s
    | some e => done (s.emitEnc (e.symbols.map chr))

/-- ENC_END (R143). -/
def execEncEnd (s : State) : Result :=
  match s.encSt with
  | .idle => refuse .eSeq s
  | .faulted => closeEnc s.encErr s
  | .active => closeEnc .ok s

end Sys2Proof.Machine
end

