-- ==== Sys2Proof/Machine/Load.lean ====
section
/-! DEFINITION. Meanings of the load commands (`41_control_and_load.md` R122 to R127). -/

namespace Sys2Proof.Machine

/-- A write to CT: refused unless ENC_ST is IDLE (R122, R123, R179). -/
def loadCt (written : State) (s : State) : Result :=
  if s.encSt ≠ .idle then refuse .eBusy s else done written

/-- A write to TM or to the root: refused unless DEC_ST is IDLE (R124 to R127, R179). -/
def loadTm (written : State) (s : State) : Result :=
  if s.decSt ≠ .idle then refuse .eBusy s else done written

/-- CT_CLEAR (R122). -/
def execCtClear (s : State) : Result := loadCt s.ctClearAll s

/-- CT_WRITE (R123). The two E_BADCMD checks come first; a decoded word passes them (log 15). `LENW` is 8: a
legal length fits (R6). -/
def execCtWrite (sym : Sym) (len : BitVec 9) (code : CodeBits) (s : State) : Result :=
  if len.toNat < 1 ∨ s.cfg.maxh.toNat < len.toNat then refuse .eBadcmd s
  else if codeAboveLen len code then refuse .eBadcmd s
  else loadCt (s.ctWrite sym ⟨len.setWidth 8, code⟩) s

/-- TR_CLEAR (R124): CUR is not written. -/
def execTrClear (s : State) : Result := loadTm (s.tmClearAll.setRoot 0#9 false) s

/-- TR_LEAF (R125). -/
def execTrLeaf (idx : Idx) (sym : Sym) (s : State) : Result := loadTm (s.tmWrite idx (.leaf sym)) s

/-- TR_NODE (R126). -/
def execTrNode (idx left right : Idx) (s : State) : Result := loadTm (s.tmWrite idx (.internal left right)) s

/-- TR_ROOT (R127). -/
def execTrRoot (idx : Idx) (s : State) : Result := loadTm (s.setRoot idx true) s

end Sys2Proof.Machine
end

