-- ==== Sys2Proof/Machine/Dispatch.lean ====
section
/-! DEFINITION. One arm per command (`30_encoding.md` R74). -/

namespace Sys2Proof.Machine

def exec (i : Instr) (s : State) : Host.Outcome State Fault Refusal :=
  match i with
  | .nop => Sys2Proof.Machine.execNop s
  | .ctClear => Sys2Proof.Machine.execCtClear s
  | .ctWrite sym len code => Sys2Proof.Machine.execCtWrite sym len code s
  | .trClear => Sys2Proof.Machine.execTrClear s
  | .trLeaf idx sym => Sys2Proof.Machine.execTrLeaf idx sym s
  | .trNode idx left right => Sys2Proof.Machine.execTrNode idx left right s
  | .trRoot idx => Sys2Proof.Machine.execTrRoot idx s
  | .rdReg r => Sys2Proof.Machine.execRdReg r s
  | .encStart => Sys2Proof.Machine.execEncStart s
  | .encSym sym => Sys2Proof.Machine.execEncSym sym s
  | .encEnd => Sys2Proof.Machine.execEncEnd s
  | .decStart => Sys2Proof.Machine.execDecStart s
  | .decBit ch => Sys2Proof.Machine.execDecBit ch s
  | .decEnd => Sys2Proof.Machine.execDecEnd s
  | .reservedE rest => Sys2Proof.Machine.execReservedE rest s
  | .reservedF rest => Sys2Proof.Machine.execReservedF rest s

end Sys2Proof.Machine
end

