-- ==== Sys2Proof/Machine/Fetch.lean ====
section
/-! DEFINITION. Accepting a command word (`20_memory.md` R60, R61, `41_control_and_load.md` R120), and what the
next accepted word is. -/

namespace Sys2Proof.Machine

/-- Execute one accepted word (R120): decode it; if it is illegal, refuse it with E_BADCMD before any state is
read (R176); otherwise run the command's rule. -/
def accept (w : CmdWord) (s : State) : Result :=
  match decode s.cfg w with
  | .illegal _ => refuse .eBadcmd s
  | .command i => exec i s

/-- One step of the block: accept the head of CMD and execute it. With CMD empty the block waits, "and a waiting
block keeps all its state" (`60_exceptions.md` R191; log 1). -/
def fetchStep (s : State) : Result :=
  match s.cmd with
  | [] => .next s
  | w :: more => accept w { s with cmd := more }

/-- `s` with the word put where the next step accepts it: at the head of CMD (log 8). -/
def putNextWord (s : State) (w : CmdWord) : State := { s with cmd := w :: s.cmd }

end Sys2Proof.Machine
end

