-- ==== Sys2Proof/Machine/Step.lean ====
section
/-! DEFINITION. The step of the block (`00_scope.md` R12), and the host's placement of an instruction. -/

namespace Sys2Proof.Machine

/-- "accept the next command word from CMD and execute it to completion" (R12). -/
def step (s : State) : Host.Outcome State Fault Refusal := fetchStep s

/-- `s` with the instruction of `nbits` bits `w` as the next word of CMD; bits above `nbits` are 0, and a word
keeps its 276 bits (log 8, log 9). -/
def State.withFetchWord (s : State) (nbits w : Nat) : State :=
  putNextWord s (BitVec.ofNat 276 (w % 2 ^ nbits))

end Sys2Proof.Machine
end

