-- ==== Sys2Proof/Machine/Tree.lean ====
section
/-! DEFINITION. The environment's reference functions, part 1 (`40_environment_reference.md` R90 to R95, R101 to
R104, R116): frequency table, tree, tree builder as a relation. Nothing here is hardware (R4, R90). All quantities
are unbounded naturals (R94). -/

namespace Sys2Proof.Machine

/-- A FrequencyEntry, (symbol, count) (R91). -/
abbrev FreqEntry := Sym × Nat

/-- `freqTable(B)` (R92): one entry for each symbol present, in ascending order of symbol, with its count. -/
def freqTable (b : List Sym) : List FreqEntry :=
  ((List.range 256).map (fun k => (BitVec.ofNat 8 k, b.count (BitVec.ofNat 8 k)))).filter (fun e => decide (0 < e.2))

/-- The alphabet size (R91): 0 for the empty input (`90_conflicts.md` C4). -/
def alphabetSize (b : List Sym) : Nat := (freqTable b).length

/-- A tree (R93): a leaf with its symbol, or an internal node with exactly two children; each carries its
weight. -/
inductive Tree where
  | leaf (sym : Sym) (w : Nat)
  | internal (w : Nat) (left right : Tree)
  deriving DecidableEq, Repr

/-- `weight` (R94). -/
def Tree.weight (t : Tree) : Nat :=
  match t with
  | .leaf _ w => w
  | .internal w _ _ => w

/-- Every internal node has the sum of its children's weights (R94). -/
def Tree.WeightsAdd (t : Tree) : Prop :=
  match t with
  | .leaf _ _ => True
  | .internal w l r => w = l.weight + r.weight ∧ l.WeightsAdd ∧ r.WeightsAdd

/-- In every internal node `weight(left) ≤ weight(right)` (R101). -/
def Tree.LighterLeft (t : Tree) : Prop :=
  match t with
  | .leaf _ _ => True
  | .internal _ l r => l.weight ≤ r.weight ∧ l.LighterLeft ∧ r.LighterLeft

/-- `height` (R95). -/
def Tree.height (t : Tree) : Nat :=
  match t with
  | .leaf _ _ => 0
  | .internal _ l r => 1 + max l.height r.height

/-- The leaf symbols, from left to right. -/
def Tree.symbols (t : Tree) : List Sym :=
  match t with
  | .leaf s _ => [s]
  | .internal _ l r => l.symbols ++ r.symbols

/-- The number of nodes (R95). -/
def Tree.nodeCount (t : Tree) : Nat :=
  match t with
  | .leaf _ _ => 1
  | .internal _ l r => l.nodeCount + r.nodeCount + 1

/-- The leaf of a frequency entry (R97, R102). -/
def leafOf (e : FreqEntry) : Tree := .leaf e.1 e.2

/-- The node a merge adds (R101): the first extracted is the left child. -/
def mergeNode (x y : Tree) : Tree := .internal (x.weight + y.weight) x y

/-- The merge steps of R102 from a forest, a finite multiset held as a list up to order, to the one tree left.
Each step picks a tree `x` of minimum weight, then `y` of minimum weight in what remains: any tie-break (R100). -/
inductive MergesTo : List Tree → Tree → Prop where
  | done (t : Tree) : MergesTo [t] t
  | merge (forest others : List Tree) (x y t : Tree)
      (picks : forest.Perm (x :: y :: others))
      (first : ∀ z ∈ y :: others, x.weight ≤ z.weight)
      (second : ∀ z ∈ others, y.weight ≤ z.weight)
      (later : MergesTo (mergeNode x y :: others) t) : MergesTo forest t

/-- `IsHuffmanTree(F, t)` (R102), for a non-empty frequency table; a one-entry table gives its leaf (R103), and
the empty table has no tree (R104). -/
def IsHuffmanTree (f : List FreqEntry) (t : Tree) : Prop := f ≠ [] ∧ MergesTo (f.map leafOf) t

end Sys2Proof.Machine
end

