-- ==== Sys2Proof/Machine/CodeTable.lean ====
section
/-! DEFINITION. The environment's reference functions, part 2 (`40_environment_reference.md` R105 to R108, R115,
R116, R119): the code table deriver. -/

namespace Sys2Proof.Machine

/-- The errors of the environment (R107, R119). -/
inductive EnvError where
  /-- Insertion into a full heap (R98). -/
  | capacityExceeded
  /-- A tree higher than MAXH (R107). -/
  | heightExceeded
  deriving DecidableEq, Repr

/-- A result of the environment, or its error. -/
inductive EnvResult (α : Type) where
  | ok (value : α)
  | error (why : EnvError)
  deriving DecidableEq, Repr

/-- A CodeTable, a finite map from Sym to Code (R83, R105), as its entries. -/
abbrev CodeTable := List (Sym × Code)

/-- The code of a symbol; the first entry counts. -/
def CodeTable.code? (tab : CodeTable) (s : Sym) : Option Code :=
  match tab with
  | [] => none
  | (x, k) :: more => if s = x then some k else CodeTable.code? more s

/-- `walk(t, p)` (R105): append '0' on entering a left child and '1' on entering a right child; at a leaf the
path is the code. -/
def Tree.walk (t : Tree) (p : Code) : CodeTable :=
  match t with
  | .leaf s _ => [(s, p)]
  | .internal _ l r => l.walk (p ++ [false]) ++ r.walk (p ++ [true])

/-- `codes(t)` (R105); the one-symbol code is "0" (R106). -/
def codes (t : Tree) : CodeTable :=
  match t with
  | .leaf s _ => [(s, [false])]
  | .internal w l r => (Tree.internal w l r).walk []

/-- The subtree a path leads to from the root: left on '0', right on '1' (R108 d). -/
def Tree.follow (t : Tree) (k : Code) : Option Tree :=
  match k, t with
  | [], t => some t
  | _ :: _, .leaf _ _ => none
  | b :: more, .internal _ l r => if b then r.follow more else l.follow more

/-- Derivation under MAXH (R107). -/
def deriveCodes (maxh : Nat) (t : Tree) : EnvResult CodeTable :=
  if maxh < t.height then .error .heightExceeded else .ok (codes t)

/-- The encoded stream of `b` under `tab`: the concatenation of each byte's code in input order (R11, R114). A
symbol with no code contributes nothing here; the claims require all of them to have one. -/
def encodedStream (tab : CodeTable) (b : List Sym) : Code := b.flatMap (fun s => (tab.code? s).getD [])

/-- "No code is a prefix of another code" (R108 c, R115). -/
def CodeTable.PrefixFree (tab : CodeTable) : Prop :=
  ∀ s₁ s₂ k₁ k₂, tab.code? s₁ = some k₁ → tab.code? s₂ = some k₂ → s₁ ≠ s₂ → ¬ k₁ <+: k₂

/-- The cost of R116, `Σ freq(s) × len(code(s))`. -/
def tableCost (f : List FreqEntry) (tab : CodeTable) : Nat :=
  (f.map (fun e => e.2 * ((tab.code? e.1).getD []).length)).sum

/-- Optimality (R116): no prefix-free table that covers the frequency table costs less. -/
def CodeTable.Optimal (f : List FreqEntry) (tab : CodeTable) : Prop :=
  ∀ other : CodeTable, other.PrefixFree → (∀ e ∈ f, (other.code? e.1).isSome) →
    tableCost f tab ≤ tableCost f other

end Sys2Proof.Machine
end

