-- ==== Sys2Proof/Machine/Heap.lean ====
section
/-! DEFINITION. The environment's min-priority queue (`40_environment_reference.md` R96 to R101). The spec leaves
the sift-down and the tie-break open (R100, `93_implementation_defined.md` U2, U16): `HeapBuild` and
`HeapExtractMin` are relations that admit every choice. The executable `Heap.build` and `Heap.extractMin` fix one
for running examples, and no claim rests on which (log 12). -/

namespace Sys2Proof.Machine

/-- The array and its capacity (R96); the size is the length of the list. -/
structure Heap where
  nodes : List Tree
  cap   : Nat
  deriving DecidableEq, Repr

/-- The parent of `i > 0` is `(i − 1) div 2` (R96; general knowledge G3, log 18). -/
def heapParent (i : Nat) : Nat := (i - 1) / 2

/-- The weight at an index. -/
def weightAt (a : List Tree) (i : Nat) : Nat := (a[i]?.map Tree.weight).getD 0

/-- "Parent weight ≤ both children's weights at every index" (R96). -/
def IsMinHeap (a : List Tree) : Prop := ∀ i, 0 < i → i < a.length → weightAt a (heapParent i) ≤ weightAt a i

/-- Exchange two elements. -/
def swapNodes (a : List Tree) (i j : Nat) : List Tree :=
  match a[i]?, a[j]? with
  | some x, some y => (a.set i y).set j x
  | _, _ => a

/-- "Sifts up while weight(node) < weight(parent)" (R98); the comparison is strict. -/
def siftUp (fuel : Nat) (a : List Tree) (i : Nat) : List Tree :=
  match fuel with
  | 0 => a
  | more + 1 =>
    if 0 < i ∧ weightAt a i < weightAt a (heapParent i) then
      siftUp more (swapNodes a i (heapParent i)) (heapParent i)
    else a

/-- `insert(node)` (R98): inserting at `size = cap` is CapacityExceeded. -/
def Heap.insert (h : Heap) (t : Tree) : EnvResult Heap :=
  if h.nodes.length < h.cap then
    .ok { h with nodes := siftUp h.nodes.length (h.nodes ++ [t]) h.nodes.length }
  else .error .capacityExceeded

/-- `build(entries)` (R97), any outcome of the open sift-down: the leaves in some array order that satisfies the
heap invariant (U16); `size = cap = n`. -/
def HeapBuild (f : List FreqEntry) (h : Heap) : Prop :=
  h.nodes.Perm (f.map leafOf) ∧ IsMinHeap h.nodes ∧ h.cap = f.length

/-- `extractMin()` (R99) with the tie-break open (R100): "when several nodes of the queue share the minimum weight,
`extractMin` may return any of them", and the other nodes remain in some array order that satisfies the heap
invariant (U16). The node at index 0 of a heap is one of them. It relates an empty queue to nothing (U1). -/
def HeapExtractMin (h : Heap) (x : Tree) (h' : Heap) : Prop :=
  ∃ others, h.nodes.Perm (x :: others) ∧ (∀ z ∈ others, x.weight ≤ z.weight) ∧ h'.nodes.Perm others ∧
    IsMinHeap h'.nodes ∧ h'.cap = h.cap

/-- A run of the tree builder's loop (R101): "While the heap holds more than one node" extract two, merge,
insert. -/
inductive BuilderRun : Heap → Tree → Prop where
  | done (h : Heap) (t : Tree) (one : h.nodes = [t]) : BuilderRun h t
  | merge (h h₁ h₂ h₃ : Heap) (x y t : Tree)
      (first : HeapExtractMin h x h₁) (second : HeapExtractMin h₁ y h₂)
      (inserted : h₂.insert (mergeNode x y) = .ok h₃) (later : BuilderRun h₃ t) : BuilderRun h t

/-! ## One deterministic choice, for running examples (DESIGN CHOICE, log 12) -/

/-- Sift down: exchange with the lighter child, the left one on a tie, while it is lighter than the node. -/
def siftDown (fuel : Nat) (a : List Tree) (i : Nat) : List Tree :=
  match fuel with
  | 0 => a
  | more + 1 =>
    let c := if 2 * i + 2 < a.length ∧ weightAt a (2 * i + 2) < weightAt a (2 * i + 1) then 2 * i + 2 else 2 * i + 1
    if c < a.length ∧ weightAt a c < weightAt a i then siftDown more (swapNodes a i c) c else a

/-- `build(entries)` (R97): load the leaves, then sift down from the last parent index to the root. -/
def Heap.build (f : List FreqEntry) : Heap :=
  { nodes := (List.range (f.length / 2)).reverse.foldl (siftDown f.length) (f.map leafOf), cap := f.length }

/-- `extractMin()` (R99): the last element replaces index 0 and is sifted down; `none` on an empty queue (U1). -/
def Heap.extractMin (h : Heap) : Option (Tree × Heap) :=
  match h.nodes with
  | [] => none
  | x :: others =>
    match others.getLast? with
    | none => some (x, { h with nodes := [] })
    | some last => some (x, { h with nodes := siftDown others.length (last :: others.dropLast) 0 })

/-- The builder's loop (R101), with as many merges as fuel. -/
def Heap.mergeAll (fuel : Nat) (h : Heap) : Option Tree :=
  match fuel with
  | 0 => h.nodes.head?
  | more + 1 =>
    if h.nodes.length ≤ 1 then h.nodes.head?
    else
      match h.extractMin with
      | none => none
      | some (x, h₁) =>
        match h₁.extractMin with
        | none => none
        | some (y, h₂) =>
          match h₂.insert (mergeNode x y) with
          | .ok h₃ => Heap.mergeAll more h₃
          | .error _ => none

/-- `buildHuffmanTree` (R112): `none` for the empty table, for which no tree is built (R104). -/
def buildTree (f : List FreqEntry) : Option Tree := (Heap.build f).mergeAll f.length

end Sys2Proof.Machine
end

