-- ==== Sys2Proof/Machine/Macros.lean ====
section
/-! DEFINITION. The macros (`30_encoding.md` R83): each expands to a command sequence; none is a command. An operand
that does not fit its field is cut (log 19). -/

namespace Sys2Proof.Machine

/-- Every symbol, in ascending order. -/
def allSyms : List Sym := (List.range 256).map (BitVec.ofNat 8)

/-- `CT_WRITE s, "k"` (R82). -/
def ctWriteOf (s : Sym) (k : Code) : Instr := .ctWrite s (BitVec.ofNat 9 k.length) (codeBits k)

/-- `LOAD_TABLE(tab)` (R83): CT_CLEAR, then one CT_WRITE for each symbol of the domain, ascending. -/
def loadTable (tab : CodeTable) : List Instr :=
  .ctClear :: allSyms.filterMap (fun s => (tab.code? s).map (ctWriteOf s))

/-- The leaf symbols of a tree in ascending order: their positions are the leaves' indices (R83). -/
def leafOrder (t : Tree) : List Sym := allSyms.filter (fun s => decide (s ∈ t.symbols))

/-- The internal nodes of a subtree in post-order (R83), numbered from `k`: the TR_NODE commands, the index of
the subtree's root, and the next free index. `order` gives the leaves' indices. -/
def placeNodes (order : List Sym) (t : Tree) (k : Nat) : List Instr × Nat × Nat :=
  match t with
  | .leaf s _ => ([], order.idxOf s, k)
  | .internal _ l r =>
    let left := placeNodes order l k
    let right := placeNodes order r left.2.2
    let idx := right.2.2
    (left.1 ++ right.1 ++ [.trNode (BitVec.ofNat 9 idx) (BitVec.ofNat 9 left.2.1) (BitVec.ofNat 9 right.2.1)],
      idx, idx + 1)

/-- The TR_LEAF commands in index order, numbered from `k`. -/
def leafWrites (order : List Sym) (k : Nat) : List Instr :=
  match order with
  | [] => []
  | s :: more => .trLeaf (BitVec.ofNat 9 k) s :: leafWrites more (k + 1)

/-- `LOAD_TREE(t)` (R83), for a tree whose at most 256 leaves carry distinct symbols. -/
def loadTree (t : Tree) : List Instr :=
  let order := leafOrder t
  let placed := placeNodes order t order.length
  .trClear :: (leafWrites order 0 ++ placed.1 ++ [.trRoot (BitVec.ofNat 9 placed.2.1)])

/-- `ENCODE(b)` (R83). -/
def encodeMacro (b : List Sym) : List Instr := .encStart :: (b.map .encSym ++ [.encEnd])

/-- `DECODE(e)` (R83). -/
def decodeMacro (e : List EncChar) : List Instr := .decStart :: (e.map .decBit ++ [.decEnd])

/-- The words of a command sequence. -/
def wordsOf (is : List Instr) : List CmdWord := is.map encode

/-- The Chars of an encoded stream, symbol by symbol (R114). -/
def charsOf (k : Code) : List EncChar := k.map chr

end Sys2Proof.Machine
end

