-- ==== Sys2Proof/Machine/Image.lean ====
section
/-! DEFINITION. From the host's objects to the block's state (`40_environment_reference.md` R109 to R111). -/

namespace Sys2Proof.Machine

/-- `Represents(i, t)` (R109): TM holds the image of `t` at index `i`. Weights are not represented. -/
def Represents (tm : Memory TmNode) (i : Idx) (t : Tree) : Prop :=
  match t with
  | .leaf s _ => tm.read i.toNat = some (.leaf s)
  | .internal _ l r =>
    ∃ a b, tm.read i.toNat = some (.internal a b) ∧ Represents tm a l ∧ Represents tm b r

/-- `TreeLoaded(t)` (R109). -/
def State.TreeLoaded (s : State) (t : Tree) : Prop := s.rootV = true ∧ Represents s.tm s.root t

/-- `TableLoaded(tab)` (R110). -/
def State.TableLoaded (s : State) (tab : CodeTable) : Prop :=
  ∀ sym : Sym,
    match tab.code? sym with
    | some k => ∃ e, s.ctRead sym = some e ∧ e.len.toNat = k.length ∧ e.code = codeBits k
    | none => s.ctRead sym = none

/-- Consistently loaded for `t` (R111). The block does not check it (R130). -/
def State.ConsistentlyLoaded (s : State) (t : Tree) : Prop := s.TreeLoaded t ∧ s.TableLoaded (codes t)

end Sys2Proof.Machine
end

