-- ==== Sys2Proof/Machine/Channels.lean ====
section
/-! DEFINITION. What the host can do to the block (`70_reset_and_hazards.md` R200, R213), as actions on the
channels (`10_state.md` R37), and the signal-level form of a transfer (R38). -/

namespace Sys2Proof.Machine

/-- `rst` = 1 (R200): the whole state to the values of R41, whatever it was before, and the four channels
emptied. MAXH is "a constant of the instance" (`10_state.md` R35). -/
def State.rst (s : State) : State := State.resetWith s.cfg

/-- The five paths of the host (R213). -/
inductive HostAction where
  /-- Append a word to CMD. -/
  | send (w : CmdWord)
  /-- Take the oldest response. -/
  | takeRsp
  /-- Take the oldest element of ENC_OUT. -/
  | takeEncOut
  /-- Take the oldest byte of DEC_OUT. -/
  | takeDecOut
  /-- Assert `rst`. -/
  | reset
  deriving DecidableEq, Repr

/-- The effect of a host action between two commands. Taking from an empty channel transfers nothing (log 20). -/
def hostStep (a : HostAction) (s : State) : State :=
  match a with
  | .send w => { s with cmd := s.cmd ++ [w] }
  | .takeRsp => { s with rsp := s.rsp.tail }
  | .takeEncOut => { s with encOut := s.encOut.tail }
  | .takeDecOut => { s with decOut := s.decOut.tail }
  | .reset => s.rst

/-- The ports in one clock cycle (R38). When the block asserts `cmd_ready` and its `valid` signals is timing,
which is not specified (R214): they are inputs of the functions below (log 13). -/
structure PortCycle where
  rst      : Bool
  cmdValid : Bool
  cmdReady : Bool
  cmdData  : CmdWord
  rspValid : Bool
  rspReady : Bool
  rspData  : RspWord
  eoValid  : Bool
  eoReady  : Bool
  eoData   : EncChar
  doValid  : Bool
  doReady  : Bool
  doData   : Sym
  deriving DecidableEq, Repr

/-- An output channel shows only what it holds, oldest first (R37, R63). -/
abbrev PortCycle.Faithful (p : PortCycle) (s : State) : Prop :=
  (p.rspValid = true → s.rsp.head? = some p.rspData) ∧
  (p.eoValid = true → s.encOut.head? = some p.eoData) ∧
  (p.doValid = true → s.decOut.head? = some p.doData)

/-- The transfers of one clock edge: "a transfer happens in a clock cycle in which both are 1" (R38); `rst`
sampled at 1 resets instead (R200). -/
def clockEdge (p : PortCycle) (s : State) : State :=
  if p.rst then s.rst
  else
    { s with
      cmd := if p.cmdValid && p.cmdReady then s.cmd ++ [p.cmdData] else s.cmd
      rsp := if p.rspValid && p.rspReady then s.rsp.tail else s.rsp
      encOut := if p.eoValid && p.eoReady then s.encOut.tail else s.encOut
      decOut := if p.doValid && p.doReady then s.decOut.tail else s.decOut }

end Sys2Proof.Machine
end

