-- ==== Sys2Proof/Machine/Run.lean ====
section
/-! DEFINITION. Runs of command words (`20_memory.md` R62, `70_reset_and_hazards.md` R216), transactions and their
results (`42_encoder.md` R146, `43_decoder.md` R160; log 21). -/

namespace Sys2Proof.Machine

/-- Continue with the next state, or stop. -/
def andThen (r : Result) (k : State → Result) : Result :=
  match r with
  | .next s => k s
  | .fault f => .fault f
  | .refused f => .refused f

/-- The fold of the step function over a sequence of words (R62, R216). -/
def runWords (ws : List CmdWord) (s : State) : Result :=
  match ws with
  | [] => .next s
  | w :: more => andThen (accept w s) (runWords more)

/-- The same over decoded commands. -/
def runInstrs (is : List Instr) (s : State) : Result :=
  match is with
  | [] => .next s
  | i :: more => andThen (exec i s) (runInstrs more)

/-- What one command did, as the host sees it: the command, its response, and the elements it emitted. -/
structure Event where
  command : Decoded
  rsp     : List RspWord
  enc     : List EncChar
  dec     : List Sym
  deriving DecidableEq, Repr

/-- The event of a command that took `s` to `t`: what was appended to each output channel. -/
def eventOf (d : Decoded) (s t : State) : Event :=
  ⟨d, t.rsp.drop s.rsp.length, t.encOut.drop s.encOut.length, t.decOut.drop s.decOut.length⟩

/-- The events of a sequence of words. -/
def trace (ws : List CmdWord) (s : State) : List Event :=
  match ws with
  | [] => []
  | w :: more =>
    match accept w s with
    | .next t => eventOf (decode s.cfg w) s t :: trace more t
    | .fault _ => []
    | .refused _ => []

/-- The code of the event's response. -/
def Event.code (e : Event) : Option (BitVec 4) := e.rsp.head?.map (fun r => r.extractLsb' 28 4)

/-- The result of a transaction (R146, R160): `Ok` of the elements it emitted, or `Err` of the closing code. -/
inductive TxnResult where
  | ok (elements : List (BitVec 8))
  | err (code : BitVec 4)
  deriving DecidableEq, Repr

/-- What the response to an END says (R146, R160): nothing when it is E_BADCMD or E_SEQ, since then the END did
not close a transaction. -/
def closingResult (code : Option (BitVec 4)) (elements : List (BitVec 8)) : Option TxnResult :=
  match code with
  | none => none
  | some c =>
    if c = Status.eBadcmd.bits ∨ c = Status.eSeq.bits then none
    else if c = Status.ok.bits then some (.ok elements)
    else some (.err c)

/-- The results of the encode transactions that close in a trace, in order (R146). `opened` holds what the open
transaction has emitted so far. Refused commands and commands of other kinds take no part. -/
def encodeResults (opened : Option (List EncChar)) (es : List Event) : List TxnResult :=
  match es with
  | [] => []
  | e :: more =>
    match e.command, opened with
    | .command .encStart, none =>
      encodeResults (if e.code = some Status.ok.bits then some [] else none) more
    | .command (.encSym _), some acc => encodeResults (some (acc ++ e.enc)) more
    | .command .encEnd, some acc =>
      match closingResult e.code acc with
      | none => encodeResults (some acc) more
      | some r => r :: encodeResults none more
    | _, _ => encodeResults opened more

/-- The results of the decode transactions that close in a trace, in order (R160). -/
def decodeResults (opened : Option (List Sym)) (es : List Event) : List TxnResult :=
  match es with
  | [] => []
  | e :: more =>
    match e.command, opened with
    | .command .decStart, none =>
      decodeResults (if e.code = some Status.ok.bits then some [] else none) more
    | .command (.decBit _), some acc => decodeResults (some (acc ++ e.dec)) more
    | .command .decEnd, some acc =>
      match closingResult e.code acc with
      | none => decodeResults (some acc) more
      | some r => r :: decodeResults none more
    | _, _ => decodeResults opened more

/-- The observable outcome of a run from reset (R216): the sequences received on RSP, ENC_OUT and DEC_OUT. -/
def outcomeOfRun (c : Config) (ws : List CmdWord) : Option (List RspWord × List EncChar × List Sym) :=
  match runWords ws (State.resetWith c) with
  | .next t => some (t.rsp, t.encOut, t.decOut)
  | .fault _ => none
  | .refused _ => none

/-- "A run is complete when both engines are IDLE at its end" (R216). -/
def State.runComplete (s : State) : Bool := decide (s.encSt = .idle ∧ s.decSt = .idle)

end Sys2Proof.Machine
end

