-- ==== Sys2Proof/Safety.lean ====
section
/-! DEFINITION. What claims mean by a good state: the invariants of `10_state.md` R40, with the canonical form of
the memories, and the notion of one response per command. -/

namespace Sys2Proof.Machine

/-- A CT entry is well formed (R40 item 4): `1 ≤ len ≤ MAXH` and `code[i] = 0` for every `i ≥ len`. -/
def CtEntry.Good (c : Config) (e : CtEntry) : Prop :=
  1 ≤ e.len.toNat ∧ e.len.toNat ≤ c.maxh.toNat ∧ ∀ i, e.len.toNat ≤ i → e.code.getLsbD i = false

/-- What holds "in every state reachable from reset by any sequence of command words" (R40). Item 1 is the type
of the engine states and item 5 the type of the TM entries; item 6 is about steps and is stated of steps. -/
structure Inv (s : State) : Prop where
  /-- `1 ≤ MAXH` (R6). -/
  legal : s.cfg.Legal
  /-- CT is in canonical form, with 256 addresses. -/
  ctForm : Memory.wf Config.alpha s.ct
  /-- TM is in canonical form, with 512 addresses. -/
  tmForm : Memory.wf Config.nodes s.tm
  /-- Item 2. -/
  rootUnset : s.rootV = false → s.root = 0#9
  /-- Item 3, encoder: "only E_UNKSYM, code 4, can occur" (R22). -/
  encErrRange : s.encErr = .ok ∨ s.encErr = .eUnksym
  encActive : s.encSt = .active → s.encErr = .ok
  encFaulted : s.encSt = .faulted → s.encErr = .eUnksym
  /-- Item 3, decoder (R24). -/
  decErrRange : s.decErr = .ok ∨ s.decErr.isDecodeFault = true
  decActive : s.decSt = .active → s.decErr = .ok
  decFaulted : s.decSt = .faulted → s.decErr.isDecodeFault = true
  /-- Item 4. -/
  ctGood : ∀ sym e, s.ctRead sym = some e → e.Good s.cfg
  /-- Item 7. -/
  curRests : s.decSt = .active → s.cur = s.root ∨ ∃ l r, s.tmRead s.cur = some (.internal l r)
  /-- With a leaf root the pointer never leaves the root (`43_decoder.md` R153, R154, R156). -/
  leafRoot : s.decSt = .active → ∀ x, s.tmRead s.root = some (.leaf x) → s.cur = s.root

/-- The code of the response a command that took `s` to `t` appended (R77), when it appended exactly one. -/
def responseCode (s t : State) : Option (BitVec 4) :=
  match t.rsp.drop s.rsp.length with
  | [r] => some (r.extractLsb' 28 4)
  | _ => none

/-- The info of that response. -/
def responseInfo (s t : State) : Option Info :=
  match t.rsp.drop s.rsp.length with
  | [r] => some (r.extractLsb' 0 28)
  | _ => none

/-- The commands of the encoder's side: they read and write ENC_ST, ENC_ERR and CT only (R36, R140). -/
def isEncoderSide (i : Instr) : Bool :=
  match i with
  | .ctClear | .ctWrite _ _ _ | .encStart | .encSym _ | .encEnd => true
  | .nop | .trClear | .trLeaf _ _ | .trNode _ _ _ | .trRoot _ | .rdReg _ | .decStart | .decBit _ | .decEnd
  | .reservedE _ | .reservedF _ => false

/-- The commands of the decoder's side: they read and write DEC_ST, DEC_ERR, CUR, ROOT, ROOT_V and TM only (R36,
R150). -/
def isDecoderSide (i : Instr) : Bool :=
  match i with
  | .trClear | .trLeaf _ _ | .trNode _ _ _ | .trRoot _ | .decStart | .decBit _ | .decEnd => true
  | .nop | .ctClear | .ctWrite _ _ _ | .rdReg _ | .encStart | .encSym _ | .encEnd | .reservedE _
  | .reservedF _ => false

/-- A word that spells a command of the given kind. -/
def wordIs (kind : Instr → Bool) (c : Config) (w : CmdWord) : Bool :=
  match decode c w with
  | .command i => kind i
  | .illegal _ => false

/-- Two states agree on everything the encoder's side reads. -/
structure SameEncoder (s₁ s₂ : State) : Prop where
  encSt  : s₁.encSt = s₂.encSt
  encErr : s₁.encErr = s₂.encErr
  ct     : s₁.ct = s₂.ct
  cfg    : s₁.cfg = s₂.cfg

/-- Two states agree on everything the decoder's side reads. -/
structure SameDecoder (s₁ s₂ : State) : Prop where
  decSt  : s₁.decSt = s₂.decSt
  decErr : s₁.decErr = s₂.decErr
  cur    : s₁.cur = s₂.cur
  root   : s₁.root = s₂.root
  rootV  : s₁.rootV = s₂.rootV
  tm     : s₁.tm = s₂.tm

end Sys2Proof.Machine
end

