-- ==== Sys2Proof/Certificates/Slice0/Obligations.lean ====
section
/-! DEFINITION. The statements for the provers. A state written with a record update says that every field not
named is unchanged: it is the frame. Memory is compared through the read of one entry, at every address. -/

open Sys2Proof Sys2Proof.Machine

/-! ## The commands, one statement each (tier 1) -/

/-- `41_control_and_load.md` R121: NOP answers OK and writes nothing, in every engine state; a word with OP 0x0
and any other bit set is refused with E_BADCMD. -/
def Obligations.NopAnswersOk : Prop :=
  ∀ (s : State) (w : CmdWord),
    exec .nop s = .next { s with rsp := s.rsp ++ [0x00000000#32] } ∧
    (w.extractLsb' 272 4 = 0x0#4 →
      accept w s = if w.extractLsb' 0 272 = 0#272 then exec .nop s
        else .next { s with rsp := s.rsp ++ [0x10000000#32] })

/-- R122: CT_CLEAR invalidates every CT entry; refused with E_BUSY while an encode transaction is open. -/
def Obligations.CtClearEmptiesTable : Prop :=
  ∀ (s : State) (w : CmdWord),
    (s.encSt = .idle → ∃ t, exec .ctClear s = .next t ∧
      t = { s with ct := t.ct, rsp := s.rsp ++ [0x00000000#32] } ∧ ∀ a, t.ct.read a = none) ∧
    (s.encSt ≠ .idle → exec .ctClear s = .next { s with rsp := s.rsp ++ [0x30000000#32] }) ∧
    (w.extractLsb' 272 4 = 0x1#4 →
      accept w s = if w.extractLsb' 0 272 = 0#272 then exec .ctClear s
        else .next { s with rsp := s.rsp ++ [0x10000000#32] })

/-- R123: CT_WRITE refuses a bad length or a set bit at or above it with E_BADCMD, then refuses with E_BUSY while
an encode transaction is open, and otherwise writes the one entry of its symbol. -/
def Obligations.CtWriteStoresCode : Prop :=
  ∀ (s : State) (sym : Sym) (len : BitVec 9) (code : CodeBits) (w : CmdWord),
    ((len.toNat < 1 ∨ s.cfg.maxh.toNat < len.toNat ∨ ∃ i : Fin 255, len.toNat ≤ i.val ∧ code.getLsbD i = true) →
      exec (.ctWrite sym len code) s = .next { s with rsp := s.rsp ++ [0x10000000#32] }) ∧
    (ctWriteLegal s.cfg len code → s.encSt ≠ .idle →
      exec (.ctWrite sym len code) s = .next { s with rsp := s.rsp ++ [0x30000000#32] }) ∧
    (ctWriteLegal s.cfg len code → s.encSt = .idle →
      ∃ t, exec (.ctWrite sym len code) s = .next t ∧
        t = { s with ct := t.ct, rsp := s.rsp ++ [0x00000000#32] } ∧
        ∀ a, t.ct.read a = if a = sym.toNat then some ⟨BitVec.ofNat 8 len.toNat, code⟩ else s.ct.read a) ∧
    (w.extractLsb' 272 4 = 0x2#4 →
      accept w s = exec (.ctWrite (w.extractLsb' 264 8) (w.extractLsb' 255 9) (w.extractLsb' 0 255)) s)

/-- R124: TR_CLEAR invalidates every TM entry, ROOT and ROOT_V become 0, CUR is not written; refused with E_BUSY
while a decode transaction is open. -/
def Obligations.TrClearForgetsTree : Prop :=
  ∀ (s : State) (w : CmdWord),
    (s.decSt = .idle → ∃ t, exec .trClear s = .next t ∧
      t = { s with tm := t.tm, root := 0#9, rootV := false, rsp := s.rsp ++ [0x00000000#32] } ∧
      ∀ a, t.tm.read a = none) ∧
    (s.decSt ≠ .idle → exec .trClear s = .next { s with rsp := s.rsp ++ [0x30000000#32] }) ∧
    (w.extractLsb' 272 4 = 0x3#4 →
      accept w s = if w.extractLsb' 0 272 = 0#272 then exec .trClear s
        else .next { s with rsp := s.rsp ++ [0x10000000#32] })

/-- R125: TR_LEAF writes one leaf entry. -/
def Obligations.TrLeafWritesLeaf : Prop :=
  ∀ (s : State) (idx : Idx) (sym : Sym) (w : CmdWord),
    (s.decSt = .idle → ∃ t, exec (.trLeaf idx sym) s = .next t ∧
      t = { s with tm := t.tm, rsp := s.rsp ++ [0x00000000#32] } ∧
      ∀ a, t.tm.read a = if a = idx.toNat then some (.leaf sym) else s.tm.read a) ∧
    (s.decSt ≠ .idle → exec (.trLeaf idx sym) s = .next { s with rsp := s.rsp ++ [0x30000000#32] }) ∧
    (w.extractLsb' 272 4 = 0x4#4 →
      accept w s = if w.extractLsb' 0 255 = 0#255 then exec (.trLeaf (w.extractLsb' 255 9) (w.extractLsb' 264 8)) s
        else .next { s with rsp := s.rsp ++ [0x10000000#32] })

/-- R126: TR_NODE writes one internal entry; the children are not checked. -/
def Obligations.TrNodeWritesNode : Prop :=
  ∀ (s : State) (idx left right : Idx) (w : CmdWord),
    (s.decSt = .idle → ∃ t, exec (.trNode idx left right) s = .next t ∧
      t = { s with tm := t.tm, rsp := s.rsp ++ [0x00000000#32] } ∧
      ∀ a, t.tm.read a = if a = idx.toNat then some (.internal left right) else s.tm.read a) ∧
    (s.decSt ≠ .idle → exec (.trNode idx left right) s = .next { s with rsp := s.rsp ++ [0x30000000#32] }) ∧
    (w.extractLsb' 272 4 = 0x5#4 →
      accept w s =
        if w.extractLsb' 264 8 = 0#8 ∧ w.extractLsb' 18 237 = 0#237 then
          exec (.trNode (w.extractLsb' 255 9) (w.extractLsb' 0 9) (w.extractLsb' 9 9)) s
        else .next { s with rsp := s.rsp ++ [0x10000000#32] })

/-- R127: TR_ROOT names the root; the entry need not be valid. -/
def Obligations.TrRootNamesRoot : Prop :=
  ∀ (s : State) (idx : Idx) (w : CmdWord),
    (s.decSt = .idle →
      exec (.trRoot idx) s = .next { s with root := idx, rootV := true, rsp := s.rsp ++ [0x00000000#32] }) ∧
    (s.decSt ≠ .idle → exec (.trRoot idx) s = .next { s with rsp := s.rsp ++ [0x30000000#32] }) ∧
    (w.extractLsb' 272 4 = 0x6#4 →
      accept w s =
        if w.extractLsb' 264 8 = 0#8 ∧ w.extractLsb' 0 255 = 0#255 then exec (.trRoot (w.extractLsb' 255 9)) s
        else .next { s with rsp := s.rsp ++ [0x10000000#32] })

/-- R128 with the views of `10_state.md` R33 to R35: RD_REG answers the 28-bit view, in every engine state, and
changes nothing; `regno` above 2 and non-zero B or C are refused. -/
def Obligations.RdRegReadsViews : Prop :=
  ∀ (s : State) (w : CmdWord),
    exec (.rdReg .status) s = .next { s with rsp := s.rsp ++ [BitVec.ofNat 32
      (s.encSt.bits.toNat + s.encErr.bits.toNat * 4 + s.decSt.bits.toNat * 64 + s.decErr.bits.toNat * 256)] } ∧
    exec (.rdReg .decptr) s = .next { s with rsp := s.rsp ++ [BitVec.ofNat 32
      (s.cur.toNat + s.root.toNat * 512 + s.rootV.toNat * 262144)] } ∧
    exec (.rdReg .config) s = .next { s with rsp := s.rsp ++ [BitVec.ofNat 32 s.cfg.maxh.toNat] } ∧
    (w.extractLsb' 272 4 = 0x7#4 →
      accept w s =
        if w.extractLsb' 0 264 = 0#264 ∧ w.extractLsb' 264 8 = 0#8 then exec (.rdReg .status) s
        else if w.extractLsb' 0 264 = 0#264 ∧ w.extractLsb' 264 8 = 1#8 then exec (.rdReg .decptr) s
        else if w.extractLsb' 0 264 = 0#264 ∧ w.extractLsb' 264 8 = 2#8 then exec (.rdReg .config) s
        else .next { s with rsp := s.rsp ++ [0x10000000#32] })

/-- R129: a word with OP 0xE or 0xF is refused with E_BADCMD whatever its other 272 bits. That the two rows are
constructors is the model's choice (log 7); the clause about `accept` does not rest on it. -/
def Obligations.ReservedOpcodesRefused : Prop :=
  ∀ (s : State) (rest : BitVec 272) (w : CmdWord),
    exec (.reservedE rest) s = .next { s with rsp := s.rsp ++ [0x10000000#32] } ∧
    exec (.reservedF rest) s = .next { s with rsp := s.rsp ++ [0x10000000#32] } ∧
    (w.extractLsb' 272 4 = 0xE#4 ∨ w.extractLsb' 272 4 = 0xF#4 →
      accept w s = .next { s with rsp := s.rsp ++ [0x10000000#32] })

/-- `42_encoder.md` R141: ENC_START opens a transaction and clears ENC_ERR, without looking at CT. -/
def Obligations.EncStartOpensTransaction : Prop :=
  ∀ (s : State) (w : CmdWord),
    (s.encSt = .idle →
      exec .encStart s = .next { s with encSt := .active, encErr := .ok, rsp := s.rsp ++ [0x00000000#32] }) ∧
    (s.encSt ≠ .idle → exec .encStart s = .next { s with rsp := s.rsp ++ [0x20000000#32] }) ∧
    (w.extractLsb' 272 4 = 0x8#4 →
      accept w s = if w.extractLsb' 0 272 = 0#272 then exec .encStart s
        else .next { s with rsp := s.rsp ++ [0x10000000#32] })

/-- R142: ENC_SYM appends the symbol's code, `code[0]` first, or faults E_UNKSYM with the symbol as info, or
replays the latched code, or is out of sequence. -/
def Obligations.EncSymEmitsCode : Prop :=
  ∀ (s : State) (sym : Sym) (w : CmdWord),
    (s.encSt = .idle → exec (.encSym sym) s = .next { s with rsp := s.rsp ++ [0x20000000#32] }) ∧
    (s.encSt = .faulted → exec (.encSym sym) s = .next { s with rsp := s.rsp ++ [s.encErr.bits ++ 0#28] }) ∧
    (s.encSt = .active → s.ct.read sym.toNat = none →
      exec (.encSym sym) s =
        .next { s with encSt := .faulted, encErr := .eUnksym, rsp := s.rsp ++ [4#4 ++ sym.setWidth 28] }) ∧
    (s.encSt = .active → ∀ e, s.ct.read sym.toNat = some e →
      exec (.encSym sym) s =
        .next { s with
          encOut := s.encOut ++ (List.range e.len.toNat).map (fun i => if e.code.getLsbD i then 0x31#8 else 0x30#8)
          rsp := s.rsp ++ [0x00000000#32] }) ∧
    (w.extractLsb' 272 4 = 0x9#4 →
      accept w s = if w.extractLsb' 0 264 = 0#264 then exec (.encSym (w.extractLsb' 264 8)) s
        else .next { s with rsp := s.rsp ++ [0x10000000#32] })

/-- R143: ENC_END closes the transaction with the latched code or OK; ENC_ERR is left as it is. -/
def Obligations.EncEndClosesTransaction : Prop :=
  ∀ (s : State) (w : CmdWord),
    (s.encSt = .idle → exec .encEnd s = .next { s with rsp := s.rsp ++ [0x20000000#32] }) ∧
    (s.encSt = .faulted → exec .encEnd s = .next { s with encSt := .idle, rsp := s.rsp ++ [s.encErr.bits ++ 0#28] }) ∧
    (s.encSt = .active → exec .encEnd s = .next { s with encSt := .idle, rsp := s.rsp ++ [0x00000000#32] }) ∧
    (w.extractLsb' 272 4 = 0xA#4 →
      accept w s = if w.extractLsb' 0 272 = 0#272 then exec .encEnd s
        else .next { s with rsp := s.rsp ++ [0x10000000#32] })

/-- `43_decoder.md` R151: DEC_START opens a transaction, clears DEC_ERR and puts CUR at ROOT, without looking at
ROOT_V or TM. -/
def Obligations.DecStartPutsPointerAtRoot : Prop :=
  ∀ (s : State) (w : CmdWord),
    (s.decSt = .idle →
      exec .decStart s =
        .next { s with decSt := .active, decErr := .ok, cur := s.root, rsp := s.rsp ++ [0x00000000#32] }) ∧
    (s.decSt ≠ .idle → exec .decStart s = .next { s with rsp := s.rsp ++ [0x20000000#32] }) ∧
    (w.extractLsb' 272 4 = 0xB#4 →
      accept w s = if w.extractLsb' 0 272 = 0#272 then exec .decStart s
        else .next { s with rsp := s.rsp ++ [0x10000000#32] })

/-- R152: DEC_BIT, every path of its pseudocode in the order of the checks. `nxt` is the left child on '0' and the
right child on '1'. -/
def Obligations.DecBitWalksOneEdge : Prop :=
  ∀ (s : State) (ch : EncChar) (w : CmdWord),
    (s.decSt = .idle → exec (.decBit ch) s = .next { s with rsp := s.rsp ++ [0x20000000#32] }) ∧
    (s.decSt = .faulted → exec (.decBit ch) s = .next { s with rsp := s.rsp ++ [s.decErr.bits ++ 0#28] }) ∧
    (s.decSt = .active → ch ≠ 0x30#8 → ch ≠ 0x31#8 →
      exec (.decBit ch) s =
        .next { s with decSt := .faulted, decErr := .eBadch, rsp := s.rsp ++ [6#4 ++ ch.setWidth 28] }) ∧
    (s.decSt = .active → ch = 0x30#8 ∨ ch = 0x31#8 → s.rootV = false →
      exec (.decBit ch) s =
        .next { s with decSt := .faulted, decErr := .eNotree, rsp := s.rsp ++ [0x70000000#32] }) ∧
    (s.decSt = .active → ch = 0x30#8 ∨ ch = 0x31#8 → s.rootV = true → s.tm.read s.cur.toNat = none →
      exec (.decBit ch) s =
        .next { s with decSt := .faulted, decErr := .eBadtree, rsp := s.rsp ++ [8#4 ++ s.cur.setWidth 28] }) ∧
    (s.decSt = .active → s.rootV = true → ∀ sym, s.tm.read s.cur.toNat = some (.leaf sym) →
      (ch = 0x31#8 → exec (.decBit ch) s =
        .next { s with decSt := .faulted, decErr := .eMalformed, rsp := s.rsp ++ [5#4 ++ s.cur.setWidth 28] }) ∧
      (ch = 0x30#8 → exec (.decBit ch) s =
        .next { s with decOut := s.decOut ++ [sym], rsp := s.rsp ++ [0x00000000#32] })) ∧
    (s.decSt = .active → s.rootV = true → ∀ left right nxt, s.tm.read s.cur.toNat = some (.internal left right) →
      ch = 0x30#8 ∧ nxt = left ∨ ch = 0x31#8 ∧ nxt = right →
      (s.tm.read nxt.toNat = none → exec (.decBit ch) s =
        .next { s with decSt := .faulted, decErr := .eBadtree, rsp := s.rsp ++ [8#4 ++ nxt.setWidth 28] }) ∧
      (∀ sym, s.tm.read nxt.toNat = some (.leaf sym) → exec (.decBit ch) s =
        .next { s with cur := s.root, decOut := s.decOut ++ [sym], rsp := s.rsp ++ [0x00000000#32] }) ∧
      (∀ l r, s.tm.read nxt.toNat = some (.internal l r) → exec (.decBit ch) s =
        .next { s with cur := nxt, rsp := s.rsp ++ [0x00000000#32] })) ∧
    (w.extractLsb' 272 4 = 0xC#4 →
      accept w s = if w.extractLsb' 0 264 = 0#264 then exec (.decBit (w.extractLsb' 264 8)) s
        else .next { s with rsp := s.rsp ++ [0x10000000#32] })

/-- R153: DEC_END closes the transaction: with the latched code, with E_MALFORMED and CUR when the stream ended
mid-code, or with OK. CUR is not written. -/
def Obligations.DecEndChecksCodeBoundary : Prop :=
  ∀ (s : State) (w : CmdWord),
    (s.decSt = .idle → exec .decEnd s = .next { s with rsp := s.rsp ++ [0x20000000#32] }) ∧
    (s.decSt = .faulted → exec .decEnd s = .next { s with decSt := .idle, rsp := s.rsp ++ [s.decErr.bits ++ 0#28] }) ∧
    (s.decSt = .active → s.cur ≠ s.root →
      exec .decEnd s =
        .next { s with decSt := .idle, decErr := .eMalformed, rsp := s.rsp ++ [5#4 ++ s.cur.setWidth 28] }) ∧
    (s.decSt = .active → s.cur = s.root →
      exec .decEnd s = .next { s with decSt := .idle, rsp := s.rsp ++ [0x00000000#32] }) ∧
    (w.extractLsb' 272 4 = 0xD#4 →
      accept w s = if w.extractLsb' 0 272 = 0#272 then exec .decEnd s
        else .next { s with rsp := s.rsp ++ [0x10000000#32] })

/-! ## Reset and the step -/

/-- `10_state.md` R41: the reset state. The value of MAXH in `State.reset` is the model's choice (log 2) and is
not part of the claim: the table holds for every configuration. -/
def Obligations.ResetStateIsTheTable : Prop :=
  (∃ c, State.reset = State.resetWith c) ∧
  ∀ c : Config,
    let s := State.resetWith c
    s.encSt = .idle ∧ s.encErr = .ok ∧ s.decSt = .idle ∧ s.decErr = .ok ∧ s.cur = 0#9 ∧ s.root = 0#9 ∧
    s.rootV = false ∧ (∀ sym, s.ctRead sym = none) ∧ (∀ i, s.tmRead i = none) ∧
    s.cmd = [] ∧ s.rsp = [] ∧ s.encOut = [] ∧ s.decOut = [] ∧ s.cfg = c

/-- `70_reset_and_hazards.md` R200: a reset, as the host's action and as `rst` sampled at 1, gives the reset state
whatever the state was, and empties the channels. -/
def Obligations.ResetFromAnyState : Prop :=
  ∀ (s : State) (p : PortCycle),
    hostStep .reset s = State.resetWith s.cfg ∧ (p.rst = true → clockEdge p s = State.resetWith s.cfg)

/-- `00_scope.md` R12, `20_memory.md` R60: when the head of CMD decodes to a command, the step removes it from CMD
and is that command's `exec`. -/
def Obligations.StepRunsDecodedCommand : Prop :=
  ∀ (s : State) (w : CmdWord) (more : List CmdWord) (i : Instr),
    s.cmd = w :: more → decode s.cfg w = .command i → step s = exec i { s with cmd := more }

/-- `41_control_and_load.md` R120, `60_exceptions.md` R177: an illegal word is refused with E_BADCMD, whatever the
state of the engines, and changes nothing. -/
def Obligations.StepRefusesIllegalWord : Prop :=
  ∀ (s : State) (w : CmdWord) (more : List CmdWord) (why : Illegal),
    s.cmd = w :: more → decode s.cfg w = .illegal why →
      step s = .next { s with cmd := more, rsp := s.rsp ++ [0x10000000#32] }

/-- `60_exceptions.md` R191: with no command to accept, the block waits and keeps all its state. That a waiting
block's step is a step at all is the model's choice (log 1). -/
def Obligations.WaitingBlockKeepsState : Prop :=
  ∀ s : State, s.cmd = [] → step s = .next s

/-! ## Encoding -/

/-- Words written out in `30_encoding.md`, `41_control_and_load.md` and `95_test_vectors.md` section 3 decode to
the commands they spell there. -/
def Obligations.WrittenOutWordsDecode : Prop :=
  decode ⟨255#8⟩ 0x262010000000000000000000000000000000000000000000000000000000000000003#276
    = .command (.ctWrite 0x62#8 2#9 3#255) ∧
  decode ⟨255#8⟩ 0x4FFFF8000000000000000000000000000000000000000000000000000000000000000#276
    = .command (.trLeaf 511#9 0xFF#8) ∧
  decode ⟨255#8⟩ 0x500018000000000000000000000000000000000000000000000000000000000000202#276
    = .command (.trNode 3#9 2#9 1#9) ∧
  decode ⟨255#8⟩ 0x961000000000000000000000000000000000000000000000000000000000000000000#276
    = .command (.encSym 0x61#8) ∧
  decode ⟨255#8⟩ 0xC31000000000000000000000000000000000000000000000000000000000000000000#276
    = .command (.decBit 0x31#8)

/-- `30_encoding.md` R70 to R74, R81: decoding the word of a well-formed command gives the command back, for every
command, every operand and every MAXH. For RESERVED_E and RESERVED_F this is the model's choice (log 7): their words
decode to constructors that stand for R129's refusal, where R81 calls the words illegal. -/
def Obligations.DecodeOfEncode : Prop :=
  ∀ (c : Config) (i : Instr), i.WellFormed c → decode c (encode i) = .command i

/-- `30_encoding.md` R73: no bit of a word is ignored. A word that decodes to a command is the one word that
spells it, and the command is well formed. That the words of the two reserved rows decode to a command is the model's
choice (log 7). -/
def Obligations.NoBitIgnored : Prop :=
  ∀ (c : Config) (w : CmdWord) (i : Instr), decode c w = .command i → encode i = w ∧ i.WellFormed c

/-- `30_encoding.md` R70, R74: a word spells a command of a row exactly when it matches the row of
`opcode_table.json` and meets the row's constraint. For the rows RESERVED_E and RESERVED_F, which the table lists and
R75 and R81 call illegal, "decodes to a command of the row" is the model's choice (log 7). -/
def Obligations.DecoderAgreesWithOpcodeTable : Prop :=
  ∀ (c : Config) (w : CmdWord) (o : Opcode),
    (w &&& o.mask = o.pattern ∧
      (o = .ctWrite → ctWriteLegal c (w.extractLsb' 255 9) (w.extractLsb' 0 255)) ∧
      (o = .rdReg → w.extractLsb' 264 2 ≠ 3#2)) ↔
    ∃ i, decode c w = .command i ∧ i.opcode = o

/-! ## Whole-machine rules, over every command and every state -/

/-- `20_memory.md` R61, `30_encoding.md` R77, R80, `60_exceptions.md` R170, `70_reset_and_hazards.md` R215: every
command completes with exactly one response, whose code is at most 8; it appends to the output channels, only '0'
and '1' on ENC_OUT, at most MAXH of them and at most one byte on DEC_OUT; CMD and the parameters are untouched. The
bound MAXH needs the invariant; the others hold in every state. And every step completes; that a step with an empty
CMD is a step at all is the model's choice (log 1). -/
def Obligations.EveryCommandAnswersOnce : Prop :=
  (∀ (i : Instr) (s : State), ∃ t r e d, exec i s = .next t ∧ t.rsp = s.rsp ++ [r] ∧
    (r.extractLsb' 28 4).toNat ≤ 8 ∧
    t.encOut = s.encOut ++ e ∧ (∀ c ∈ e, c = 0x30#8 ∨ c = 0x31#8) ∧ (Inv s → e.length ≤ s.cfg.maxh.toNat) ∧
    t.decOut = s.decOut ++ d ∧ d.length ≤ 1 ∧ t.cmd = s.cmd ∧ t.cfg = s.cfg) ∧
  ∀ s : State, ∃ t, step s = .next t

/-- `60_exceptions.md` R172: a word, legal or not, answered with a refusal code 1, 2 or 3 changed nothing but RSP,
and the info is 0. -/
def Obligations.RefusalChangesNothing : Prop :=
  ∀ (w : CmdWord) (s t : State) (c : BitVec 4), Inv s → accept w s = .next t → responseCode s t = some c →
    c = 1#4 ∨ c = 2#4 ∨ c = 3#4 → responseInfo s t = some 0#28 ∧ t = { s with rsp := t.rsp }

/-- `60_exceptions.md` R173 to R175: where a response with code 4 or more comes from, and all it does: the entry of
a fault of ENC_SYM, of DEC_BIT or of DEC_END in ACTIVE, or the replay or the closing report in FAULTED. -/
def Obligations.FaultEntryReplayAndReturn : Prop :=
  ∀ (i : Instr) (s t : State) (c : BitVec 4), Inv s → exec i s = .next t → responseCode s t = some c →
    4 ≤ c.toNat →
    (s.encSt = .active ∧ ∃ sym, i = .encSym sym ∧ s.ctRead sym = none ∧
      t = { s with encSt := .faulted, encErr := .eUnksym, rsp := s.rsp ++ [4#4 ++ sym.setWidth 28] }) ∨
    (s.decSt = .active ∧ ∃ ch st info, i = .decBit ch ∧
      (st = .eBadch ∧ info = ch.setWidth 28 ∨ st = .eNotree ∧ info = 0#28 ∨
        st = .eBadtree ∧ (∃ k, s.tmRead k = none ∧ info = k.setWidth 28) ∨
        st = .eMalformed ∧ info = s.cur.setWidth 28) ∧
      t = { s with decSt := .faulted, decErr := st, rsp := s.rsp ++ [st.bits ++ info] }) ∨
    (s.decSt = .active ∧ i = .decEnd ∧ s.cur ≠ s.root ∧
      t = { s with decSt := .idle, decErr := .eMalformed, rsp := s.rsp ++ [5#4 ++ s.cur.setWidth 28] }) ∨
    (s.encSt = .faulted ∧ (∃ sym, i = .encSym sym) ∧ t = { s with rsp := s.rsp ++ [s.encErr.bits ++ 0#28] }) ∨
    (s.encSt = .faulted ∧ i = .encEnd ∧ t = { s with encSt := .idle, rsp := s.rsp ++ [s.encErr.bits ++ 0#28] }) ∨
    (s.decSt = .faulted ∧ (∃ ch, i = .decBit ch) ∧ t = { s with rsp := s.rsp ++ [s.decErr.bits ++ 0#28] }) ∨
    (s.decSt = .faulted ∧ i = .decEnd ∧ t = { s with decSt := .idle, rsp := s.rsp ++ [s.decErr.bits ++ 0#28] })

/-- `10_state.md` R36, R37: each piece of state is written only by the commands the table names. -/
def Obligations.EachStateWrittenOnlyBy : Prop :=
  ∀ (i : Instr) (s t : State), exec i s = .next t →
    (t.encSt ≠ s.encSt → i = .encStart ∨ (∃ x, i = .encSym x) ∨ i = .encEnd) ∧
    (t.encErr ≠ s.encErr → i = .encStart ∨ ∃ x, i = .encSym x) ∧
    (t.decSt ≠ s.decSt → i = .decStart ∨ (∃ x, i = .decBit x) ∨ i = .decEnd) ∧
    (t.decErr ≠ s.decErr → i = .decStart ∨ (∃ x, i = .decBit x) ∨ i = .decEnd) ∧
    (t.cur ≠ s.cur → i = .decStart ∨ ∃ x, i = .decBit x) ∧
    (t.root ≠ s.root → (∃ k, i = .trRoot k) ∨ i = .trClear) ∧
    (t.rootV ≠ s.rootV → (∃ k, i = .trRoot k) ∨ i = .trClear) ∧
    (t.ct ≠ s.ct → (∃ x l k, i = .ctWrite x l k) ∨ i = .ctClear) ∧
    (t.tm ≠ s.tm → (∃ k x, i = .trLeaf k x) ∨ (∃ k l r, i = .trNode k l r) ∨ i = .trClear) ∧
    (t.encOut ≠ s.encOut → ∃ x, i = .encSym x) ∧
    (t.decOut ≠ s.decOut → ∃ x, i = .decBit x)

/-- `70_reset_and_hazards.md` R206, `10_state.md` R40 item 6: while an encode transaction is open CT does not
change, while a decode transaction is open TM, ROOT and ROOT_V do not; a load command is then refused with E_BUSY
and changes nothing. -/
def Obligations.OpenTransactionFreezesTables : Prop :=
  ∀ (i : Instr) (s t : State), exec i s = .next t →
    (s.encSt ≠ .idle → t.ct = s.ct ∧
      (i.WellFormed s.cfg → i = .ctClear ∨ (∃ x l k, i = .ctWrite x l k) →
        t = { s with rsp := s.rsp ++ [0x30000000#32] })) ∧
    (s.decSt ≠ .idle → t.tm = s.tm ∧ t.root = s.root ∧ t.rootV = s.rootV ∧
      (i = .trClear ∨ (∃ k x, i = .trLeaf k x) ∨ (∃ k l r, i = .trNode k l r) ∨ (∃ k, i = .trRoot k) →
        t = { s with rsp := s.rsp ++ [0x30000000#32] }))

/-- `10_state.md` R43: the transitions of the two engines, and no others. For a data command in ACTIVE the
condition column is the response: code 0 is "no fault", another code is the fault's. -/
def Obligations.EngineTransitionTable : Prop :=
  ∀ (i : Instr) (s t : State), Inv s → exec i s = .next t →
    (s.encSt = .idle → i = .encStart → t.encSt = .active ∧ t.encErr = .ok) ∧
    (s.encSt = .active → (∃ x, i = .encSym x) →
      t.encSt = .active ∧ t.encErr = .ok ∧ responseCode s t = some 0#4 ∨
      t.encSt = .faulted ∧ responseCode s t = some t.encErr.bits ∧ t.encErr = .eUnksym) ∧
    (s.encSt = .active → i = .encEnd → t.encSt = .idle ∧ t.encErr = .ok) ∧
    (s.encSt = .faulted → i = .encEnd → t.encSt = .idle ∧ t.encErr = s.encErr) ∧
    (s.encSt = .faulted → (∃ x, i = .encSym x) → t.encSt = .faulted ∧ t.encErr = s.encErr) ∧
    (¬(i = .encStart ∨ (∃ x, i = .encSym x) ∨ i = .encEnd) → t.encSt = s.encSt ∧ t.encErr = s.encErr) ∧
    (s.encSt ≠ .idle ∧ i = .encStart ∨ s.encSt = .idle ∧ ((∃ x, i = .encSym x) ∨ i = .encEnd) →
      t = { s with rsp := s.rsp ++ [0x20000000#32] }) ∧
    (s.decSt = .idle → i = .decStart → t.decSt = .active ∧ t.decErr = .ok) ∧
    (s.decSt = .active → (∃ x, i = .decBit x) →
      t.decSt = .active ∧ t.decErr = .ok ∧ responseCode s t = some 0#4 ∨
      t.decSt = .faulted ∧ responseCode s t = some t.decErr.bits ∧ t.decErr.isDecodeFault = true) ∧
    (s.decSt = .active → i = .decEnd →
      t.decSt = .idle ∧ (s.cur = s.root → t.decErr = .ok) ∧ (s.cur ≠ s.root → t.decErr = .eMalformed)) ∧
    (s.decSt = .faulted → i = .decEnd → t.decSt = .idle ∧ t.decErr = s.decErr) ∧
    (s.decSt = .faulted → (∃ x, i = .decBit x) → t.decSt = .faulted ∧ t.decErr = s.decErr) ∧
    (¬(i = .decStart ∨ (∃ x, i = .decBit x) ∨ i = .decEnd) → t.decSt = s.decSt ∧ t.decErr = s.decErr) ∧
    (s.decSt ≠ .idle ∧ i = .decStart ∨ s.decSt = .idle ∧ ((∃ x, i = .decBit x) ∨ i = .decEnd) →
      t = { s with rsp := s.rsp ++ [0x20000000#32] })

/-- `60_exceptions.md` R174, R175, `42_encoder.md` R147, `43_decoder.md` R161: once an engine is FAULTED, no
sequence of commands without its END changes its state, its code, its table or its output. -/
def Obligations.FirstFaultStaysUntilEnd : Prop :=
  (∀ (is : List Instr) (s : State), s.encSt = .faulted → .encEnd ∉ is →
    ∃ t, runInstrs is s = .next t ∧ t.encSt = .faulted ∧ t.encErr = s.encErr ∧ t.ct = s.ct ∧ t.encOut = s.encOut) ∧
  ∀ (is : List Instr) (s : State), s.decSt = .faulted → .decEnd ∉ is →
    ∃ t, runInstrs is s = .next t ∧ t.decSt = .faulted ∧ t.decErr = s.decErr ∧ t.cur = s.cur ∧ t.tm = s.tm ∧
      t.root = s.root ∧ t.rootV = s.rootV ∧ t.decOut = s.decOut

/-- `43_decoder.md` R157: a DEC_BIT reads at most two TM entries, the one at CUR and the child it enters: two
states that differ in other entries only behave alike. -/
def Obligations.DecBitReadsTwoEntries : Prop :=
  ∀ (s t : State) (tm' : Memory TmNode) (ch : EncChar),
    exec (.decBit ch) s = .next t →
    tm'.read s.cur.toNat = s.tm.read s.cur.toNat →
    (∀ l r, s.tm.read s.cur.toNat = some (.internal l r) →
      (ch = 0x30#8 → tm'.read l.toNat = s.tm.read l.toNat) ∧ (ch = 0x31#8 → tm'.read r.toNat = s.tm.read r.toNat)) →
    exec (.decBit ch) { s with tm := tm' } = .next { t with tm := tm' }

/-! ## Invariants -/

/-- The reset state of every legal configuration meets the invariant of `10_state.md` R40, and so does
`State.reset`. -/
def Obligations.ResetMeetsInvariant : Prop :=
  Inv State.reset ∧ ∀ c : Config, c.Legal → Inv (State.resetWith c)

/-- `10_state.md` R40: from every state that meets the invariant, a step gives a state that meets it. -/
def Obligations.StepKeepsInvariant : Prop :=
  ∀ s t : State, Inv s → step s = .next t → Inv t

/-- `10_state.md` R40: the invariant holds "in every state reachable from reset by any sequence of command
words". -/
def Obligations.ReachableStatesMeetInvariant : Prop :=
  ∀ (c : Config) (ws : List CmdWord), c.Legal → ∃ t, runWords ws (State.resetWith c) = .next t ∧ Inv t

/-- `70_reset_and_hazards.md` R213: whatever the host does on its five paths, and whatever a clock edge transfers
(`10_state.md` R38), the invariant stays, and no register, memory or parameter changes but by a reset. -/
def Obligations.HostKeepsInvariant : Prop :=
  (∀ (a : HostAction) (s : State), Inv s → Inv (hostStep a s) ∧ (a ≠ .reset →
    hostStep a s = { s with cmd := (hostStep a s).cmd, rsp := (hostStep a s).rsp,
                            encOut := (hostStep a s).encOut, decOut := (hostStep a s).decOut })) ∧
  ∀ (p : PortCycle) (s : State), Inv s → Inv (clockEdge p s) ∧ (p.rst = false →
    clockEdge p s = { s with cmd := (clockEdge p s).cmd, rsp := (clockEdge p s).rsp,
                             encOut := (clockEdge p s).encOut, decOut := (clockEdge p s).decOut })

/-- `10_state.md` R38: in a cycle without reset, each channel transfers exactly where `valid` and `ready` are both
1, and the element that leaves is the one shown. -/
def Obligations.ChannelTransfersAtClockEdge : Prop :=
  ∀ (p : PortCycle) (s : State), p.rst = false → p.Faithful s →
    ((clockEdge p s).cmd = s.cmd ++ if p.cmdValid = true ∧ p.cmdReady = true then [p.cmdData] else []) ∧
    (s.rsp = (if p.rspValid = true ∧ p.rspReady = true then [p.rspData] else []) ++ (clockEdge p s).rsp) ∧
    (s.encOut = (if p.eoValid = true ∧ p.eoReady = true then [p.eoData] else []) ++ (clockEdge p s).encOut) ∧
    (s.decOut = (if p.doValid = true ∧ p.doReady = true then [p.doData] else []) ++ (clockEdge p s).decOut)

/-! ## Sequences of commands -/

/-- `20_memory.md` R60 to R62, `70_reset_and_hazards.md` R216: the state after a sequence of words at the head of
CMD, run one step a word, is the fold of the step over the words. -/
def Obligations.StepsAreTheFold : Prop :=
  ∀ (ws : List CmdWord) (s : State),
    ∃ t, runWords ws s = .next t ∧ Host.Core.run Sys2Proof.core ws.length { s with cmd := ws ++ s.cmd } = .next t

/-- `42_encoder.md` R140, R145: a command of the encoder's side depends only on ENC_ST, ENC_ERR, CT and MAXH, and
writes nothing of the decoder. -/
def Obligations.EncoderIndependentOfDecoder : Prop :=
  ∀ (i : Instr) (s₁ s₂ t₁ t₂ : State), isEncoderSide i = true → SameEncoder s₁ s₂ →
    exec i s₁ = .next t₁ → exec i s₂ = .next t₂ →
    SameEncoder t₁ t₂ ∧ t₁.rsp.drop s₁.rsp.length = t₂.rsp.drop s₂.rsp.length ∧
    t₁.encOut.drop s₁.encOut.length = t₂.encOut.drop s₂.encOut.length ∧
    t₁ = { s₁ with encSt := t₁.encSt, encErr := t₁.encErr, ct := t₁.ct, encOut := t₁.encOut, rsp := t₁.rsp }

/-- `43_decoder.md` R150: a command of the decoder's side depends only on DEC_ST, DEC_ERR, CUR, ROOT, ROOT_V and
TM, not on MAXH, and writes nothing of the encoder. -/
def Obligations.DecoderIndependentOfEncoder : Prop :=
  ∀ (i : Instr) (s₁ s₂ t₁ t₂ : State), isDecoderSide i = true → SameDecoder s₁ s₂ →
    exec i s₁ = .next t₁ → exec i s₂ = .next t₂ →
    SameDecoder t₁ t₂ ∧ t₁.rsp.drop s₁.rsp.length = t₂.rsp.drop s₂.rsp.length ∧
    t₁.decOut.drop s₁.decOut.length = t₂.decOut.drop s₂.decOut.length ∧
    t₁ = { s₁ with decSt := t₁.decSt, decErr := t₁.decErr, cur := t₁.cur, root := t₁.root, rootV := t₁.rootV,
                   tm := t₁.tm, decOut := t₁.decOut, rsp := t₁.rsp }

/-- `42_encoder.md` R140, `60_exceptions.md` R188: an encode and a decode transaction interleaved in any way each
have the result they have alone: the words that are not of an engine's side can be left out. -/
def Obligations.InterleavedTransactionsAsIfAlone : Prop :=
  ∀ (ws : List CmdWord) (s : State) (eOpen : Option (List EncChar)) (dOpen : Option (List Sym)),
    encodeResults eOpen (trace ws s) =
      encodeResults eOpen (trace (ws.filter (wordIs isEncoderSide s.cfg)) s) ∧
    decodeResults dOpen (trace ws s) =
      decodeResults dOpen (trace (ws.filter (wordIs isDecoderSide s.cfg)) s)

/-- `30_encoding.md` R82, R83: running the words of a command sequence is running the commands. -/
def Obligations.WordsRunTheirCommands : Prop :=
  ∀ (is : List Instr) (s : State), (∀ i ∈ is, i.WellFormed s.cfg) → runWords (wordsOf is) s = runInstrs is s

/-- `40_environment_reference.md` R110, `41_control_and_load.md` R131: from a state with ENC_ST = IDLE, LOAD_TABLE
of a table whose codes have length 1 to MAXH is answered OK throughout, loads the table, and changes nothing
else. -/
def Obligations.LoadTableLoadsTable : Prop :=
  ∀ (tab : CodeTable) (s : State), s.encSt = .idle →
    (∀ x k, tab.code? x = some k → 1 ≤ k.length ∧ k.length ≤ s.cfg.maxh.toNat) →
    ∃ t, runInstrs (loadTable tab) s = .next t ∧ t.TableLoaded tab ∧
      t = { s with ct := t.ct, rsp := s.rsp ++ List.replicate (loadTable tab).length 0x00000000#32 }

/-- `40_environment_reference.md` R109, `41_control_and_load.md` R131: from a state with DEC_ST = IDLE, LOAD_TREE of
a tree whose leaves carry distinct symbols is answered OK throughout, loads the tree, leaves every entry the tree
does not use invalid, and changes nothing but TM, ROOT and ROOT_V. -/
def Obligations.LoadTreeLoadsTree : Prop :=
  ∀ (t : Tree) (s : State), s.decSt = .idle → t.symbols.Nodup →
    ∃ u, runInstrs (loadTree t) s = .next u ∧ u.TreeLoaded t ∧ (∀ a, t.nodeCount ≤ a → u.tm.read a = none) ∧
      u = { s with tm := u.tm, root := u.root, rootV := u.rootV,
                   rsp := s.rsp ++ List.replicate (loadTree t).length 0x00000000#32 }

/-- `42_encoder.md` R148: correctness of encoding. All bytes known: OK throughout and the concatenated codes; the
empty input whatever is loaded; a first unknown byte `x`: E_UNKSYM with info `x`, then info 0, no further output,
and `Err(E_UNKSYM)`. -/
def Obligations.EncodingIsCorrect : Prop :=
  (∀ (s : State) (tab : CodeTable) (b : List Sym), s.encSt = .idle → s.TableLoaded tab →
    (∀ x ∈ b, (tab.code? x).isSome = true) →
    runInstrs (encodeMacro b) s = .next { s with
      encErr := .ok, encOut := s.encOut ++ charsOf (encodedStream tab b)
      rsp := s.rsp ++ List.replicate (b.length + 2) 0x00000000#32 } ∧
    encodeResults none (trace (wordsOf (encodeMacro b)) s) = [.ok (charsOf (encodedStream tab b))]) ∧
  (∀ s : State, s.encSt = .idle →
    runInstrs (encodeMacro []) s = .next { s with
      encErr := .ok, rsp := s.rsp ++ [0x00000000#32, 0x00000000#32] } ∧
    encodeResults none (trace (wordsOf (encodeMacro [])) s) = [.ok []]) ∧
  ∀ (s : State) (tab : CodeTable) (known later : List Sym) (x : Sym), s.encSt = .idle → s.TableLoaded tab →
    (∀ y ∈ known, (tab.code? y).isSome = true) → tab.code? x = none →
    runInstrs (encodeMacro (known ++ x :: later)) s = .next { s with
      encErr := .eUnksym, encOut := s.encOut ++ charsOf (encodedStream tab known)
      rsp := s.rsp ++ (List.replicate (known.length + 1) 0x00000000#32 ++
        (4#4 ++ x.setWidth 28) :: List.replicate (later.length + 1) 0x40000000#32) } ∧
    encodeResults none (trace (wordsOf (encodeMacro (known ++ x :: later))) s) = [.err 4#4]

/-- `43_decoder.md` R155: walking one code from the root emits exactly its byte, by the last command, and ends at
the root; after a proper non-empty part of it, CUR is not ROOT. -/
def Obligations.OneCodeOneByte : Prop :=
  ∀ (s : State) (t : Tree) (x : Sym) (k : Code), s.TreeLoaded t → 1 ≤ t.height → t.symbols.Nodup →
    s.decSt = .active → s.cur = s.root → (codes t).code? x = some k →
    runInstrs (k.map (fun b => .decBit (chr b))) s = .next { s with
      decOut := s.decOut ++ [x], rsp := s.rsp ++ List.replicate k.length 0x00000000#32 } ∧
    ∀ k₁ k₂, k = k₁ ++ k₂ → k₁ ≠ [] → k₂ ≠ [] →
      ∃ u, runInstrs (k₁.map (fun b => .decBit (chr b))) s = .next u ∧ u.cur ≠ s.root ∧
        u = { s with cur := u.cur, rsp := s.rsp ++ List.replicate k₁.length 0x00000000#32 }

/-- `43_decoder.md` R156: with the one-leaf tree, in every state that meets the invariant, '0' emits its symbol and CUR stays at ROOT, '1' faults
E_MALFORMED with info ROOT; `DECODE("0000")` has the result of four symbols. -/
def Obligations.OneSymbolAlphabet : Prop :=
  ∀ (s : State) (x : Sym) (n : Nat), Inv s → s.TreeLoaded (.leaf x n) →
    (s.decSt = .active → s.cur = s.root ∧
      exec (.decBit 0x30#8) s = .next { s with decOut := s.decOut ++ [x], rsp := s.rsp ++ [0x00000000#32] } ∧
      exec (.decBit 0x31#8) s = .next { s with
        decSt := .faulted, decErr := .eMalformed, rsp := s.rsp ++ [5#4 ++ s.root.setWidth 28] }) ∧
    codes (.leaf x n) = [(x, [false])] ∧
    (s.decSt = .idle →
      decodeResults none (trace (wordsOf (decodeMacro [0x30#8, 0x30#8, 0x30#8, 0x30#8])) s) = [.ok [x, x, x, x]])

/-- `43_decoder.md` R162: correctness of decoding. A stream of whole codes decodes to its bytes; a stream cut inside
its last code is reported E_MALFORMED by DEC_END; the empty stream succeeds with or without a tree. -/
def Obligations.DecodingIsCorrect : Prop :=
  (∀ (s : State) (t : Tree) (b : List Sym), s.decSt = .idle → s.TreeLoaded t → t.symbols.Nodup →
    (∀ x ∈ b, x ∈ t.symbols) →
    let e := charsOf (encodedStream (codes t) b)
    runInstrs (decodeMacro e) s = .next { s with
      decErr := .ok, cur := s.root, decOut := s.decOut ++ b
      rsp := s.rsp ++ List.replicate (e.length + 2) 0x00000000#32 } ∧
    decodeResults none (trace (wordsOf (decodeMacro e)) s) = [.ok b]) ∧
  (∀ (s : State) (t : Tree) (b : List Sym) (x : Sym) (k₁ k₂ : Code), s.decSt = .idle → s.TreeLoaded t →
    t.symbols.Nodup → (∀ y ∈ b, y ∈ t.symbols) → (codes t).code? x = some (k₁ ++ k₂) → k₁ ≠ [] → k₂ ≠ [] →
    let e := charsOf (encodedStream (codes t) b ++ k₁)
    ∃ u, runInstrs (decodeMacro e) s = .next u ∧ u.cur ≠ s.root ∧
      u = { s with
        decErr := .eMalformed, cur := u.cur, decOut := s.decOut ++ b
        rsp := s.rsp ++ (List.replicate (e.length + 1) 0x00000000#32 ++ [5#4 ++ u.cur.setWidth 28]) } ∧
      decodeResults none (trace (wordsOf (decodeMacro e)) s) = [.err 5#4]) ∧
  ∀ s : State, s.decSt = .idle →
    runInstrs (decodeMacro []) s = .next { s with
      decErr := .ok, cur := s.root, rsp := s.rsp ++ [0x00000000#32, 0x00000000#32] } ∧
    decodeResults none (trace (wordsOf (decodeMacro [])) s) = [.ok []]

/-- `43_decoder.md` R163: with a tree of height at least 1 loaded, every sequence of '0' and '1' is walked with OK
throughout; if it ends at the root, the decode transaction has result `Ok` of some bytes, and otherwise
`Err(E_MALFORMED)`. -/
def Obligations.AnyBitStreamDecodesOrIsMalformed : Prop :=
  ∀ (s : State) (t : Tree) (k : Code), s.decSt = .idle → s.TreeLoaded t → 1 ≤ t.height →
    ∃ u, runInstrs (.decStart :: k.map (fun b => .decBit (chr b))) s = .next u ∧
      u = { s with decSt := .active, decErr := .ok, cur := u.cur, decOut := u.decOut
                   rsp := s.rsp ++ List.replicate (k.length + 1) 0x00000000#32 } ∧
      (u.cur = s.root →
        ∃ b, u.decOut = s.decOut ++ b ∧ decodeResults none (trace (wordsOf (decodeMacro (charsOf k))) s) = [.ok b]) ∧
      (u.cur ≠ s.root → decodeResults none (trace (wordsOf (decodeMacro (charsOf k))) s) = [.err 5#4])

/-- `40_environment_reference.md` R114: round trip. For every non-empty `b` and every Huffman tree of it whose height
is at most MAXH, from a state consistently loaded for the tree with both engines IDLE, `ENCODE(b)` has result
`Ok(E)` and `DECODE(E)` has result `Ok(b)`. -/
def Obligations.RoundTripAfterConsistentLoad : Prop :=
  ∀ (s : State) (b : List Sym) (t : Tree), b ≠ [] → IsHuffmanTree (freqTable b) t →
    t.height ≤ s.cfg.maxh.toNat → s.ConsistentlyLoaded t → s.encSt = .idle → s.decSt = .idle →
    let e := charsOf (encodedStream (codes t) b)
    ∃ u v, runInstrs (encodeMacro b) s = .next u ∧
      encodeResults none (trace (wordsOf (encodeMacro b)) s) = [.ok e] ∧
      runInstrs (decodeMacro e) u = .next v ∧
      decodeResults none (trace (wordsOf (decodeMacro e)) u) = [.ok b]

/-- The headline: from every state with both engines IDLE, whatever was loaded before, the words of LOAD_TABLE,
LOAD_TREE, ENCODE and DECODE give the input back, with every response OK (`40_environment_reference.md` R109 to R111,
R114, R117, R118). -/
def Obligations.LoadEncodeDecodeRoundTrip : Prop :=
  ∀ (s : State) (b : List Sym) (t : Tree), b ≠ [] → IsHuffmanTree (freqTable b) t →
    s.cfg.Legal → t.height ≤ s.cfg.maxh.toNat → s.encSt = .idle → s.decSt = .idle →
    let e := charsOf (encodedStream (codes t) b)
    let ws := wordsOf (loadTable (codes t) ++ loadTree t ++ encodeMacro b ++ decodeMacro e)
    ∃ v, runWords ws s = .next v ∧ v.encOut = s.encOut ++ e ∧ v.decOut = s.decOut ++ b ∧
      v.rsp = s.rsp ++ List.replicate ws.length 0x00000000#32 ∧ v.runComplete = true

/-! ## The environment's objects -/

/-- `40_environment_reference.md` R92: the frequency table has one entry for each symbol present, with its count, in
ascending order of symbol. -/
def Obligations.FrequencyTableCounts : Prop :=
  ∀ b : List Sym,
    (∀ x n, (x, n) ∈ freqTable b ↔ n = b.count x ∧ 1 ≤ n) ∧
    (freqTable b).Pairwise (fun p q => p.1.toNat < q.1.toNat)

/-- `40_environment_reference.md` R95: the shape facts of a tree with `n` leaves. -/
def Obligations.TreeShapeFacts : Prop :=
  ∀ t : Tree,
    t.nodeCount = 2 * t.symbols.length - 1 ∧ t.nodeCount - t.symbols.length = t.symbols.length - 1 ∧
    t.height ≤ t.symbols.length - 1 ∧
    (2 ≤ t.symbols.length → 1 ≤ t.height) ∧
    (t.symbols.length ≤ 256 → t.nodeCount ≤ 511 ∧ t.height ≤ 255)

/-- `40_environment_reference.md` R94, R101, R102: every Huffman tree of `b` has exactly the symbols of `b` as its
leaves, each once, its weights add up and to the length of `b`, and the left child is never the heavier. -/
def Obligations.HuffmanTreeFacts : Prop :=
  ∀ (b : List Sym) (t : Tree), IsHuffmanTree (freqTable b) t →
    (∀ x, x ∈ t.symbols ↔ x ∈ b) ∧ t.symbols.Nodup ∧ t.WeightsAdd ∧ t.LighterLeft ∧ t.weight = b.length

/-- `40_environment_reference.md` R102, R104: every non-empty input has a Huffman tree, and the empty one has
none. -/
def Obligations.HuffmanTreeExists : Prop :=
  ∀ b : List Sym, (∃ t, IsHuffmanTree (freqTable b) t) ↔ b ≠ []

/-- `40_environment_reference.md` R100, R102: the runs of the builder over the heap give exactly the Huffman trees.
Every run, with any tie-break, gives one, and from every heap the build may give, each of them is given by some run. -/
def Obligations.BuilderRunsGiveHuffmanTrees : Prop :=
  ∀ (f : List FreqEntry) (h : Heap) (t : Tree), f ≠ [] → HeapBuild f h → (BuilderRun h t ↔ IsHuffmanTree f t)

/-- `40_environment_reference.md` R96, R98, R99, R101, R119: the builder always finishes. A heap can be built, every
heap the build may give has a run, and an insertion after two extractions never exceeds the capacity and restores the
heap invariant. Index 0 of a heap is one of the nodes an extraction may return (R99). -/
def Obligations.BuilderAlwaysFinishes : Prop :=
  (∀ f : List FreqEntry, ∃ h, HeapBuild f h) ∧
  (∀ (f : List FreqEntry) (h : Heap), f ≠ [] → HeapBuild f h → ∃ t, BuilderRun h t) ∧
  (∀ (h h₁ h₂ : Heap) (x y : Tree), h.nodes.length ≤ h.cap → HeapExtractMin h x h₁ → HeapExtractMin h₁ y h₂ →
    ∃ h₃, h₂.insert (mergeNode x y) = .ok h₃ ∧ h₃.nodes.Perm (mergeNode x y :: h₂.nodes) ∧
      h₃.nodes.length + 1 = h.nodes.length ∧ h₃.cap = h.cap ∧ IsMinHeap h₃.nodes) ∧
  ∀ (h h₁ : Heap) (x : Tree) (others : List Tree), IsMinHeap h.nodes → h.nodes = x :: others →
    h₁.nodes.Perm others → IsMinHeap h₁.nodes → h₁.cap = h.cap → HeapExtractMin h x h₁

/-- `40_environment_reference.md` R107: derivation fails exactly for a tree higher than the limit; otherwise every
code has a length CT_WRITE accepts; with 255 it never fails for a tree whose leaves carry distinct symbols. -/
def Obligations.DerivationUnderHeightLimit : Prop :=
  ∀ (maxh : Nat) (t : Tree), 1 ≤ maxh → t.symbols.Nodup →
    (maxh < t.height → deriveCodes maxh t = .error .heightExceeded) ∧
    (t.height ≤ maxh → deriveCodes maxh t = .ok (codes t) ∧
      ∀ x k, (codes t).code? x = some k → 1 ≤ k.length ∧ k.length ≤ maxh) ∧
    deriveCodes 255 t = .ok (codes t)

/-- `40_environment_reference.md` R108: the invariants of a derived code table: its domain, its lengths, that it is
prefix-free, and that following a code from the root first meets a leaf at the code's end. -/
def Obligations.DerivedCodeTableFacts : Prop :=
  ∀ t : Tree, t.symbols.Nodup →
    (∀ x, ((codes t).code? x).isSome = true ↔ x ∈ t.symbols) ∧
    (∀ x k, (codes t).code? x = some k → 1 ≤ k.length ∧ k.length ≤ max 1 t.height) ∧
    (codes t).PrefixFree ∧
    (1 ≤ t.height → ∀ x k, (codes t).code? x = some k →
      (∃ w, t.follow k = some (.leaf x w)) ∧
      ∀ k₁ k₂, k = k₁ ++ k₂ → k₂ ≠ [] → ∀ y w, t.follow k₁ ≠ some (.leaf y w))

/-- `40_environment_reference.md` R116: optimality. For at least two symbols, the codes of every Huffman tree are a
prefix-free table that covers the distribution, and no prefix-free table that covers it costs less; for one symbol the
cost is the count times 1; the stream `ENCODE(b)` emits has `Σ freq(s) × len(code(s))` elements. -/
def Obligations.HuffmanCostIsOptimal : Prop :=
  (∀ (f : List FreqEntry) (t : Tree), (f.map Prod.fst).Nodup → 2 ≤ f.length → IsHuffmanTree f t →
    (codes t).PrefixFree ∧ (∀ e ∈ f, ((codes t).code? e.1).isSome = true) ∧ (codes t).Optimal f) ∧
  (∀ (x : Sym) (n : Nat) (t : Tree), IsHuffmanTree [(x, n)] t → tableCost [(x, n)] (codes t) = n * 1) ∧
  ∀ (b : List Sym) (t : Tree) (s : State), IsHuffmanTree (freqTable b) t → s.encSt = .idle →
    s.TableLoaded (codes t) →
    ∃ u e, runInstrs (encodeMacro b) s = .next u ∧ u.encOut = s.encOut ++ e ∧
      e.length = tableCost (freqTable b) (codes t)
end

