-- ==== Sys2Proof/Laws/State.lean ====
section
/-! SUPPORT. One lemma per field per update of the state: what each primitive of `Machine/Ops.lean` leaves in each
field. No later proof unfolds a record update. -/

namespace Sys2Proof.Machine

variable (s : State)

/-! ## respond -/

@[simp] theorem State.respond_encSt (code : Status) (info : Info) : (s.respond code info).encSt = s.encSt := rfl
@[simp] theorem State.respond_encErr (code : Status) (info : Info) : (s.respond code info).encErr = s.encErr := rfl
@[simp] theorem State.respond_decSt (code : Status) (info : Info) : (s.respond code info).decSt = s.decSt := rfl
@[simp] theorem State.respond_decErr (code : Status) (info : Info) : (s.respond code info).decErr = s.decErr := rfl
@[simp] theorem State.respond_cur (code : Status) (info : Info) : (s.respond code info).cur = s.cur := rfl
@[simp] theorem State.respond_root (code : Status) (info : Info) : (s.respond code info).root = s.root := rfl
@[simp] theorem State.respond_rootV (code : Status) (info : Info) : (s.respond code info).rootV = s.rootV := rfl
@[simp] theorem State.respond_ct (code : Status) (info : Info) : (s.respond code info).ct = s.ct := rfl
@[simp] theorem State.respond_tm (code : Status) (info : Info) : (s.respond code info).tm = s.tm := rfl
@[simp] theorem State.respond_cmd (code : Status) (info : Info) : (s.respond code info).cmd = s.cmd := rfl
@[simp] theorem State.respond_rsp (code : Status) (info : Info) : (s.respond code info).rsp = s.rsp ++ [rspWord code info] := rfl
@[simp] theorem State.respond_encOut (code : Status) (info : Info) : (s.respond code info).encOut = s.encOut := rfl
@[simp] theorem State.respond_decOut (code : Status) (info : Info) : (s.respond code info).decOut = s.decOut := rfl
@[simp] theorem State.respond_cfg (code : Status) (info : Info) : (s.respond code info).cfg = s.cfg := rfl

/-! ## ctWrite -/

@[simp] theorem State.ctWrite_encSt (sym : Sym) (e : CtEntry) : (s.ctWrite sym e).encSt = s.encSt := rfl
@[simp] theorem State.ctWrite_encErr (sym : Sym) (e : CtEntry) : (s.ctWrite sym e).encErr = s.encErr := rfl
@[simp] theorem State.ctWrite_decSt (sym : Sym) (e : CtEntry) : (s.ctWrite sym e).decSt = s.decSt := rfl
@[simp] theorem State.ctWrite_decErr (sym : Sym) (e : CtEntry) : (s.ctWrite sym e).decErr = s.decErr := rfl
@[simp] theorem State.ctWrite_cur (sym : Sym) (e : CtEntry) : (s.ctWrite sym e).cur = s.cur := rfl
@[simp] theorem State.ctWrite_root (sym : Sym) (e : CtEntry) : (s.ctWrite sym e).root = s.root := rfl
@[simp] theorem State.ctWrite_rootV (sym : Sym) (e : CtEntry) : (s.ctWrite sym e).rootV = s.rootV := rfl
@[simp] theorem State.ctWrite_ct (sym : Sym) (e : CtEntry) : (s.ctWrite sym e).ct = s.ct.write sym.toNat e := rfl
@[simp] theorem State.ctWrite_tm (sym : Sym) (e : CtEntry) : (s.ctWrite sym e).tm = s.tm := rfl
@[simp] theorem State.ctWrite_cmd (sym : Sym) (e : CtEntry) : (s.ctWrite sym e).cmd = s.cmd := rfl
@[simp] theorem State.ctWrite_rsp (sym : Sym) (e : CtEntry) : (s.ctWrite sym e).rsp = s.rsp := rfl
@[simp] theorem State.ctWrite_encOut (sym : Sym) (e : CtEntry) : (s.ctWrite sym e).encOut = s.encOut := rfl
@[simp] theorem State.ctWrite_decOut (sym : Sym) (e : CtEntry) : (s.ctWrite sym e).decOut = s.decOut := rfl
@[simp] theorem State.ctWrite_cfg (sym : Sym) (e : CtEntry) : (s.ctWrite sym e).cfg = s.cfg := rfl

/-! ## ctClearAll -/

@[simp] theorem State.ctClearAll_encSt : (s.ctClearAll).encSt = s.encSt := rfl
@[simp] theorem State.ctClearAll_encErr : (s.ctClearAll).encErr = s.encErr := rfl
@[simp] theorem State.ctClearAll_decSt : (s.ctClearAll).decSt = s.decSt := rfl
@[simp] theorem State.ctClearAll_decErr : (s.ctClearAll).decErr = s.decErr := rfl
@[simp] theorem State.ctClearAll_cur : (s.ctClearAll).cur = s.cur := rfl
@[simp] theorem State.ctClearAll_root : (s.ctClearAll).root = s.root := rfl
@[simp] theorem State.ctClearAll_rootV : (s.ctClearAll).rootV = s.rootV := rfl
@[simp] theorem State.ctClearAll_ct : (s.ctClearAll).ct = [] := rfl
@[simp] theorem State.ctClearAll_tm : (s.ctClearAll).tm = s.tm := rfl
@[simp] theorem State.ctClearAll_cmd : (s.ctClearAll).cmd = s.cmd := rfl
@[simp] theorem State.ctClearAll_rsp : (s.ctClearAll).rsp = s.rsp := rfl
@[simp] theorem State.ctClearAll_encOut : (s.ctClearAll).encOut = s.encOut := rfl
@[simp] theorem State.ctClearAll_decOut : (s.ctClearAll).decOut = s.decOut := rfl
@[simp] theorem State.ctClearAll_cfg : (s.ctClearAll).cfg = s.cfg := rfl

/-! ## tmWrite -/

@[simp] theorem State.tmWrite_encSt (i : Idx) (n : TmNode) : (s.tmWrite i n).encSt = s.encSt := rfl
@[simp] theorem State.tmWrite_encErr (i : Idx) (n : TmNode) : (s.tmWrite i n).encErr = s.encErr := rfl
@[simp] theorem State.tmWrite_decSt (i : Idx) (n : TmNode) : (s.tmWrite i n).decSt = s.decSt := rfl
@[simp] theorem State.tmWrite_decErr (i : Idx) (n : TmNode) : (s.tmWrite i n).decErr = s.decErr := rfl
@[simp] theorem State.tmWrite_cur (i : Idx) (n : TmNode) : (s.tmWrite i n).cur = s.cur := rfl
@[simp] theorem State.tmWrite_root (i : Idx) (n : TmNode) : (s.tmWrite i n).root = s.root := rfl
@[simp] theorem State.tmWrite_rootV (i : Idx) (n : TmNode) : (s.tmWrite i n).rootV = s.rootV := rfl
@[simp] theorem State.tmWrite_ct (i : Idx) (n : TmNode) : (s.tmWrite i n).ct = s.ct := rfl
@[simp] theorem State.tmWrite_tm (i : Idx) (n : TmNode) : (s.tmWrite i n).tm = s.tm.write i.toNat n := rfl
@[simp] theorem State.tmWrite_cmd (i : Idx) (n : TmNode) : (s.tmWrite i n).cmd = s.cmd := rfl
@[simp] theorem State.tmWrite_rsp (i : Idx) (n : TmNode) : (s.tmWrite i n).rsp = s.rsp := rfl
@[simp] theorem State.tmWrite_encOut (i : Idx) (n : TmNode) : (s.tmWrite i n).encOut = s.encOut := rfl
@[simp] theorem State.tmWrite_decOut (i : Idx) (n : TmNode) : (s.tmWrite i n).decOut = s.decOut := rfl
@[simp] theorem State.tmWrite_cfg (i : Idx) (n : TmNode) : (s.tmWrite i n).cfg = s.cfg := rfl

/-! ## tmClearAll -/

@[simp] theorem State.tmClearAll_encSt : (s.tmClearAll).encSt = s.encSt := rfl
@[simp] theorem State.tmClearAll_encErr : (s.tmClearAll).encErr = s.encErr := rfl
@[simp] theorem State.tmClearAll_decSt : (s.tmClearAll).decSt = s.decSt := rfl
@[simp] theorem State.tmClearAll_decErr : (s.tmClearAll).decErr = s.decErr := rfl
@[simp] theorem State.tmClearAll_cur : (s.tmClearAll).cur = s.cur := rfl
@[simp] theorem State.tmClearAll_root : (s.tmClearAll).root = s.root := rfl
@[simp] theorem State.tmClearAll_rootV : (s.tmClearAll).rootV = s.rootV := rfl
@[simp] theorem State.tmClearAll_ct : (s.tmClearAll).ct = s.ct := rfl
@[simp] theorem State.tmClearAll_tm : (s.tmClearAll).tm = [] := rfl
@[simp] theorem State.tmClearAll_cmd : (s.tmClearAll).cmd = s.cmd := rfl
@[simp] theorem State.tmClearAll_rsp : (s.tmClearAll).rsp = s.rsp := rfl
@[simp] theorem State.tmClearAll_encOut : (s.tmClearAll).encOut = s.encOut := rfl
@[simp] theorem State.tmClearAll_decOut : (s.tmClearAll).decOut = s.decOut := rfl
@[simp] theorem State.tmClearAll_cfg : (s.tmClearAll).cfg = s.cfg := rfl

/-! ## setRoot -/

@[simp] theorem State.setRoot_encSt (i : Idx) (v : Bool) : (s.setRoot i v).encSt = s.encSt := rfl
@[simp] theorem State.setRoot_encErr (i : Idx) (v : Bool) : (s.setRoot i v).encErr = s.encErr := rfl
@[simp] theorem State.setRoot_decSt (i : Idx) (v : Bool) : (s.setRoot i v).decSt = s.decSt := rfl
@[simp] theorem State.setRoot_decErr (i : Idx) (v : Bool) : (s.setRoot i v).decErr = s.decErr := rfl
@[simp] theorem State.setRoot_cur (i : Idx) (v : Bool) : (s.setRoot i v).cur = s.cur := rfl
@[simp] theorem State.setRoot_root (i : Idx) (v : Bool) : (s.setRoot i v).root = i := rfl
@[simp] theorem State.setRoot_rootV (i : Idx) (v : Bool) : (s.setRoot i v).rootV = v := rfl
@[simp] theorem State.setRoot_ct (i : Idx) (v : Bool) : (s.setRoot i v).ct = s.ct := rfl
@[simp] theorem State.setRoot_tm (i : Idx) (v : Bool) : (s.setRoot i v).tm = s.tm := rfl
@[simp] theorem State.setRoot_cmd (i : Idx) (v : Bool) : (s.setRoot i v).cmd = s.cmd := rfl
@[simp] theorem State.setRoot_rsp (i : Idx) (v : Bool) : (s.setRoot i v).rsp = s.rsp := rfl
@[simp] theorem State.setRoot_encOut (i : Idx) (v : Bool) : (s.setRoot i v).encOut = s.encOut := rfl
@[simp] theorem State.setRoot_decOut (i : Idx) (v : Bool) : (s.setRoot i v).decOut = s.decOut := rfl
@[simp] theorem State.setRoot_cfg (i : Idx) (v : Bool) : (s.setRoot i v).cfg = s.cfg := rfl

/-! ## setCur -/

@[simp] theorem State.setCur_encSt (i : Idx) : (s.setCur i).encSt = s.encSt := rfl
@[simp] theorem State.setCur_encErr (i : Idx) : (s.setCur i).encErr = s.encErr := rfl
@[simp] theorem State.setCur_decSt (i : Idx) : (s.setCur i).decSt = s.decSt := rfl
@[simp] theorem State.setCur_decErr (i : Idx) : (s.setCur i).decErr = s.decErr := rfl
@[simp] theorem State.setCur_cur (i : Idx) : (s.setCur i).cur = i := rfl
@[simp] theorem State.setCur_root (i : Idx) : (s.setCur i).root = s.root := rfl
@[simp] theorem State.setCur_rootV (i : Idx) : (s.setCur i).rootV = s.rootV := rfl
@[simp] theorem State.setCur_ct (i : Idx) : (s.setCur i).ct = s.ct := rfl
@[simp] theorem State.setCur_tm (i : Idx) : (s.setCur i).tm = s.tm := rfl
@[simp] theorem State.setCur_cmd (i : Idx) : (s.setCur i).cmd = s.cmd := rfl
@[simp] theorem State.setCur_rsp (i : Idx) : (s.setCur i).rsp = s.rsp := rfl
@[simp] theorem State.setCur_encOut (i : Idx) : (s.setCur i).encOut = s.encOut := rfl
@[simp] theorem State.setCur_decOut (i : Idx) : (s.setCur i).decOut = s.decOut := rfl
@[simp] theorem State.setCur_cfg (i : Idx) : (s.setCur i).cfg = s.cfg := rfl

/-! ## emitEnc -/

@[simp] theorem State.emitEnc_encSt (cs : List EncChar) : (s.emitEnc cs).encSt = s.encSt := rfl
@[simp] theorem State.emitEnc_encErr (cs : List EncChar) : (s.emitEnc cs).encErr = s.encErr := rfl
@[simp] theorem State.emitEnc_decSt (cs : List EncChar) : (s.emitEnc cs).decSt = s.decSt := rfl
@[simp] theorem State.emitEnc_decErr (cs : List EncChar) : (s.emitEnc cs).decErr = s.decErr := rfl
@[simp] theorem State.emitEnc_cur (cs : List EncChar) : (s.emitEnc cs).cur = s.cur := rfl
@[simp] theorem State.emitEnc_root (cs : List EncChar) : (s.emitEnc cs).root = s.root := rfl
@[simp] theorem State.emitEnc_rootV (cs : List EncChar) : (s.emitEnc cs).rootV = s.rootV := rfl
@[simp] theorem State.emitEnc_ct (cs : List EncChar) : (s.emitEnc cs).ct = s.ct := rfl
@[simp] theorem State.emitEnc_tm (cs : List EncChar) : (s.emitEnc cs).tm = s.tm := rfl
@[simp] theorem State.emitEnc_cmd (cs : List EncChar) : (s.emitEnc cs).cmd = s.cmd := rfl
@[simp] theorem State.emitEnc_rsp (cs : List EncChar) : (s.emitEnc cs).rsp = s.rsp := rfl
@[simp] theorem State.emitEnc_encOut (cs : List EncChar) : (s.emitEnc cs).encOut = s.encOut ++ cs := rfl
@[simp] theorem State.emitEnc_decOut (cs : List EncChar) : (s.emitEnc cs).decOut = s.decOut := rfl
@[simp] theorem State.emitEnc_cfg (cs : List EncChar) : (s.emitEnc cs).cfg = s.cfg := rfl

/-! ## emitDec -/

@[simp] theorem State.emitDec_encSt (b : Sym) : (s.emitDec b).encSt = s.encSt := rfl
@[simp] theorem State.emitDec_encErr (b : Sym) : (s.emitDec b).encErr = s.encErr := rfl
@[simp] theorem State.emitDec_decSt (b : Sym) : (s.emitDec b).decSt = s.decSt := rfl
@[simp] theorem State.emitDec_decErr (b : Sym) : (s.emitDec b).decErr = s.decErr := rfl
@[simp] theorem State.emitDec_cur (b : Sym) : (s.emitDec b).cur = s.cur := rfl
@[simp] theorem State.emitDec_root (b : Sym) : (s.emitDec b).root = s.root := rfl
@[simp] theorem State.emitDec_rootV (b : Sym) : (s.emitDec b).rootV = s.rootV := rfl
@[simp] theorem State.emitDec_ct (b : Sym) : (s.emitDec b).ct = s.ct := rfl
@[simp] theorem State.emitDec_tm (b : Sym) : (s.emitDec b).tm = s.tm := rfl
@[simp] theorem State.emitDec_cmd (b : Sym) : (s.emitDec b).cmd = s.cmd := rfl
@[simp] theorem State.emitDec_rsp (b : Sym) : (s.emitDec b).rsp = s.rsp := rfl
@[simp] theorem State.emitDec_encOut (b : Sym) : (s.emitDec b).encOut = s.encOut := rfl
@[simp] theorem State.emitDec_decOut (b : Sym) : (s.emitDec b).decOut = s.decOut ++ [b] := rfl
@[simp] theorem State.emitDec_cfg (b : Sym) : (s.emitDec b).cfg = s.cfg := rfl

/-! ## Reads after an update -/

@[simp] theorem State.ctRead_respond (sym : Sym) (code : Status) (info : Info) :
    (s.respond code info).ctRead sym = s.ctRead sym := rfl
@[simp] theorem State.tmRead_respond (i : Idx) (code : Status) (info : Info) :
    (s.respond code info).tmRead i = s.tmRead i := rfl
@[simp] theorem State.ctRead_ctClearAll (sym : Sym) : s.ctClearAll.ctRead sym = none := rfl
@[simp] theorem State.tmRead_tmClearAll (i : Idx) : s.tmClearAll.tmRead i = none := rfl
@[simp] theorem State.tmRead_setRoot (i j : Idx) (v : Bool) : (s.setRoot i v).tmRead j = s.tmRead j := rfl
@[simp] theorem State.tmRead_setCur (i j : Idx) : (s.setCur i).tmRead j = s.tmRead j := rfl
@[simp] theorem State.tmRead_emitDec (b : Sym) (i : Idx) : (s.emitDec b).tmRead i = s.tmRead i := rfl
@[simp] theorem State.ctRead_emitEnc (cs : List EncChar) (sym : Sym) : (s.emitEnc cs).ctRead sym = s.ctRead sym := rfl

end Sys2Proof.Machine
end

