-- ==== Sys2Proof/Laws/Memory.lean ====
section
/-! SUPPORT. The laws of the entry-addressed memories: a read after a write, the canonical form, and that memories
in canonical form with equal reads are equal. -/

namespace Sys2Proof.Machine

variable {α : Type}

@[simp] theorem Memory.read_nil (a : Nat) : Memory.read ([] : Memory α) a = none := rfl

theorem Memory.read_cons (b : Nat) (e : α) (m : Memory α) (a : Nat) :
    Memory.read ((b, e) :: m) a = if a = b then some e else Memory.read m a := rfl

/-- A read after a write: the address written gives the new entry, every other address what it gave before. -/
theorem Memory.read_write (m : Memory α) (a b : Nat) (e : α) :
    Memory.read (Memory.write m a e) b = if b = a then some e else Memory.read m b := by
  induction m with
  | nil => simp [Memory.write, Memory.read]
  | cons c m ih =>
    obtain ⟨k, x⟩ := c
    simp only [Memory.write]
    split_ifs <;> simp only [Memory.read_cons, ih] <;> split_ifs <;> simp_all

theorem Memory.mem_write {m : Memory α} {a : Nat} {e : α} {c : Nat × α} (h : c ∈ Memory.write m a e) :
    c = (a, e) ∨ c ∈ m := by
  induction m with
  | nil => simpa [Memory.write] using h
  | cons d m ih =>
    obtain ⟨k, x⟩ := d
    simp only [Memory.write] at h
    split_ifs at h <;> simp only [List.mem_cons] at h ⊢ <;> tauto

/-- A write keeps the canonical form. -/
theorem Memory.wf_write {size : Nat} {m : Memory α} {a : Nat} (e : α) (h : Memory.wf size m) (ha : a < size) :
    Memory.wf size (Memory.write m a e) := by
  refine ⟨?_, fun c hc => ?_⟩
  · have hp := h.1
    clear h
    induction m with
    | nil => simp [Memory.write]
    | cons d m ih =>
      obtain ⟨k, x⟩ := d
      rw [List.pairwise_cons] at hp
      simp only [Memory.write]
      split_ifs with h1 h2
      · exact List.pairwise_cons.2 ⟨fun c hc => by
          rcases List.mem_cons.1 hc with rfl | hc
          · exact h1
          · exact h1.trans (hp.1 c hc), List.pairwise_cons.2 hp⟩
      · exact List.pairwise_cons.2 ⟨fun c hc => by have := hp.1 c hc; simp only at this ⊢; omega, hp.2⟩
      · refine List.pairwise_cons.2 ⟨fun c hc => ?_, ih hp.2⟩
        rcases Memory.mem_write hc with rfl | hc
        · simp only; omega
        · exact hp.1 c hc
  · rcases Memory.mem_write hc with rfl | hc
    · exact ha
    · exact h.2 c hc

@[simp] theorem Memory.wf_nil (size : Nat) : Memory.wf size ([] : Memory α) := by simp [Memory.wf]

/-- The entry at the head of a memory in canonical form is not listed again. -/
theorem Memory.read_eq_none_of_lt {m : Memory α} {a : Nat} (h : ∀ c ∈ m, a < c.1) : Memory.read m a = none := by
  induction m with
  | nil => rfl
  | cons d m ih =>
    obtain ⟨k, x⟩ := d
    have := h (k, x) (by simp)
    rw [Memory.read_cons, if_neg (by simp only at this; omega)]
    exact ih fun c hc => h c (by simp [hc])

/-- Equal reads mean equal memories, in canonical form. -/
theorem Memory.ext_of_read {size : Nat} {m n : Memory α} (hm : Memory.wf size m) (hn : Memory.wf size n)
    (h : ∀ a, Memory.read m a = Memory.read n a) : m = n := by
  obtain ⟨hm, -⟩ := hm
  obtain ⟨hn, -⟩ := hn
  induction m generalizing n with
  | nil =>
    cases n with
    | nil => rfl
    | cons d n => obtain ⟨k, x⟩ := d; simpa [Memory.read_cons] using h k
  | cons c m ih =>
    obtain ⟨i, x⟩ := c
    cases n with
    | nil => simpa [Memory.read_cons] using h i
    | cons d n =>
      obtain ⟨j, y⟩ := d
      rw [List.pairwise_cons] at hm hn
      have hij : i = j := by
        have h1 := h i
        have h2 := h j
        simp only [Memory.read_cons] at h1 h2
        rcases lt_trichotomy i j with hlt | heq | hgt
        · rw [if_neg hlt.ne, Memory.read_eq_none_of_lt fun c hc => hlt.trans (hn.1 c hc)] at h1
          simp at h1
        · exact heq
        · rw [if_neg hgt.ne, Memory.read_eq_none_of_lt fun c hc => hgt.trans (hm.1 c hc)] at h2
          simp at h2
      subst hij
      have hxy : x = y := by simpa [Memory.read_cons] using h i
      subst hxy
      refine congrArg _ (ih (fun a => ?_) hm.2 hn.2)
      have ha := h a
      simp only [Memory.read_cons] at ha
      by_cases hai : a = i
      · subst hai
        rw [Memory.read_eq_none_of_lt hm.1, Memory.read_eq_none_of_lt hn.1]
      · simpa [hai] using ha

theorem State.ctRead_ctWrite (s : State) (x y : Sym) (e : CtEntry) :
    (s.ctWrite x e).ctRead y = if y = x then some e else s.ctRead y := by
  simp only [State.ctRead, State.ctWrite, Memory.read_write, BitVec.toNat_inj]

theorem State.tmRead_tmWrite (s : State) (i j : Idx) (n : TmNode) :
    (s.tmWrite i n).tmRead j = if j = i then some n else s.tmRead j := by
  simp only [State.tmRead, State.tmWrite, Memory.read_write, BitVec.toNat_inj]

end Sys2Proof.Machine
end

