-- ==== Sys2Proof/Laws/Word.lean ====
section
/-! SUPPORT. The laws of the command word: its fields, the opcode map, the checks of the decoder. -/

namespace Sys2Proof

/-! ## Fields of a packed word (R70) -/

@[simp] theorem fieldOp_packWord (o : Opcode) (a : BitVec 8) (b : BitVec 9) (c : CodeBits) :
    fieldOp (packWord o a b c) = o.bits := by
  apply BitVec.eq_of_getLsbD_eq
  intro i hi
  simp only [fieldOp, packWord, BitVec.getLsbD_extractLsb', BitVec.getLsbD_append]
  grind

@[simp] theorem fieldA_packWord (o : Opcode) (a : BitVec 8) (b : BitVec 9) (c : CodeBits) :
    fieldA (packWord o a b c) = a := by
  apply BitVec.eq_of_getLsbD_eq
  intro i hi
  simp only [fieldA, packWord, BitVec.getLsbD_extractLsb', BitVec.getLsbD_append]
  grind

@[simp] theorem fieldB_packWord (o : Opcode) (a : BitVec 8) (b : BitVec 9) (c : CodeBits) :
    fieldB (packWord o a b c) = b := by
  apply BitVec.eq_of_getLsbD_eq
  intro i hi
  simp only [fieldB, packWord, BitVec.getLsbD_extractLsb', BitVec.getLsbD_append]
  grind

@[simp] theorem fieldC_packWord (o : Opcode) (a : BitVec 8) (b : BitVec 9) (c : CodeBits) :
    fieldC (packWord o a b c) = c := by
  apply BitVec.eq_of_getLsbD_eq
  intro i hi
  simp only [fieldC, packWord, BitVec.getLsbD_extractLsb', BitVec.getLsbD_append]
  grind

@[simp] theorem fieldOp_packReserved (o : Opcode) (r : BitVec 272) : fieldOp (packReserved o r) = o.bits := by
  apply BitVec.eq_of_getLsbD_eq
  intro i hi
  simp only [fieldOp, packReserved, BitVec.getLsbD_extractLsb', BitVec.getLsbD_append]
  grind

@[simp] theorem fieldRest_packReserved (o : Opcode) (r : BitVec 272) : fieldRest (packReserved o r) = r := by
  apply BitVec.eq_of_getLsbD_eq
  intro i hi
  simp only [fieldRest, packReserved, BitVec.getLsbD_extractLsb', BitVec.getLsbD_append]
  grind

/-! ## The opcode map (R74) -/

@[simp] theorem Opcode.ofBits_bits (o : Opcode) : Opcode.ofBits o.bits = o := by
  cases o <;> rfl

@[simp] theorem Opcode.bits_ofBits (b : BitVec 4) : (Opcode.ofBits b).bits = b := by
  revert b; decide

/-- A word is put together again from its four fields. -/
theorem packWord_fields (w : CmdWord) :
    packWord (Opcode.ofBits (fieldOp w)) (fieldA w) (fieldB w) (fieldC w) = w := by
  apply BitVec.eq_of_getLsbD_eq
  intro i hi
  simp only [packWord, Opcode.bits_ofBits, fieldOp, fieldA, fieldB, fieldC, BitVec.getLsbD_extractLsb',
    BitVec.getLsbD_append]
  grind

/-- A word is put together again from OP and the rest. -/
theorem packReserved_fields (w : CmdWord) :
    packReserved (Opcode.ofBits (fieldOp w)) (fieldRest w) = w := by
  apply BitVec.eq_of_getLsbD_eq
  intro i hi
  simp only [packReserved, Opcode.bits_ofBits, fieldOp, fieldRest, BitVec.getLsbD_extractLsb',
    BitVec.getLsbD_append]
  grind

/-- Field C of TR_NODE holds the left child in its low 9 bits (R71). -/
@[simp] theorem packChildren_left (l r : Idx) : (packChildren l r).extractLsb' 0 9 = l := by
  apply BitVec.eq_of_getLsbD_eq
  intro i hi
  simp only [packChildren, BitVec.getLsbD_extractLsb', BitVec.getLsbD_append]
  grind

/-- Field C of TR_NODE holds the right child in bits 17:9 (R71). -/
@[simp] theorem packChildren_right (l r : Idx) : (packChildren l r).extractLsb' 9 9 = r := by
  apply BitVec.eq_of_getLsbD_eq
  intro i hi
  simp only [packChildren, BitVec.getLsbD_extractLsb', BitVec.getLsbD_append]
  grind

@[simp] theorem packChildren_high (l r : Idx) : (packChildren l r).extractLsb' 18 237 = 0#237 := by
  apply BitVec.eq_of_getLsbD_eq
  intro i hi
  simp only [packChildren, BitVec.getLsbD_extractLsb', BitVec.getLsbD_append, BitVec.getLsbD_zero]
  grind

/-- Field C with zero high bits is put together again from the two children. -/
theorem packChildren_extract (c : CodeBits) (h : c.extractLsb' 18 237 = 0#237) :
    packChildren (c.extractLsb' 0 9) (c.extractLsb' 9 9) = c := by
  rw [packChildren, ← h]
  apply BitVec.eq_of_getLsbD_eq
  intro i hi
  simp only [BitVec.getLsbD_extractLsb', BitVec.getLsbD_append]
  grind

/-! ## The checks (R73, R74, R81) -/

/-- `checked` gives the command exactly when no check is bad. -/
theorem checked_eq_command {checks : List (Bool × Illegal)} {i j : Instr} :
    checked checks i = .command j ↔ j = i ∧ ∀ c ∈ checks, c.1 = false := by
  induction checks with
  | nil => exact ⟨fun h => ⟨(Decoded.command.inj h).symm, by simp⟩, fun h => h.1 ▸ rfl⟩
  | cons c more ih =>
    obtain ⟨bad, why⟩ := c
    cases bad <;> simp [checked, ih]

/-- `checked` answers the command or `illegal`, nothing else. -/
theorem checked_cases (checks : List (Bool × Illegal)) (i : Instr) :
    checked checks i = .command i ∨ ∃ why, checked checks i = .illegal why := by
  induction checks with
  | nil => exact .inl rfl
  | cons c more ih =>
    obtain ⟨bad, why⟩ := c
    cases bad
    · simpa [checked] using ih
    · exact .inr ⟨why, rfl⟩

/-- The shifted code field is zero exactly when no bit at or above `len` is set (R73). -/
theorem codeAboveLen_eq_false {len : BitVec 9} {code : CodeBits} :
    codeAboveLen len code = false ↔ ∀ i, len.toNat ≤ i → code.getLsbD i = false := by
  rw [codeAboveLen, decide_eq_false_iff_not, not_not]
  constructor
  · intro h i hi
    have := congrArg (fun v : CodeBits => v.getLsbD (i - len.toNat)) h
    simp only [BitVec.getLsbD_ushiftRight, BitVec.getLsbD_zero] at this
    rwa [Nat.add_sub_cancel' hi] at this
  · intro h
    apply BitVec.eq_of_getLsbD_eq
    intro i _
    simp only [BitVec.getLsbD_ushiftRight, BitVec.getLsbD_zero]
    exact h (len.toNat + i) (by omega)

/-- The three checks of CT_WRITE pass exactly when its operands are legal (R74, R123). -/
theorem ctWriteChecks_pass {c : Config} {len : BitVec 9} {code : CodeBits} :
    (∀ x ∈ ctWriteChecks c len code, x.1 = false) ↔ ctWriteLegal c len code := by
  have hbits : (∀ i, len.toNat ≤ i → code.getLsbD i = false) ↔
      ∀ i : Fin 255, len.toNat ≤ i.val → code.getLsbD i = false :=
    ⟨fun h i hi => h i hi, fun h i hi => by
      by_cases hlt : i < 255
      · exact h ⟨i, hlt⟩ hi
      · exact BitVec.getLsbD_of_ge code i (by omega)⟩
  simp only [ctWriteChecks, List.mem_cons, List.not_mem_nil, or_false, forall_eq_or_imp, forall_eq,
    codeAboveLen_eq_false, decide_eq_false_iff_not, hbits, ctWriteLegal, not_lt]

/-- A[1:0] of a legal register number is the number again (R72). -/
theorem RegNo.bits_ofNumber {a : BitVec 8} (h₁ : a.extractLsb' 2 6 = 0#6) (h₂ : a.extractLsb' 0 2 ≠ 3#2) :
    (RegNo.ofNumber (a.extractLsb' 0 2)).bits = a := by
  have hlt : a.toNat < 4 := by
    have := congrArg BitVec.toNat h₁
    simp only [BitVec.extractLsb'_toNat, BitVec.toNat_ofNat] at this
    have := a.isLt
    omega
  obtain ⟨n, hn⟩ : ∃ n, n = a.toNat := ⟨_, rfl⟩
  obtain rfl : a = BitVec.ofNat 8 n := by rw [hn]; simp
  rw [← hn] at hlt
  clear hn
  interval_cases n <;> revert h₁ h₂ <;> decide

/-! ## The decoder under a known opcode -/

/-- A word packed for a row is decoded as that row. -/
@[simp] theorem ofBits_fieldOp_packWord (o : Opcode) (a : BitVec 8) (b : BitVec 9) (c : CodeBits) :
    Opcode.ofBits (fieldOp (packWord o a b c)) = o := by simp

@[simp] theorem ofBits_fieldOp_packReserved (o : Opcode) (r : BitVec 272) :
    Opcode.ofBits (fieldOp (packReserved o r)) = o := by simp

end Sys2Proof
end

