-- ==== Sys2Proof/Laws/Operands.lean ====
section
/-! SUPPORT. The laws of the operand conversions: characters, code strings, memory entries, response words. -/

namespace Sys2Proof.Machine

/-! ## Characters (R8) -/

@[simp] theorem chr_false : chr false = 0x30#8 := by decide
@[simp] theorem chr_true : chr true = 0x31#8 := by decide

theorem chr_eq_ite (b : BitSym) : chr b = if b then 0x31#8 else 0x30#8 := by cases b <;> decide

/-- `sym_of` is the inverse of `chr`. -/
@[simp] theorem symOf_chr (b : BitSym) : symOf (chr b) = some b := by cases b <;> decide

/-- `sym_of` is defined only for the two characters. -/
theorem symOf_eq_some {ch : EncChar} {b : BitSym} : symOf ch = some b ↔ ch = chr b := by
  constructor
  · intro h
    unfold symOf at h
    split_ifs at h with hch
    rcases not_and_or.1 hch with h0 | h1
    · rw [not_not] at h0; subst h0; cases b <;> simp_all
    · rw [not_not] at h1; subst h1; cases b <;> simp_all
  · rintro rfl; exact symOf_chr b

theorem symOf_eq_none {ch : EncChar} : symOf ch = none ↔ ch ≠ 0x30#8 ∧ ch ≠ 0x31#8 := by
  unfold symOf
  split_ifs with h
  · simp [h]
  · simp [h]

/-! ## Code strings (R53, R72) -/

@[simp] theorem codeNat_nil : codeNat [] = 0 := rfl
@[simp] theorem codeNat_cons (b : BitSym) (k : Code) : codeNat (b :: k) = b.toNat + 2 * codeNat k := rfl

/-- Bit `i` of the number is symbol `i`, and 0 from the length on. -/
theorem testBit_codeNat (k : Code) (i : Nat) : (codeNat k).testBit i = (k[i]?).getD false := by
  induction k generalizing i with
  | nil => simp
  | cons b k ih =>
    cases i with
    | zero => cases b <;> simp [Nat.testBit_zero, Nat.add_mod]
    | succ i =>
      have : (b.toNat + 2 * codeNat k) / 2 = codeNat k := by cases b <;> (simp; try omega)
      simp [Nat.testBit_succ, this, ih]

/-- Bit `i` of a stored code (R53): the symbol where there is one, and 0 from the length on. -/
theorem getLsbD_codeBits (k : Code) (i : Nat) :
    (codeBits k).getLsbD i = (decide (i < 255) && (k[i]?).getD false) := by
  simp [codeBits, BitVec.getLsbD_ofNat, testBit_codeNat]

/-- A stored entry gives its code string back. -/
theorem CtEntry.symbols_eq {e : CtEntry} {k : Code} (hl : e.len.toNat = k.length) (hc : e.code = codeBits k) :
    e.symbols = k := by
  have h255 : k.length ≤ 255 := by have := e.len.isLt; omega
  apply List.ext_getElem
  · simp [CtEntry.symbols, hl]
  · intro i h1 h2
    simp only [CtEntry.symbols, List.getElem_map, List.getElem_range, hc, getLsbD_codeBits]
    simp [h2, show i < 255 by omega]

/-- The command of a code of legal length is well formed (R74). -/
theorem wellFormed_ctWriteOf {c : Config} {x : Sym} {k : Code} (h1 : 1 ≤ k.length)
    (h2 : k.length ≤ c.maxh.toNat) : (ctWriteOf x k).WellFormed c := by
  have hm := c.maxh.isLt
  have hl : (BitVec.ofNat 9 k.length).toNat = k.length := by simp; omega
  refine ⟨by omega, by omega, fun i hi => ?_⟩
  rw [getLsbD_codeBits, List.getElem?_eq_none (by omega)]
  simp

/-! ## Response words (R77) -/

@[simp] theorem rspWord_code (c : Status) (info : Info) : (rspWord c info).extractLsb' 28 4 = c.bits := by
  apply BitVec.eq_of_getLsbD_eq
  intro i hi
  simp only [rspWord, BitVec.getLsbD_extractLsb', BitVec.getLsbD_append]
  grind

@[simp] theorem rspWord_info (c : Status) (info : Info) : (rspWord c info).extractLsb' 0 28 = info := by
  apply BitVec.eq_of_getLsbD_eq
  intro i hi
  simp only [rspWord, BitVec.getLsbD_extractLsb', BitVec.getLsbD_append]
  grind

theorem Status.bits_inj {c d : Status} (h : c.bits = d.bits) : c = d := by
  cases c <;> cases d <;> first | rfl | exact absurd h (by decide)

@[simp] theorem Status.ofBits_bits (c : Status) : Status.ofBits c.bits = some c := by cases c <;> decide

@[simp] theorem rspWord_ok : rspWord .ok 0#28 = 0x00000000#32 := by decide
@[simp] theorem rspWord_badcmd : rspWord .eBadcmd 0#28 = 0x10000000#32 := by decide
@[simp] theorem rspWord_seq : rspWord .eSeq 0#28 = 0x20000000#32 := by decide
@[simp] theorem rspWord_busy : rspWord .eBusy 0#28 = 0x30000000#32 := by decide

end Sys2Proof.Machine
end

