-- ==== Sys2Proof/Laws/Effect.lean ====
section
/-! SUPPORT. What a command can do, said once: `Effect i s t` lists every path of every command's pseudocode with
its conditions and its next state, and `exec_effect` says that `exec` takes one of them. Later proofs take cases on
`Effect` and never unfold a meaning. -/

namespace Sys2Proof.Machine

/-- One constructor for each path of the pseudocode of R121 to R129, R141 to R143, R151 to R153. -/
inductive Effect : Instr → State → State → Prop where
  | nop (s : State) : Effect .nop s (s.respond .ok 0#28)
  | rdReg (r : RegNo) (s : State) : Effect (.rdReg r) s (s.respond .ok (s.regView r))
  | reservedE (b : BitVec 272) (s : State) : Effect (.reservedE b) s (s.respond .eBadcmd 0#28)
  | reservedF (b : BitVec 272) (s : State) : Effect (.reservedF b) s (s.respond .eBadcmd 0#28)
  | ctClearBusy (s : State) (h : s.encSt ≠ .idle) : Effect .ctClear s (s.respond .eBusy 0#28)
  | ctClear (s : State) (h : s.encSt = .idle) : Effect .ctClear s (s.ctClearAll.respond .ok 0#28)
  | ctWriteBad (x : Sym) (l : BitVec 9) (k : CodeBits) (s : State) (h : ¬ ctWriteLegal s.cfg l k) :
      Effect (.ctWrite x l k) s (s.respond .eBadcmd 0#28)
  | ctWriteBusy (x : Sym) (l : BitVec 9) (k : CodeBits) (s : State) (legal : ctWriteLegal s.cfg l k)
      (h : s.encSt ≠ .idle) : Effect (.ctWrite x l k) s (s.respond .eBusy 0#28)
  | ctWrite (x : Sym) (l : BitVec 9) (k : CodeBits) (s : State) (legal : ctWriteLegal s.cfg l k)
      (h : s.encSt = .idle) : Effect (.ctWrite x l k) s ((s.ctWrite x ⟨l.setWidth 8, k⟩).respond .ok 0#28)
  | trClearBusy (s : State) (h : s.decSt ≠ .idle) : Effect .trClear s (s.respond .eBusy 0#28)
  | trClear (s : State) (h : s.decSt = .idle) :
      Effect .trClear s ((s.tmClearAll.setRoot 0#9 false).respond .ok 0#28)
  | trLeafBusy (i : Idx) (x : Sym) (s : State) (h : s.decSt ≠ .idle) :
      Effect (.trLeaf i x) s (s.respond .eBusy 0#28)
  | trLeaf (i : Idx) (x : Sym) (s : State) (h : s.decSt = .idle) :
      Effect (.trLeaf i x) s ((s.tmWrite i (.leaf x)).respond .ok 0#28)
  | trNodeBusy (i l r : Idx) (s : State) (h : s.decSt ≠ .idle) :
      Effect (.trNode i l r) s (s.respond .eBusy 0#28)
  | trNode (i l r : Idx) (s : State) (h : s.decSt = .idle) :
      Effect (.trNode i l r) s ((s.tmWrite i (.internal l r)).respond .ok 0#28)
  | trRootBusy (i : Idx) (s : State) (h : s.decSt ≠ .idle) : Effect (.trRoot i) s (s.respond .eBusy 0#28)
  | trRoot (i : Idx) (s : State) (h : s.decSt = .idle) :
      Effect (.trRoot i) s ((s.setRoot i true).respond .ok 0#28)
  | encStartSeq (s : State) (h : s.encSt ≠ .idle) : Effect .encStart s (s.respond .eSeq 0#28)
  | encStart (s : State) (h : s.encSt = .idle) :
      Effect .encStart s (State.respond { s with encSt := .active, encErr := .ok } .ok 0#28)
  | encSymSeq (x : Sym) (s : State) (h : s.encSt = .idle) : Effect (.encSym x) s (s.respond .eSeq 0#28)
  | encSymReplay (x : Sym) (s : State) (h : s.encSt = .faulted) :
      Effect (.encSym x) s (s.respond s.encErr 0#28)
  | encSymUnknown (x : Sym) (s : State) (h : s.encSt = .active) (none : s.ctRead x = none) :
      Effect (.encSym x) s
        (State.respond { s with encSt := .faulted, encErr := .eUnksym } .eUnksym (x.setWidth 28))
  | encSym (x : Sym) (e : CtEntry) (s : State) (h : s.encSt = .active) (found : s.ctRead x = some e) :
      Effect (.encSym x) s ((s.emitEnc (e.symbols.map chr)).respond .ok 0#28)
  | encEndSeq (s : State) (h : s.encSt = .idle) : Effect .encEnd s (s.respond .eSeq 0#28)
  | encEndFaulted (s : State) (h : s.encSt = .faulted) :
      Effect .encEnd s (State.respond { s with encSt := .idle } s.encErr 0#28)
  | encEnd (s : State) (h : s.encSt = .active) :
      Effect .encEnd s (State.respond { s with encSt := .idle } .ok 0#28)
  | decStartSeq (s : State) (h : s.decSt ≠ .idle) : Effect .decStart s (s.respond .eSeq 0#28)
  | decStart (s : State) (h : s.decSt = .idle) :
      Effect .decStart s (State.respond { s with decSt := .active, decErr := .ok, cur := s.root } .ok 0#28)
  | decBitSeq (c : EncChar) (s : State) (h : s.decSt = .idle) : Effect (.decBit c) s (s.respond .eSeq 0#28)
  | decBitReplay (c : EncChar) (s : State) (h : s.decSt = .faulted) :
      Effect (.decBit c) s (s.respond s.decErr 0#28)
  | decBitBadch (c : EncChar) (s : State) (h : s.decSt = .active) (bad : symOf c = none) :
      Effect (.decBit c) s (State.respond { s with decSt := .faulted, decErr := .eBadch } .eBadch (c.setWidth 28))
  | decBitNotree (b : BitSym) (s : State) (h : s.decSt = .active) (v : s.rootV = false) :
      Effect (.decBit (chr b)) s (State.respond { s with decSt := .faulted, decErr := .eNotree } .eNotree 0#28)
  | decBitNoEntry (b : BitSym) (s : State) (h : s.decSt = .active) (v : s.rootV = true)
      (none : s.tmRead s.cur = none) :
      Effect (.decBit (chr b)) s
        (State.respond { s with decSt := .faulted, decErr := .eBadtree } .eBadtree (s.cur.setWidth 28))
  | decBitLeafOne (x : Sym) (s : State) (h : s.decSt = .active) (v : s.rootV = true)
      (leaf : s.tmRead s.cur = some (.leaf x)) :
      Effect (.decBit (chr true)) s
        (State.respond { s with decSt := .faulted, decErr := .eMalformed } .eMalformed (s.cur.setWidth 28))
  | decBitLeafZero (x : Sym) (s : State) (h : s.decSt = .active) (v : s.rootV = true)
      (leaf : s.tmRead s.cur = some (.leaf x)) :
      Effect (.decBit (chr false)) s ((s.emitDec x).respond .ok 0#28)
  | decBitNoChild (b : BitSym) (l r : Idx) (s : State) (h : s.decSt = .active) (v : s.rootV = true)
      (node : s.tmRead s.cur = some (.internal l r)) (none : s.tmRead (childOf b l r) = none) :
      Effect (.decBit (chr b)) s
        (State.respond { s with decSt := .faulted, decErr := .eBadtree } .eBadtree ((childOf b l r).setWidth 28))
  | decBitLeaf (b : BitSym) (l r : Idx) (x : Sym) (s : State) (h : s.decSt = .active) (v : s.rootV = true)
      (node : s.tmRead s.cur = some (.internal l r)) (leaf : s.tmRead (childOf b l r) = some (.leaf x)) :
      Effect (.decBit (chr b)) s (((s.emitDec x).setCur s.root).respond .ok 0#28)
  | decBitMove (b : BitSym) (l r l' r' : Idx) (s : State) (h : s.decSt = .active) (v : s.rootV = true)
      (node : s.tmRead s.cur = some (.internal l r))
      (child : s.tmRead (childOf b l r) = some (.internal l' r')) :
      Effect (.decBit (chr b)) s ((s.setCur (childOf b l r)).respond .ok 0#28)
  | decEndSeq (s : State) (h : s.decSt = .idle) : Effect .decEnd s (s.respond .eSeq 0#28)
  | decEndFaulted (s : State) (h : s.decSt = .faulted) :
      Effect .decEnd s (State.respond { s with decSt := .idle } s.decErr 0#28)
  | decEndMidCode (s : State) (h : s.decSt = .active) (mid : s.cur ≠ s.root) :
      Effect .decEnd s
        (State.respond { s with decErr := .eMalformed, decSt := .idle } .eMalformed (s.cur.setWidth 28))
  | decEnd (s : State) (h : s.decSt = .active) (edge : s.cur = s.root) :
      Effect .decEnd s (State.respond { s with decSt := .idle } .ok 0#28)

/-- `loadCt` refuses or writes (R122, R123). -/
theorem loadCt_eq (written s : State) :
    (s.encSt ≠ .idle → loadCt written s = .next (s.respond .eBusy 0#28)) ∧
    (s.encSt = .idle → loadCt written s = .next (written.respond .ok 0#28)) := by
  unfold loadCt refuse done
  constructor <;> intro h <;> simp [h]

/-- `loadTm` refuses or writes (R124 to R127). -/
theorem loadTm_eq (written s : State) :
    (s.decSt ≠ .idle → loadTm written s = .next (s.respond .eBusy 0#28)) ∧
    (s.decSt = .idle → loadTm written s = .next (written.respond .ok 0#28)) := by
  unfold loadTm refuse done
  constructor <;> intro h <;> simp [h]

/-- The checks of CT_WRITE's pseudocode are the value conditions of R74. -/
theorem execCtWrite_checks (x : Sym) (l : BitVec 9) (k : CodeBits) (s : State) :
    (¬ ctWriteLegal s.cfg l k → execCtWrite x l k s = .next (s.respond .eBadcmd 0#28)) ∧
    (ctWriteLegal s.cfg l k → execCtWrite x l k s = loadCt (s.ctWrite x ⟨l.setWidth 8, k⟩) s) := by
  have hpass := ctWriteChecks_pass (c := s.cfg) (len := l) (code := k)
  simp only [ctWriteChecks, List.mem_cons, List.not_mem_nil, or_false, forall_eq_or_imp, forall_eq,
    decide_eq_false_iff_not] at hpass
  unfold execCtWrite refuse
  constructor
  · intro h
    rw [← hpass] at h
    split_ifs with h1 h2
    · rfl
    · rfl
    · exact absurd ⟨by omega, by omega, by simpa using h2⟩ h
  · intro h
    obtain ⟨h1, h2, h3⟩ := hpass.2 h
    rw [if_neg (by omega), h3]
    rfl

/-- What DEC_BIT does with a legal character in ACTIVE. -/
theorem walkEdge_effect (b : BitSym) (s : State) (h : s.decSt = .active) :
    ∃ t, walkEdge b s = .next t ∧ Effect (.decBit (chr b)) s t := by
  unfold walkEdge
  by_cases hv : s.rootV = false
  · exact ⟨_, by rw [if_pos hv]; rfl, .decBitNotree b s h hv⟩
  rw [if_neg hv]
  have hv : s.rootV = true := by simpa using hv
  split
  · next hn => exact ⟨_, rfl, .decBitNoEntry b s h hv hn⟩
  · next x hn =>
    cases b
    · exact ⟨_, rfl, .decBitLeafZero x s h hv hn⟩
    · exact ⟨_, rfl, .decBitLeafOne x s h hv hn⟩
  · next l r hn =>
    unfold enterChild
    split
    · next hm => exact ⟨_, rfl, .decBitNoChild b l r s h hv hn hm⟩
    · next x hm => exact ⟨_, rfl, .decBitLeaf b l r x s h hv hn hm⟩
    · next l' r' hm => exact ⟨_, rfl, .decBitMove b l r l' r' s h hv hn hm⟩

/-- Every command takes one of the listed paths. -/
theorem exec_effect (i : Instr) (s : State) : ∃ t, exec i s = .next t ∧ Effect i s t := by
  cases i with
  | nop => exact ⟨_, rfl, .nop s⟩
  | rdReg r => exact ⟨_, rfl, .rdReg r s⟩
  | reservedE b => exact ⟨_, rfl, .reservedE b s⟩
  | reservedF b => exact ⟨_, rfl, .reservedF b s⟩
  | ctClear =>
    by_cases h : s.encSt = .idle
    · exact ⟨_, (loadCt_eq _ _).2 h, .ctClear s h⟩
    · exact ⟨_, (loadCt_eq _ _).1 h, .ctClearBusy s h⟩
  | ctWrite x l k =>
    by_cases legal : ctWriteLegal s.cfg l k
    · by_cases h : s.encSt = .idle
      · exact ⟨_, ((execCtWrite_checks x l k s).2 legal).trans ((loadCt_eq _ _).2 h), .ctWrite x l k s legal h⟩
      · exact ⟨_, ((execCtWrite_checks x l k s).2 legal).trans ((loadCt_eq _ _).1 h), .ctWriteBusy x l k s legal h⟩
    · exact ⟨_, (execCtWrite_checks x l k s).1 legal, .ctWriteBad x l k s legal⟩
  | trClear =>
    by_cases h : s.decSt = .idle
    · exact ⟨_, (loadTm_eq _ _).2 h, .trClear s h⟩
    · exact ⟨_, (loadTm_eq _ _).1 h, .trClearBusy s h⟩
  | trLeaf i x =>
    by_cases h : s.decSt = .idle
    · exact ⟨_, (loadTm_eq _ _).2 h, .trLeaf i x s h⟩
    · exact ⟨_, (loadTm_eq _ _).1 h, .trLeafBusy i x s h⟩
  | trNode i l r =>
    by_cases h : s.decSt = .idle
    · exact ⟨_, (loadTm_eq _ _).2 h, .trNode i l r s h⟩
    · exact ⟨_, (loadTm_eq _ _).1 h, .trNodeBusy i l r s h⟩
  | trRoot i =>
    by_cases h : s.decSt = .idle
    · exact ⟨_, (loadTm_eq _ _).2 h, .trRoot i s h⟩
    · exact ⟨_, (loadTm_eq _ _).1 h, .trRootBusy i s h⟩
  | encStart =>
    by_cases h : s.encSt = .idle
    · exact ⟨_, by simp only [exec, execEncStart, h, ne_eq, not_true_eq_false, if_false]; rfl, .encStart s h⟩
    · exact ⟨_, by simp only [exec, execEncStart, h, ne_eq, not_false_eq_true, if_true]; rfl, .encStartSeq s h⟩
  | encSym x =>
    simp only [exec, execEncSym]
    split
    · next h => exact ⟨_, rfl, .encSymSeq x s h⟩
    · next h => exact ⟨_, rfl, .encSymReplay x s h⟩
    · next h =>
      split
      · next hn => exact ⟨_, rfl, .encSymUnknown x s h hn⟩
      · next e he => exact ⟨_, rfl, .encSym x e s h he⟩
  | encEnd =>
    simp only [exec, execEncEnd]
    split
    · next h => exact ⟨_, rfl, .encEndSeq s h⟩
    · next h => exact ⟨_, rfl, .encEndFaulted s h⟩
    · next h => exact ⟨_, rfl, .encEnd s h⟩
  | decStart =>
    by_cases h : s.decSt = .idle
    · exact ⟨_, by simp only [exec, execDecStart, h, ne_eq, not_true_eq_false, if_false]; rfl, .decStart s h⟩
    · exact ⟨_, by simp only [exec, execDecStart, h, ne_eq, not_false_eq_true, if_true]; rfl, .decStartSeq s h⟩
  | decBit c =>
    simp only [exec, execDecBit]
    split
    · next h => exact ⟨_, rfl, .decBitSeq c s h⟩
    · next h => exact ⟨_, rfl, .decBitReplay c s h⟩
    · next h =>
      split
      · next hn => exact ⟨_, rfl, .decBitBadch c s h hn⟩
      · next b hb =>
        obtain rfl := symOf_eq_some.1 hb
        exact walkEdge_effect b s h
  | decEnd =>
    simp only [exec, execDecEnd]
    split
    · next h => exact ⟨_, rfl, .decEndSeq s h⟩
    · next h => exact ⟨_, rfl, .decEndFaulted s h⟩
    · next h =>
      split_ifs with hc
      · exact ⟨_, rfl, .decEndMidCode s h hc⟩
      · exact ⟨_, rfl, .decEnd s h (by simpa using hc)⟩

/-- The inversion lemma of `exec`: a next state is the end of one of the listed paths. -/
theorem effect_of_exec {i : Instr} {s t : State} (h : exec i s = .next t) : Effect i s t := by
  obtain ⟨u, hu, he⟩ := exec_effect i s
  rw [hu] at h
  cases h
  exact he

/-- Each listed path is what `exec` does under its conditions: with `effect_of_exec`, `Effect` is `exec`. -/
theorem exec_of_effect {i : Instr} {s t : State} (h : Effect i s t) : exec i s = .next t := by
  cases h
  case ctWriteBad x l k hh => exact (execCtWrite_checks x l k s).1 hh
  case ctWriteBusy x l k legal hh => exact ((execCtWrite_checks x l k s).2 legal).trans ((loadCt_eq _ _).1 hh)
  case ctWrite x l k legal hh => exact ((execCtWrite_checks x l k s).2 legal).trans ((loadCt_eq _ _).2 hh)
  case decBitNotree b _ _ => cases b <;> simp [exec, execDecBit, walkEdge, *, faultDec, symOf]
  case decBitNoEntry b _ _ _ => cases b <;> simp [exec, execDecBit, walkEdge, *, faultDec, symOf]
  case decBitNoChild b l r _ v node none =>
    simp only [exec, execDecBit, symOf_chr, *]
    simp [walkEdge, enterChild, v, node, none, faultDec]
  case decBitLeaf b l r x _ v node leaf =>
    simp only [exec, execDecBit, symOf_chr, *]
    simp [walkEdge, enterChild, v, node, leaf, done]
  case decBitMove b l r l' r' _ v node child =>
    simp only [exec, execDecBit, symOf_chr, *]
    simp [walkEdge, enterChild, v, node, child, done]
  case decBitBadch h bad => simp [exec, execDecBit, h, bad, faultDec]
  case decEndMidCode h mid => simp [exec, execDecEnd, h, mid, closeMidCode]
  all_goals simp [exec, execNop, execRdReg, execReservedE, execReservedF, execCtClear, execTrClear, execTrLeaf,
    execTrNode, execTrRoot, execEncStart, execEncSym, execEncEnd, execDecStart, execDecBit, walkEdge, execDecEnd,
    loadCt, loadTm, refuse, done, replayEnc, replayDec, closeEnc, closeDec, faultEnc, faultDec, symOf, *]

end Sys2Proof.Machine
end

