-- ==== Sys2Proof/Laws/Heap.lean ====
section
/-! SUPPORT. The laws of the environment's queue (`40_environment_reference.md` R96 to R102): exchanges and sifting
up permute, an insertion restores the heap, index 0 is a minimum, and every list of nodes has an order that is a
heap. -/

namespace Sys2Proof.Machine

/-- The weight at an index of the array. -/
theorem weightAt_of_lt {a : List Tree} {i : Nat} (h : i < a.length) : weightAt a i = a[i].weight := by
  simp [weightAt, h]

/-- An exchange within the array. -/
theorem swapNodes_eq {a : List Tree} {i j : Nat} (hi : i < a.length) (hj : j < a.length) :
    swapNodes a i j = (a.set i a[j]).set j a[i] := by
  simp [swapNodes, hi, hj]

/-- An exchange keeps the size. -/
theorem length_swapNodes (a : List Tree) (i j : Nat) : (swapNodes a i j).length = a.length := by
  unfold swapNodes
  split <;> simp

/-- What the weights are after an exchange. -/
theorem weightAt_swapNodes {a : List Tree} {i j : Nat} (hi : i < a.length) (hj : j < a.length) (k : Nat) :
    weightAt (swapNodes a i j) k = if k = j then weightAt a i else if k = i then weightAt a j else weightAt a k := by
  rw [swapNodes_eq hi hj]
  by_cases hkj : k = j
  · subst hkj; simp [weightAt, hi, hj]
  · by_cases hki : k = i
    · subst hki; simp [weightAt, hi, hj, hkj, Ne.symm hkj]
    · simp [weightAt, hkj, hki, Ne.symm hkj, Ne.symm hki]

/-- An exchange permutes. -/
theorem swapNodes_perm (a : List Tree) (i j : Nat) : (swapNodes a i j).Perm a := by
  by_cases hi : i < a.length
  · by_cases hj : j < a.length
    · rw [swapNodes_eq hi hj]
      exact List.set_set_perm hi hj
    · simp [swapNodes, hj]
  · simp [swapNodes, hi]

/-- Sifting up permutes. -/
theorem siftUp_perm (fuel : Nat) (a : List Tree) (i : Nat) : (siftUp fuel a i).Perm a := by
  induction fuel generalizing a i with
  | zero => exact .refl _
  | succ n ih =>
    unfold siftUp
    split
    · exact (ih ..).trans (swapNodes_perm ..)
    · exact .refl _

/-- A heap but for index `i`, which may be lighter than its parent. -/
def HeapBut (a : List Tree) (i : Nat) : Prop :=
  (∀ j, 0 < j → j < a.length → j ≠ i → weightAt a (heapParent j) ≤ weightAt a j) ∧
  ∀ j, 0 < i → j < a.length → 0 < j → heapParent j = i → weightAt a (heapParent i) ≤ weightAt a j

/-- Sifting the one exception up restores the heap. -/
theorem siftUp_isMinHeap {fuel : Nat} {a : List Tree} {i : Nat} (hf : i ≤ fuel) (hi : i < a.length)
    (h : HeapBut a i) : IsMinHeap (siftUp fuel a i) := by
  induction fuel generalizing a i with
  | zero => exact fun j h₀ h₁ => h.1 j h₀ h₁ (by omega)
  | succ n ih =>
    unfold siftUp
    split
    case isFalse hc =>
      intro j h₀ h₁
      by_cases hj : j = i
      · subst hj; omega
      · exact h.1 j h₀ h₁ hj
    case isTrue hc =>
      have hp : heapParent i < i := by unfold heapParent; omega
      have hw := weightAt_swapNodes hi (hp.trans hi)
      refine ih (by omega) (by rw [length_swapNodes]; omega) ⟨fun j h₀ h₁ hne => ?_, fun j hpos h₁ h₀ hj => ?_⟩
      · rw [length_swapNodes] at h₁
        rw [hw j, hw (heapParent j)]
        have h1 := h.1 j h₀ h₁
        have h2 := h.2 j hc.1 h₁ h₀
        split_ifs <;> simp_all <;> omega
      · rw [length_swapNodes] at h₁
        have hpp : heapParent (heapParent i) < heapParent i := by unfold heapParent at hpos ⊢; omega
        have hjp : heapParent i < j := by unfold heapParent at hj ⊢; omega
        have h1 := h.1 j h₀ h₁
        have h3 := h.1 (heapParent i) hpos (by omega) (by omega)
        rw [hw j, hw (heapParent (heapParent i)), if_neg (by omega), if_neg (by omega), if_neg (by omega)]
        split_ifs with hji
        · exact h3
        · rw [hj] at h1; exact h3.trans (h1 hji)

/-- What an insertion does: it succeeds below the capacity, keeps the nodes and restores the heap (R98). -/
theorem Heap.insert_ok {h : Heap} (t : Tree) (hc : h.nodes.length < h.cap) :
    ∃ h', h.insert t = .ok h' ∧ h'.nodes.Perm (t :: h.nodes) ∧ h'.cap = h.cap ∧
      (IsMinHeap h.nodes → IsMinHeap h'.nodes) := by
  refine ⟨_, if_pos hc, (siftUp_perm ..).trans (List.perm_append_singleton ..), rfl, fun hm => ?_⟩
  have happ (j : Nat) (hj : j < h.nodes.length) : weightAt (h.nodes ++ [t]) j = weightAt h.nodes j := by
    simp [weightAt, List.getElem?_append_left hj]
  refine siftUp_isMinHeap le_rfl (by simp) ⟨fun j h₀ h₁ hne => ?_, fun j hpos h₁ h₀ hj => ?_⟩
  · simp only [List.length_append, List.length_singleton] at h₁
    have : heapParent j < j := by unfold heapParent; omega
    rw [happ _ (by omega), happ _ (by omega)]
    exact hm j h₀ (by omega)
  · simp only [List.length_append, List.length_singleton] at h₁
    unfold heapParent at hj; omega

/-- Index 0 of a heap has the minimum weight (R99). -/
theorem IsMinHeap.head_le {a : List Tree} (h : IsMinHeap a) (i : Nat) (hi : i < a.length) :
    weightAt a 0 ≤ weightAt a i := by
  induction i using Nat.strongRecOn with
  | ind i ih =>
    obtain rfl | hpos := Nat.eq_zero_or_pos i
    · exact le_rfl
    · have hp : heapParent i < i := by unfold heapParent; omega
      exact (ih _ hp (by omega)).trans (h i hpos hi)

/-- The element at index 0 of a heap is no heavier than any other (R99). -/
theorem IsMinHeap.head_le_mem {x : Tree} {a : List Tree} (h : IsMinHeap (x :: a)) : ∀ z ∈ a, x.weight ≤ z.weight := by
  intro z hz
  obtain ⟨i, hi, rfl⟩ := List.getElem_of_mem hz
  simpa [weightAt, hi] using h.head_le (i + 1) (by simpa using hi)

/-- Every list of nodes has an order that is a heap: the ascending one. -/
theorem exists_isMinHeap (a : List Tree) : ∃ b : List Tree, b.Perm a ∧ IsMinHeap b := by
  refine ⟨a.mergeSort (fun x y => decide (x.weight ≤ y.weight)), List.mergeSort_perm .., fun i h₀ h₁ => ?_⟩
  have hs := List.pairwise_mergeSort (le := fun x y : Tree => decide (x.weight ≤ y.weight))
    (by simpa using fun a b c => le_trans) (by simpa using fun a b => Nat.le_total ..) a
  have hp : heapParent i < i := by unfold heapParent; omega
  have := List.pairwise_iff_getElem.1 hs _ _ (hp.trans h₁) h₁ hp
  rw [weightAt_of_lt h₁, weightAt_of_lt (hp.trans h₁)]
  simpa using this

/-- A forest of the same trees in another order merges to the same trees (R102: it is a multiset). -/
theorem MergesTo.perm {a b : List Tree} {t : Tree} (h : MergesTo a t) (hp : a.Perm b) : MergesTo b t := by
  cases h with
  | done => rw [← List.singleton_perm.1 hp]; exact .done _
  | merge _ others x y t picks first second later => exact .merge _ others x y t (hp.symm.trans picks) first second later

/-- Every non-empty forest merges to some tree (R102). -/
theorem exists_mergesTo (forest : List Tree) (h : forest ≠ []) : ∃ t, MergesTo forest t := by
  obtain ⟨n, hn⟩ : ∃ n, forest.length = n := ⟨_, rfl⟩
  induction n generalizing forest with
  | zero => exact absurd (List.length_eq_zero_iff.1 hn) h
  | succ n ih =>
    obtain ⟨b, pb, mb⟩ := exists_isMinHeap forest
    obtain _ | ⟨x, r⟩ := b
    · exact absurd pb.symm.eq_nil h
    obtain ⟨c, pc, mc⟩ := exists_isMinHeap r
    obtain _ | ⟨y, o⟩ := c
    · obtain rfl := pc.symm.eq_nil
      obtain rfl := List.singleton_perm.1 pb
      exact ⟨x, .done _⟩
    · have l := pb.length_eq
      have l2 := pc.length_eq
      simp only [List.length_cons] at l l2
      obtain ⟨t, ht⟩ := ih (mergeNode x y :: o) (by simp) (by simp only [List.length_cons]; omega)
      exact ⟨t, .merge _ o x y t (pb.symm.trans (pc.symm.cons x))
        (fun z hz => mb.head_le_mem z (pc.mem_iff.1 hz)) mc.head_le_mem ht⟩

end Sys2Proof.Machine
end

