-- ==== Sys2Proof/Laws/Huffman.lean ====
section
/-! SUPPORT. The laws behind the optimality of `40_environment_reference.md` R116: Kraft's inequality for prefix-free
codes, what the merges of R102 keep, the cost of a tree's own codes, and that no depths which meet Kraft's inequality
cost less. -/

namespace Sys2Proof.Machine

/-- The Kraft sum of a list of code lengths, `Σ 2^(−len)`. -/
def kraftSum (ls : List Nat) : ℚ := (ls.map (fun l => (1 / 2 : ℚ) ^ l)).sum

@[simp] theorem kraftSum_nil : kraftSum [] = 0 := rfl
@[simp] theorem kraftSum_cons (l : Nat) (ls : List Nat) : kraftSum (l :: ls) = (1 / 2) ^ l + kraftSum ls := by
  simp [kraftSum]

/-- A Kraft sum is not negative. -/
theorem kraftSum_nonneg (ls : List Nat) : 0 ≤ kraftSum ls := by
  induction ls with
  | nil => simp
  | cons l ls ih => rw [kraftSum_cons]; positivity

/-- A Kraft sum does not depend on the order. -/
theorem kraftSum_perm {ls ms : List Nat} (h : ls.Perm ms) : kraftSum ls = kraftSum ms := (h.map _).sum_eq

/-- Lengths of at most `b` have a Kraft sum that is a multiple of `2^(−b)`. -/
theorem kraftSum_integral {b : Nat} {ls : List Nat} (h : ∀ l ∈ ls, l ≤ b) : ∃ n : Nat, kraftSum ls * 2 ^ b = n := by
  induction ls with
  | nil => exact ⟨0, by simp⟩
  | cons l ls ih =>
    obtain ⟨n, hn⟩ := ih fun x hx => h x (List.mem_cons_of_mem _ hx)
    obtain ⟨d, rfl⟩ := Nat.exists_eq_add_of_le (h l (List.mem_cons_self ..))
    refine ⟨2 ^ d + n, ?_⟩
    rw [kraftSum_cons, add_mul, hn, pow_add, ← mul_assoc, ← mul_pow]
    norm_num

/-- Where `a ≥ b` are the two greatest lengths, merging both into one of length `b − 1` keeps Kraft's inequality. -/
theorem kraftSum_merge {a b : Nat} {ls : List Nat} (hb : ∀ l ∈ ls, l ≤ b)
    (h : kraftSum (a :: b :: ls) ≤ 1) : 1 ≤ b ∧ kraftSum ((b - 1) :: ls) ≤ 1 := by
  simp only [kraftSum_cons] at h ⊢
  have hpos : (0 : ℚ) < (1 / 2) ^ a := by positivity
  have hnn := kraftSum_nonneg ls
  obtain _ | b := b
  · norm_num at h; linarith
  refine ⟨Nat.succ_pos b, ?_⟩
  obtain ⟨n, hn⟩ := kraftSum_integral hb
  have h2 : (0 : ℚ) < 2 ^ (b + 1) := by positivity
  have hone : (1 / 2 : ℚ) ^ (b + 1) * 2 ^ (b + 1) = 1 := by rw [← mul_pow]; norm_num
  have hlt : (1 : ℚ) + n < 2 ^ (b + 1) := by
    have := mul_lt_mul_of_pos_right (show (1 / 2 : ℚ) ^ (b + 1) + kraftSum ls < 1 by linarith) h2
    rwa [add_mul, hone, hn, one_mul] at this
  have hle : (1 : ℚ) + n + 1 ≤ 2 ^ (b + 1) := by exact_mod_cast hlt
  have hfin : ((1 / 2 : ℚ) ^ b + kraftSum ls) * 2 ^ (b + 1) ≤ 1 * 2 ^ (b + 1) := by
    have hb' : (1 / 2 : ℚ) ^ b * 2 ^ (b + 1) = 2 := by rw [pow_succ, ← mul_assoc, ← mul_pow]; norm_num
    rw [add_mul, hb', hn]; linarith
  simpa using le_of_mul_le_mul_right hfin h2

/-- The tails of the codes that begin with `b`. -/
def tailsAfter (b : BitSym) (ks : List Code) : List Code :=
  ks.filterMap (fun k => match k with | [] => none | c :: r => if c = b then some r else none)

/-- The tails are what follows `b`. -/
theorem mem_tailsAfter {b : BitSym} {ks : List Code} {r : Code} : r ∈ tailsAfter b ks ↔ b :: r ∈ ks := by
  simp only [tailsAfter, List.mem_filterMap]
  constructor
  · rintro ⟨_ | ⟨c, k⟩, hk, h⟩
    · simp at h
    · simp only [Option.ite_none_right_eq_some, Option.some.injEq] at h
      obtain ⟨rfl, rfl⟩ := h; exact hk
  · exact fun h => ⟨_, h, by simp⟩

/-- Without the empty code, the Kraft sum splits by the first symbol. -/
theorem kraftSum_tails {ks : List Code} (h : [] ∉ ks) : kraftSum (ks.map List.length) =
    1 / 2 * (kraftSum ((tailsAfter false ks).map List.length) + kraftSum ((tailsAfter true ks).map List.length)) := by
  induction ks with
  | nil => simp [tailsAfter]
  | cons k ks ih =>
    have ih := ih (fun hm => h (List.mem_cons_of_mem _ hm))
    obtain _ | ⟨_ | _, k⟩ := k
    · simp at h
    · simp only [tailsAfter] at ih ⊢
      simp [ih]; ring
    · simp only [tailsAfter] at ih ⊢
      simp [ih]; ring

/-- Kraft's inequality: codes none of which is a prefix of another. -/
theorem kraft_inequality (ks : List Code) (h : ks.Pairwise (fun a b => ¬ a <+: b ∧ ¬ b <+: a)) :
    kraftSum (ks.map List.length) ≤ 1 := by
  obtain ⟨n, hn⟩ : ∃ n, ∀ k ∈ ks, k.length ≤ n :=
    ⟨(ks.map List.length).sum, fun k hk => List.le_sum_of_mem (List.mem_map_of_mem hk)⟩
  induction n generalizing ks with
  | zero =>
    obtain _ | ⟨a, _ | ⟨b, ks⟩⟩ := ks
    · simp
    · have ha : a = [] := by simpa using hn a (List.mem_singleton_self _)
      simp [ha]
    · have ha : a = [] := by simpa using hn a (List.mem_cons_self ..)
      rw [ha] at h
      exact absurd (List.nil_prefix ..) ((List.pairwise_cons.1 h).1 b (List.mem_cons_self ..)).1
  | succ n ih =>
    by_cases hnil : [] ∈ ks
    · obtain ⟨l₁, l₂, rfl⟩ := List.append_of_mem hnil
      have h' := (List.perm_middle.pairwise_iff (fun {a b} hab => ⟨hab.2, hab.1⟩)).1 h
      rw [List.pairwise_cons] at h'
      have : l₁ ++ l₂ = [] := List.eq_nil_iff_forall_not_mem.2 fun x hx => (h'.1 x hx).1 (List.nil_prefix ..)
      obtain ⟨rfl, rfl⟩ := List.append_eq_nil_iff.1 this
      simp
    · have key (b : BitSym) : kraftSum ((tailsAfter b ks).map List.length) ≤ 1 := by
        refine ih _ ?_ fun k hk => ?_
        · refine h.filterMap _ fun a a' haa r hr r' hr' => ?_
          obtain _ | ⟨c, a⟩ := a <;> obtain _ | ⟨c', a'⟩ := a' <;>
            simp only [Option.ite_none_right_eq_some, Option.some.injEq, reduceCtorEq] at hr hr'
          obtain ⟨rfl, rfl⟩ := hr
          obtain ⟨rfl, rfl⟩ := hr'
          simpa using haa
        · have := hn _ (mem_tailsAfter.1 hk); simpa using this
      rw [kraftSum_tails hnil]
      linarith [key false, key true]

/-- The sum of the weights of the internal nodes. -/
def Tree.innerWeight (t : Tree) : Nat :=
  match t with
  | .leaf _ _ => 0
  | .internal w l r => w + l.innerWeight + r.innerWeight

@[simp] theorem mergeNode_weight (x y : Tree) : (mergeNode x y).weight = x.weight + y.weight := rfl
@[simp] theorem mergeNode_innerWeight (x y : Tree) :
    (mergeNode x y).innerWeight = x.weight + y.weight + x.innerWeight + y.innerWeight := rfl

/-- The cost of trees at given depths. -/
def depthCost (ps : List (Tree × Nat)) : Nat := (ps.map (fun p => p.1.weight * p.2)).sum

@[simp] theorem depthCost_nil : depthCost [] = 0 := rfl
@[simp] theorem depthCost_cons (p : Tree × Nat) (ps : List (Tree × Nat)) :
    depthCost (p :: ps) = p.1.weight * p.2 + depthCost ps := by simp [depthCost]

/-- The cost does not depend on the order. -/
theorem depthCost_perm {ps qs : List (Tree × Nat)} (h : ps.Perm qs) : depthCost ps = depthCost qs :=
  (h.map _).sum_eq

/-- Exchanging depths: the lightest tree can be given the greatest depth at no extra cost. -/
theorem depthCost_promote (x : Tree) (l : Nat) (ps : List (Tree × Nat)) (h : ∀ p ∈ ps, x.weight ≤ p.1.weight) :
    ∃ l' ps', ps'.map Prod.fst = ps.map Prod.fst ∧ (l' :: ps'.map Prod.snd).Perm (l :: ps.map Prod.snd) ∧
      (∀ p ∈ ps', p.2 ≤ l') ∧ depthCost ((x, l') :: ps') ≤ depthCost ((x, l) :: ps) := by
  induction ps with
  | nil => exact ⟨l, [], rfl, .refl _, by simp, le_rfl⟩
  | cons p ps ih =>
    obtain ⟨l', ps', hf, hs, hmax, hc⟩ := ih fun q hq => h q (List.mem_cons_of_mem _ hq)
    simp only [depthCost_cons] at hc ⊢
    have hs' : (l' :: p.2 :: ps'.map Prod.snd).Perm (l :: p.2 :: ps.map Prod.snd) :=
      (List.Perm.swap ..).trans ((hs.cons p.2).trans (.swap ..))
    obtain hle | hlt := le_or_gt p.2 l'
    · refine ⟨l', p :: ps', by simp [hf], hs', ?_, ?_⟩
      · simpa [hle] using fun q hq => hmax q hq
      · simp only [depthCost_cons]; omega
    · refine ⟨p.2, (p.1, l') :: ps', by simp [hf], (List.Perm.swap ..).trans hs', ?_, ?_⟩
      · simpa [hlt.le] using fun a b hq => (hmax (a, b) hq).trans hlt.le
      · simp only [depthCost_cons]
        have := h p (List.mem_cons_self ..)
        nlinarith

/-- Lifting a permutation of first components. -/
theorem perm_cons_of_map_perm {ps : List (Tree × Nat)} {x : Tree} {ts : List Tree}
    (h : (ps.map Prod.fst).Perm (x :: ts)) : ∃ l qs, ps.Perm ((x, l) :: qs) ∧ (qs.map Prod.fst).Perm ts := by
  obtain ⟨⟨x, l⟩, hp, rfl⟩ := List.mem_map.1 (h.mem_iff.2 (List.mem_cons_self ..))
  obtain ⟨l₁, l₂, rfl⟩ := List.append_of_mem hp
  exact ⟨l, l₁ ++ l₂, List.perm_middle, ((List.perm_middle.map Prod.fst).symm.trans h).cons_inv⟩

/-- The lower bound: whatever depths of Kraft sum at most 1 the trees of a forest are given, the tree that the merges
end in is no costlier. -/
theorem MergesTo.innerWeight_le {forest : List Tree} {t : Tree} (h : MergesTo forest t) (ps : List (Tree × Nat))
    (hp : (ps.map Prod.fst).Perm forest) (hk : kraftSum (ps.map Prod.snd) ≤ 1) :
    t.innerWeight ≤ depthCost ps + (forest.map Tree.innerWeight).sum := by
  induction h generalizing ps with
  | done t => simp
  | merge forest others x y t picks first second later ih =>
    obtain ⟨lx, qs, hqs, hq⟩ := perm_cons_of_map_perm (hp.trans picks)
    obtain ⟨a, qs', hqf, hqs', hqmax, hqc⟩ := depthCost_promote x lx qs fun p h =>
      first _ (hq.mem_iff.1 (List.mem_map_of_mem h))
    obtain ⟨ly, rs, hrs, hr⟩ := perm_cons_of_map_perm (hqf ▸ hq)
    obtain ⟨b, rs', hrf, hrs', hrmax, hrc⟩ := depthCost_promote y ly rs fun p h =>
      second _ (hr.mem_iff.1 (List.mem_map_of_mem h))
    have hb : (b :: rs'.map Prod.snd).Perm (qs'.map Prod.snd) := hrs'.trans (hrs.map Prod.snd).symm
    have hba : b ≤ a := by
      obtain ⟨p, hp, rfl⟩ := List.mem_map.1 (hb.mem_iff.1 (List.mem_cons_self ..))
      exact hqmax p hp
    have hlens : (a :: b :: rs'.map Prod.snd).Perm (ps.map Prod.snd) :=
      (hb.cons a).trans (hqs'.trans (hqs.map Prod.snd).symm)
    obtain ⟨hb1, hk'⟩ := kraftSum_merge (by simpa using fun l t h => hrmax (t, l) h) (kraftSum_perm hlens ▸ hk)
    have := ih ((mergeNode x y, b - 1) :: rs') ((hrf ▸ hr).cons _) hk'
    rw [depthCost_perm hqs]
    simp only [depthCost_cons, depthCost_perm hrs] at this hqc hrc ⊢
    rw [(picks.map Tree.innerWeight).sum_eq]
    simp only [List.map_cons, List.sum_cons, mergeNode_weight, mergeNode_innerWeight] at this ⊢
    obtain ⟨b, rfl⟩ := Nat.exists_eq_add_of_le' hb1
    rw [Nat.add_sub_cancel] at this
    have := Nat.mul_le_mul_left x.weight hba
    nlinarith

/-- The leaves, from left to right, as frequency entries. -/
def Tree.leaves (t : Tree) : List FreqEntry :=
  match t with
  | .leaf s w => [(s, w)]
  | .internal _ l r => l.leaves ++ r.leaves

/-- The symbols are those of the leaves. -/
theorem Tree.symbols_eq (t : Tree) : t.symbols = t.leaves.map Prod.fst := by
  induction t with
  | leaf s w => rfl
  | internal w l r hl hr => simp [Tree.symbols, Tree.leaves, hl, hr]

/-- Merging keeps the leaves, and the weights add up. -/
theorem MergesTo.facts {forest : List Tree} {t : Tree} (h : MergesTo forest t) :
    t.leaves.Perm (forest.flatMap Tree.leaves) ∧ ((∀ x ∈ forest, x.WeightsAdd) → t.WeightsAdd) ∧
      ((∀ x ∈ forest, x.LighterLeft) → t.LighterLeft) ∧ t.weight = (forest.map Tree.weight).sum ∧
      (2 ≤ forest.length → 1 ≤ t.height) := by
  induction h with
  | done t => simp
  | merge forest others x y t picks first second later ih =>
    obtain ⟨h1, h2, h3, h4, h5⟩ := ih
    refine ⟨?_, fun h => h2 ?_, fun h => h3 ?_, ?_, fun _ => ?_⟩
    · refine h1.trans (.trans ?_ (picks.flatMap_right _).symm)
      simp [mergeNode, Tree.leaves]
    · have h (z) (hz) := h z (picks.mem_iff.2 hz)
      simp only [List.mem_cons, forall_eq_or_imp] at h ⊢
      exact ⟨⟨rfl, h.1, h.2.1⟩, h.2.2⟩
    · have h (z) (hz) := h z (picks.mem_iff.2 hz)
      simp only [List.mem_cons, forall_eq_or_imp] at h ⊢
      exact ⟨⟨first y (List.mem_cons_self ..), h.1, h.2.1⟩, h.2.2⟩
    · rw [h4, (picks.map Tree.weight).sum_eq]
      simp [mergeNode, Tree.weight, add_assoc]
    · obtain _ | _ := others
      · cases later with
        | done => simp [mergeNode, Tree.height]
        | merge f o x y t p => exact absurd p.length_eq (by simp)
      · exact h5 (by simp)

/-- The walk's table has the leaf symbols in order. -/
theorem Tree.walk_map_fst (t : Tree) (p : Code) : (t.walk p).map Prod.fst = t.symbols := by
  induction t generalizing p with
  | leaf s w => rfl
  | internal w l r hl hr => simp [Tree.walk, Tree.symbols, hl, hr]

/-- With distinct symbols every entry of a table counts. -/
theorem CodeTable.code?_of_mem {tab : CodeTable} (h : (tab.map Prod.fst).Nodup) {s : Sym} {k : Code}
    (hm : (s, k) ∈ tab) : tab.code? s = some k := by
  induction tab with
  | nil => simp at hm
  | cons e tab ih =>
    obtain ⟨x, k'⟩ := e
    simp only [List.map_cons, List.nodup_cons] at h
    obtain heq | hm' := List.mem_cons.1 hm
    · obtain ⟨rfl, rfl⟩ := Prod.mk.inj heq; simp [CodeTable.code?]
    · have : s ≠ x := by rintro rfl; exact h.1 (List.mem_map.2 ⟨(s, k), hm', rfl⟩)
      simp [CodeTable.code?, this, ih h.2 hm']

/-- Weighting each leaf by the length the walk gives it. -/
theorem Tree.walk_cost (t : Tree) (p : Code) (len : Sym → Nat) (hw : t.WeightsAdd)
    (h : ∀ s k, (s, k) ∈ t.walk p → len s = k.length) :
    (t.leaves.map (fun e => e.2 * len e.1)).sum = t.innerWeight + p.length * t.weight := by
  induction t generalizing p with
  | leaf s w =>
    have := h s p (by simp [Tree.walk])
    simp [Tree.leaves, Tree.innerWeight, Tree.weight, this, mul_comm]
  | internal w l r hl hr =>
    obtain ⟨rfl, wl, wr⟩ := hw
    have h1 := hl (p ++ [false]) wl fun s k hm => h s k (by simp [Tree.walk, hm])
    have h2 := hr (p ++ [true]) wr fun s k hm => h s k (by simp [Tree.walk, hm])
    simp only [Tree.leaves, List.map_append, List.sum_append, h1, h2, Tree.innerWeight, Tree.weight,
      List.length_append, List.length_cons, List.length_nil]
    ring

/-- The cost of a Huffman tree's own codes: the sum of its internal weights. -/
theorem tableCost_codes {f : List FreqEntry} {t : Tree} (hf : (f.map Prod.fst).Nodup) (h2 : 2 ≤ f.length)
    (h : IsHuffmanTree f t) : tableCost f (codes t) = t.innerWeight := by
  obtain ⟨hl, hw, -, -, hh⟩ := h.2.facts
  have hl : t.leaves.Perm f := by simpa [List.flatMap_map, leafOf, Tree.leaves] using hl
  have hn : t.symbols.Nodup := by rw [Tree.symbols_eq]; exact (hl.map _).nodup_iff.2 hf
  have hw := hw fun z hz => by obtain ⟨e, -, rfl⟩ := List.mem_map.1 hz; exact trivial
  obtain ⟨s, w⟩ | ⟨w, l, r⟩ := t
  · exact absurd hl.length_eq (by simp [Tree.leaves]; omega)
  · rw [tableCost, ← (hl.map _).sum_eq]
    refine (Tree.walk_cost _ [] (fun s => (((codes (.internal w l r)).code? s).getD []).length) hw
      fun s k hm => ?_).trans (by simp)
    have : (codes (.internal w l r)).code? s = some k :=
      CodeTable.code?_of_mem (by rw [codes, Tree.walk_map_fst]; exact hn) hm
    simp [this]

/-- Kraft's inequality for a prefix-free table that covers distinct symbols. -/
theorem CodeTable.PrefixFree.kraft {tab : CodeTable} (h : tab.PrefixFree) {xs : List Sym} (hx : xs.Nodup)
    (hc : ∀ x ∈ xs, (tab.code? x).isSome) :
    kraftSum (xs.map (fun x => ((tab.code? x).getD []).length)) ≤ 1 := by
  have := kraft_inequality (xs.map (fun x => (tab.code? x).getD [])) ?_
  · simpa [Function.comp_def] using this
  · rw [List.pairwise_map]
    refine hx.imp_of_mem fun {a b} ha hb hab => ?_
    obtain ⟨ka, hka⟩ := Option.isSome_iff_exists.1 (hc a ha)
    obtain ⟨kb, hkb⟩ := Option.isSome_iff_exists.1 (hc b hb)
    simpa [hka, hkb] using ⟨h a b ka kb hka hkb hab, h b a kb ka hkb hka (Ne.symm hab)⟩

end Sys2Proof.Machine
end

