-- ==== Sys2Proof/Laws/PerInstr.lean ====
section
/-! SUPPORT. Statements about every command as syntax, one lemma per constructor. -/

namespace Sys2Proof.Laws.OpcodeOfEncode

open Sys2Proof

/-- The OP field of the word that spells a command is the OP value of its row (`30_encoding.md` R70, R74). -/
def Statement (i : Instr) : Prop := fieldOp (encode i) = i.opcode.bits

theorem nop : Statement .nop := fieldOp_packWord _ _ _ _
theorem ctClear : Statement .ctClear := fieldOp_packWord _ _ _ _
theorem ctWrite (sym : Sys2Proof.Sym) (len : BitVec 9) (code : CodeBits) : Statement (.ctWrite sym len code) :=
  fieldOp_packWord _ _ _ _
theorem trClear : Statement .trClear := fieldOp_packWord _ _ _ _
theorem trLeaf (idx : Idx) (sym : Sys2Proof.Sym) : Statement (.trLeaf idx sym) := fieldOp_packWord _ _ _ _
theorem trNode (idx left right : Idx) : Statement (.trNode idx left right) := fieldOp_packWord _ _ _ _
theorem trRoot (idx : Idx) : Statement (.trRoot idx) := fieldOp_packWord _ _ _ _
theorem rdReg (regno : RegNo) : Statement (.rdReg regno) := fieldOp_packWord _ _ _ _
theorem encStart : Statement .encStart := fieldOp_packWord _ _ _ _
theorem encSym (sym : Sys2Proof.Sym) : Statement (.encSym sym) := fieldOp_packWord _ _ _ _
theorem encEnd : Statement .encEnd := fieldOp_packWord _ _ _ _
theorem decStart : Statement .decStart := fieldOp_packWord _ _ _ _
theorem decBit (ch : EncChar) : Statement (.decBit ch) := fieldOp_packWord _ _ _ _
theorem decEnd : Statement .decEnd := fieldOp_packWord _ _ _ _
theorem reservedE (rest : BitVec 272) : Statement (.reservedE rest) := fieldOp_packReserved _ _
theorem reservedF (rest : BitVec 272) : Statement (.reservedF rest) := fieldOp_packReserved _ _

end Sys2Proof.Laws.OpcodeOfEncode
end

