-- ==== Sys2Proof/Laws/Run.lean ====
section
/-! SUPPORT. The laws of runs: sequencing, and what one accepted word does. -/

namespace Sys2Proof.Machine

@[simp] theorem andThen_next (s : State) (k : State → Result) : andThen (.next s) k = k s := rfl

@[simp] theorem runInstrs_nil (s : State) : runInstrs [] s = .next s := rfl

@[simp] theorem runInstrs_cons (i : Instr) (is : List Instr) (s : State) :
    runInstrs (i :: is) s = andThen (exec i s) (runInstrs is) := rfl

@[simp] theorem runWords_nil (s : State) : runWords [] s = .next s := rfl

@[simp] theorem runWords_cons (w : CmdWord) (ws : List CmdWord) (s : State) :
    runWords (w :: ws) s = andThen (accept w s) (runWords ws) := rfl

/-- Sequencing of results is associative. -/
theorem andThen_assoc (r : Result) (f g : State → Result) :
    andThen (andThen r f) g = andThen r (fun s => andThen (f s) g) := by
  cases r <;> rfl

/-- A concatenation runs its first part and then its second. -/
theorem runInstrs_append (is js : List Instr) (s : State) :
    runInstrs (is ++ js) s = andThen (runInstrs is s) (runInstrs js) := by
  induction is generalizing s with
  | nil => rfl
  | cons i is ih =>
    rw [List.cons_append, runInstrs_cons, runInstrs_cons, andThen_assoc]
    exact congrArg _ (funext ih)

/-- A run whose first part ends in `t` goes on from `t`. -/
theorem runInstrs_append_of_next {is js : List Instr} {s t : State} (h : runInstrs is s = .next t) :
    runInstrs (is ++ js) s = runInstrs js t := by
  rw [runInstrs_append, h, andThen_next]

/-- A command that ends in `t` is followed by the rest from `t`. -/
theorem runInstrs_cons_of_next {i : Instr} {is : List Instr} {s t : State} (h : exec i s = .next t) :
    runInstrs (i :: is) s = runInstrs is t := by
  rw [runInstrs_cons, h, andThen_next]

/-- Accepting a word that decodes to a command is the command. -/
theorem accept_of_command {w : CmdWord} {s : State} {i : Instr} (h : decode s.cfg w = .command i) :
    accept w s = exec i s := by
  simp only [accept, h]

/-- Accepting an illegal word is the refusal E_BADCMD. -/
theorem accept_of_illegal {w : CmdWord} {s : State} {why : Illegal} (h : decode s.cfg w = .illegal why) :
    accept w s = .next (s.respond .eBadcmd 0#28) := by
  simp only [accept, h, refuse]

/-- A word whose command ends in `t` contributes its event, and the trace goes on from `t`. -/
theorem trace_cons_of_next {w : CmdWord} {ws : List CmdWord} {s t : State} (h : accept w s = .next t) :
    trace (w :: ws) s = eventOf (decode s.cfg w) s t :: trace ws t := by
  simp only [trace, h]

/-- What a response appended to RSP: the event of a command that answered once. -/
theorem eventOf_code {d : Decoded} {s t : State} {c : Status} {info : Info}
    (h : t.rsp = s.rsp ++ [rspWord c info]) : (eventOf d s t).code = some c.bits := by
  simp [eventOf, Event.code, h]

end Sys2Proof.Machine
end

