-- ==== Sys2Proof/Laws/Safety.lean ====
section
/-! SUPPORT. The response of a command, read back from the two states; every word is accepted. -/

namespace Sys2Proof.Machine

/-- The code of the response just appended. -/
theorem responseCode_respond {s u : State} (c : Status) (info : Info) (h : u.rsp = s.rsp) :
    responseCode s (u.respond c info) = some c.bits := by
  simp [responseCode, State.respond, h]

/-- The info of the response just appended. -/
theorem responseInfo_respond {s u : State} (c : Status) (info : Info) (h : u.rsp = s.rsp) :
    responseInfo s (u.respond c info) = some info := by
  simp [responseInfo, State.respond, h]

/-- Every word, legal or not, is accepted and completes (`20_memory.md` R61). -/
theorem accept_next (w : CmdWord) (s : State) : ∃ t, accept w s = .next t := by
  unfold accept
  split
  · exact ⟨_, rfl⟩
  · obtain ⟨t, h, -⟩ := exec_effect ‹_› s
    exact ⟨t, h⟩

/-- A decode fault's code is no refusal's code. -/
theorem bits_of_isDecodeFault {c : Status} (h : c.isDecodeFault = true) :
    c.bits ≠ 1#4 ∧ c.bits ≠ 2#4 ∧ c.bits ≠ 3#4 := by
  cases c <;> revert h <;> decide

end Sys2Proof.Machine
end

