-- ==== Sys2Proof/Tests/Slice0.lean ====
section
/-! SUPPORT. Tests. Expected values are those of `spec/95_test_vectors.md` (the vector is named in each comment), of
the examples in the rules, or worked by hand from a rule. Then one witness for the hypotheses of each obligation. -/

namespace Sys2Proof.Tests

open Sys2Proof Sys2Proof.Machine

/-! ## Helpers -/

/-- The next state of a result, if it is one. -/
def next? (r : Result) : Option State :=
  match r with
  | .next s => some s
  | .fault _ => none
  | .refused _ => none

/-- Table and tree of program P1 (the tree T1 of E1), both engines IDLE. -/
def loaded : State :=
  { State.reset with
    ct := [(0x61, ⟨1#8, 0#255⟩), (0x62, ⟨2#8, 3#255⟩), (0x63, ⟨2#8, 1#255⟩)]
    tm := [(0, .leaf 0x61#8), (1, .leaf 0x62#8), (2, .leaf 0x63#8), (3, .internal 2#9 1#9), (4, .internal 0#9 3#9)]
    root := 4#9, rootV := true, cur := 4#9 }

/-- `loaded` with its engines in the given states. -/
def sample (e : EngineState) (ee : Status) (d : EngineState) (de : Status) (cur : Idx) : State :=
  { loaded with encSt := e, encErr := ee, decSt := d, decErr := de, cur := cur }

def encoding : State := sample .active .ok .idle .ok 4#9
def encFaulted : State := sample .faulted .eUnksym .idle .ok 4#9
def decoding : State := sample .idle .ok .active .ok 4#9
def midCode : State := sample .idle .ok .active .ok 3#9
def decFaulted : State := sample .idle .ok .faulted .eBadtree 4#9

/-- The one-leaf tree of K14: TM[0] = leaf 'a', ROOT = CUR = 0, a transaction open. -/
def leafRoot : State :=
  { State.reset with tm := [(0, .leaf 0x61#8)], rootV := true, decSt := .active }

/-- `a`, `b`, `c` of E1: the tree T1 and its code table. -/
def treeT1 : Tree := .internal 6 (.leaf 0x61#8 3) (.internal 3 (.leaf 0x63#8 1) (.leaf 0x62#8 2))
def treeT2 : Tree := .internal 6 (.internal 3 (.leaf 0x63#8 1) (.leaf 0x62#8 2)) (.leaf 0x61#8 3)

/-- "aaabbc". -/
def inputP1 : List Sym := [0x61#8, 0x61#8, 0x61#8, 0x62#8, 0x62#8, 0x63#8]

def freqE1 : List FreqEntry := [(0x61#8, 3), (0x62#8, 2), (0x63#8, 1)]

/-! ## WellFormed: one ill-formed term for each check, refused -/

/-- V6: a length of 0. -/
theorem test_wellFormed_refuses_len_zero :
    ¬ (Instr.ctWrite 0x61#8 0#9 0#255).WellFormed Config.recommended := fun h => absurd h.1 (by decide)

/-- V8: a length above MAXH. -/
theorem test_wellFormed_refuses_len_above_maxh :
    ¬ (Instr.ctWrite 0x61#8 256#9 0#255).WellFormed Config.recommended := fun h => absurd h.2.1 (by decide)

/-- Section 4.2: with MAXH = 32 a length of 33. -/
theorem test_wellFormed_refuses_len_33_under_32 :
    ¬ (Instr.ctWrite 0x61#8 33#9 0#255).WellFormed ⟨32#8⟩ := fun h => absurd h.2.1 (by decide)

/-- V7: a set bit at position `len`. -/
theorem test_wellFormed_refuses_bit_above_len :
    ¬ (Instr.ctWrite 0x61#8 2#9 4#255).WellFormed Config.recommended :=
  fun h => absurd (h.2.2 ⟨2, by decide⟩ (by decide)) (by decide)

/-- `CT_WRITE 'b', "11"` is accepted. -/
theorem test_wellFormed_accepts_b_11 :
    (Instr.ctWrite 0x62#8 2#9 3#255).WellFormed Config.recommended := ctWriteChecks_pass.1 (by decide)

/-! ## Decoding: the words of section 3 -/

theorem test_decode_nop : decode Config.recommended
    0x000000000000000000000000000000000000000000000000000000000000000000000#276 = .command .nop := by decide

theorem test_decode_ctClear : decode Config.recommended
    0x100000000000000000000000000000000000000000000000000000000000000000000#276 = .command .ctClear := by decide

theorem test_decode_ctWrite : decode Config.recommended
    0x24102000000000000000000000000000000000000000000000000000000000000000B#276
    = .command (.ctWrite 0x41#8 4#9 0xB#255) := by decide

theorem test_decode_trClear : decode Config.recommended
    0x300000000000000000000000000000000000000000000000000000000000000000000#276 = .command .trClear := by decide

theorem test_decode_trLeaf : decode Config.recommended
    0x462008000000000000000000000000000000000000000000000000000000000000000#276
    = .command (.trLeaf 1#9 0x62#8) := by decide

theorem test_decode_trNode : decode Config.recommended
    0x500020000000000000000000000000000000000000000000000000000000000000600#276
    = .command (.trNode 4#9 0#9 3#9) := by decide

theorem test_decode_trNode_all_ones : decode Config.recommended
    0x500FF800000000000000000000000000000000000000000000000000000000003FFFF#276
    = .command (.trNode 511#9 511#9 511#9) := by decide

theorem test_decode_trRoot : decode Config.recommended
    0x600020000000000000000000000000000000000000000000000000000000000000000#276 = .command (.trRoot 4#9) := by decide

theorem test_decode_rdReg_status : decode Config.recommended
    0x700000000000000000000000000000000000000000000000000000000000000000000#276
    = .command (.rdReg .status) := by decide

theorem test_decode_rdReg_decptr : decode Config.recommended
    0x701000000000000000000000000000000000000000000000000000000000000000000#276
    = .command (.rdReg .decptr) := by decide

theorem test_decode_rdReg_config : decode Config.recommended
    0x702000000000000000000000000000000000000000000000000000000000000000000#276
    = .command (.rdReg .config) := by decide

theorem test_decode_encStart : decode Config.recommended
    0x800000000000000000000000000000000000000000000000000000000000000000000#276 = .command .encStart := by decide

theorem test_decode_encSym : decode Config.recommended
    0x961000000000000000000000000000000000000000000000000000000000000000000#276
    = .command (.encSym 0x61#8) := by decide

theorem test_decode_encEnd : decode Config.recommended
    0xA00000000000000000000000000000000000000000000000000000000000000000000#276 = .command .encEnd := by decide

theorem test_decode_decStart : decode Config.recommended
    0xB00000000000000000000000000000000000000000000000000000000000000000000#276 = .command .decStart := by decide

theorem test_decode_decBit : decode Config.recommended
    0xC31000000000000000000000000000000000000000000000000000000000000000000#276
    = .command (.decBit 0x31#8) := by decide

theorem test_decode_decEnd : decode Config.recommended
    0xD00000000000000000000000000000000000000000000000000000000000000000000#276 = .command .decEnd := by decide

/-- V3. -/
theorem test_decode_reservedE : decode Config.recommended
    0xE00000000000000000000000000000000000000000000000000000000000000000000#276
    = .command (.reservedE 0#272) := by decide

/-- V4. -/
theorem test_decode_reservedF : decode Config.recommended
    0xF00000000000000000000000000000000000000000000000000000000000000000005#276
    = .command (.reservedF 5#272) := by decide

/-- V1. -/
theorem test_decode_refuses_nop_with_A : decode Config.recommended
    0x001000000000000000000000000000000000000000000000000000000000000000000#276 = .illegal .nonzeroA := by decide

/-- V5. -/
theorem test_decode_refuses_ctClear_with_B : decode Config.recommended
    0x100008000000000000000000000000000000000000000000000000000000000000000#276 = .illegal .nonzeroB := by decide

/-- V31: C[254] is set. -/
theorem test_decode_refuses_decEnd_with_C254 : decode Config.recommended
    0xD00004000000000000000000000000000000000000000000000000000000000000000#276 = .illegal .nonzeroC := by decide

/-- V6. -/
theorem test_decode_refuses_len_zero : decode Config.recommended
    0x261000000000000000000000000000000000000000000000000000000000000000000#276 = .illegal .lenZero := by decide

/-- V9. -/
theorem test_decode_refuses_len_511 : decode Config.recommended
    0x261FF8000000000000000000000000000000000000000000000000000000000000000#276 = .illegal .lenAboveMaxh := by decide

/-- V7. -/
theorem test_decode_refuses_bit_above_len : decode Config.recommended
    0x261010000000000000000000000000000000000000000000000000000000000000004#276 = .illegal .codeAboveLen := by decide

/-- V21. -/
theorem test_decode_refuses_regno_three : decode Config.recommended
    0x703000000000000000000000000000000000000000000000000000000000000000000#276 = .illegal .regnoThree := by decide

/-- V17: bit 18 of C, just above the right child. -/
theorem test_decode_refuses_trNode_C18 : decode Config.recommended
    0x500000000000000000000000000000000000000000000000000000000000000040000#276 = .illegal .nonzeroC := by decide

/-- V10: 255 symbols, all '1'. -/
theorem test_encode_longest_code : encode (.ctWrite 0x61#8 255#9 (BitVec.allOnes 255)) =
    0x2617FFFFFFFFFFFFFFFFFFFFFFFFFFFFFFFFFFFFFFFFFFFFFFFFFFFFFFFFFFFFFFFFF#276 := by decide

/-- The opcode map is the list of OP values in order. -/
theorem test_opcodes_in_order : ∀ i : Fin 16, (opcodes.get i).bits = BitVec.ofNat 4 i.val := by decide

/-- No word matches two rows: their `match` values already differ where both masks hold. -/
theorem test_rows_disjoint : ∀ i j : Fin 16, i ≠ j →
    (opcodes.get i).pattern &&& (opcodes.get j).mask ≠ (opcodes.get j).pattern := by decide

/-- The host's two questions, on `ENC_START`. -/
theorem test_decodeTableWord_encStart :
    decodeTableWord 280 0x800000000000000000000000000000000000000000000000000000000000000000000
    = some .encStart := by decide

theorem test_withFetchWord_runs_encStart :
    next? (step (State.reset.withFetchWord 280
      0x800000000000000000000000000000000000000000000000000000000000000000000))
    = some { State.reset with encSt := .active, rsp := [0#32] } := by decide

/-! ## Operands -/

/-- Section 3: "1101" is 0xB, "011" is 0x6, "10" is 0x1. -/
theorem test_codeBits :
    codeBits [true, true, false, true] = 0xB#255 ∧ codeBits [false, true, true] = 6#255 ∧
    codeBits [true, false] = 1#255 := by decide

/-- `20_memory.md` R52: `v` is bit 263 and `len` is 262:255. -/
theorem test_ctEntry_bits :
    (⟨2#8, 3#255⟩ : CtEntry).bits.extractLsb' 255 9 = 0x102#9 ∧
    (⟨2#8, 3#255⟩ : CtEntry).bits.extractLsb' 0 255 = 3#255 := by decide

/-- `20_memory.md` R54: the two shapes of a TM entry. -/
theorem test_tmNode_bits :
    (TmNode.leaf 0x61#8).bits = 0xD840000#28 ∧ (TmNode.internal 2#9 1#9).bits = 0x8000401#28 := by decide

/-- `60_exceptions.md` R170: nine codes, and 9 to 15 name none. -/
theorem test_status_codes : ∀ b : BitVec 4, (Status.ofBits b).isSome = decide (b.toNat ≤ 8) := by decide

/-- `60_exceptions.md` R170, column class: 1 to 3 are refusals, 4 to 8 transaction faults, 0 neither. -/
theorem test_status_classes : ∀ b : BitVec 4, ∀ c ∈ Status.ofBits b,
    c.isRefusal = decide (1 ≤ b.toNat ∧ b.toNat ≤ 3) ∧ c.isTransactionFault = decide (4 ≤ b.toNat) := by decide

/-! ## One step of each command -/

/-- L2. -/
theorem test_nop : next? (exec .nop (sample .active .ok .faulted .eBadch 4#9))
    = some { sample .active .ok .faulted .eBadch 4#9 with rsp := [0#32] } := by decide

/-- L3. -/
theorem test_ctClear : next? (exec .ctClear loaded) = some { loaded with ct := [], rsp := [0#32] } := by decide

/-- L4. -/
theorem test_ctClear_busy : next? (exec .ctClear encoding) = some { encoding with rsp := [0x30000000#32] } := by
  decide

/-- L7: the entry is replaced. -/
theorem test_ctWrite_replaces : (next? (exec (.ctWrite 0x61#8 2#9 3#255) loaded)).map (fun t => t.ctRead 0x61#8)
    = some (some ⟨2#8, 3#255⟩) := by decide

/-- L6: E_BADCMD before E_BUSY. -/
theorem test_ctWrite_badcmd_first : next? (exec (.ctWrite 0x61#8 0#9 0#255) encoding)
    = some { encoding with rsp := [0x10000000#32] } := by decide

/-- L9: CUR is not written. -/
theorem test_trClear : next? (exec .trClear loaded)
    = some { loaded with tm := [], root := 0#9, rootV := false, rsp := [0#32] } := by decide

/-- L13: an internal entry becomes a leaf. -/
theorem test_trLeaf_replaces : (next? (exec (.trLeaf 3#9 0x71#8) loaded)).map (fun t => t.tmRead 3#9)
    = some (some (.leaf 0x71#8)) := by decide

/-- L10. -/
theorem test_trLeaf_busy : next? (exec (.trLeaf 0#9 0x61#8) decoding)
    = some { decoding with rsp := [0x30000000#32] } := by decide

/-- L14: the children are not checked. -/
theorem test_trNode : (next? (exec (.trNode 4#9 0#9 3#9) State.reset)).map (fun t => t.tm)
    = some [(4, .internal 0#9 3#9)] := by decide

/-- L15. -/
theorem test_trRoot : next? (exec (.trRoot 9#9) State.reset)
    = some { State.reset with root := 9#9, rootV := true, rsp := [0#32] } := by decide

/-- L16. -/
theorem test_rdReg_status : (next? (exec (.rdReg .status) (sample .active .ok .faulted .eBadch 4#9))).map
    (fun t => t.rsp) = some [0x00000681#32] := by decide

/-- L17. -/
theorem test_rdReg_decptr : (next? (exec (.rdReg .decptr) midCode)).map (fun t => t.rsp)
    = some [0x00040803#32] := by decide

/-- Section 4.2, MAXH = 32. -/
theorem test_rdReg_config : (next? (exec (.rdReg .config) (State.resetWith ⟨32#8⟩))).map (fun t => t.rsp)
    = some [0x00000020#32] := by decide

/-- N1: the old error code is cleared. -/
theorem test_encStart : next? (exec .encStart (sample .idle .eUnksym .idle .ok 4#9))
    = some { loaded with encSt := .active, rsp := [0#32] } := by decide

/-- N6. -/
theorem test_encSym_c : next? (exec (.encSym 0x63#8) encoding)
    = some { encoding with encOut := [0x31#8, 0x30#8], rsp := [0#32] } := by decide

/-- N7. -/
theorem test_encSym_unknown : next? (exec (.encSym 0x64#8) encoding)
    = some { encoding with encSt := .faulted, encErr := .eUnksym, rsp := [0x40000064#32] } := by decide

/-- N11: the error code stays. -/
theorem test_encEnd_faulted : next? (exec .encEnd encFaulted)
    = some { encFaulted with encSt := .idle, rsp := [0x40000000#32] } := by decide

/-- K1. -/
theorem test_decStart : next? (exec .decStart (sample .idle .ok .idle .eMalformed 3#9))
    = some { loaded with decSt := .active, rsp := [0#32] } := by decide

/-- K5: a leaf is reached, and the pointer is at the root again. -/
theorem test_decBit_leaf : next? (exec (.decBit 0x30#8) midCode)
    = some { midCode with cur := 4#9, decOut := [0x63#8], rsp := [0#32] } := by decide

/-- K9: all 8 bits of the character are compared. -/
theorem test_decBit_badch : next? (exec (.decBit 0xB1#8) decoding)
    = some { decoding with decSt := .faulted, decErr := .eBadch, rsp := [0x600000B1#32] } := by decide

/-- K20. -/
theorem test_decEnd_mid_code : next? (exec .decEnd midCode)
    = some { midCode with decSt := .idle, decErr := .eMalformed, rsp := [0x50000003#32] } := by decide

/-- K19. -/
theorem test_decEnd_at_root : next? (exec .decEnd decoding)
    = some { decoding with decSt := .idle, rsp := [0#32] } := by decide

/-- V3, V4. -/
theorem test_reserved : next? (exec (.reservedE 0#272) loaded) = some { loaded with rsp := [0x10000000#32] } ∧
    next? (exec (.reservedF 5#272) loaded) = some { loaded with rsp := [0x10000000#32] } := by decide

/-- Z1: reset in the middle of two transactions, with words waiting. -/
theorem test_reset : hostStep .reset { sample .faulted .eUnksym .active .ok 3#9 with
    cmd := [0#276, 0#276], rsp := [0#32], encOut := [0x30#8], decOut := [0x61#8] } = State.reset := by decide

/-! ## Memories -/

/-- A write lands in order and replaces; the canonical form is kept. -/
theorem test_memory_write : Memory.write [(1, 'a'), (4, 'b')] 2 'c' = [(1, 'a'), (2, 'c'), (4, 'b')] ∧
    Memory.write [(1, 'a'), (4, 'b')] 4 'c' = [(1, 'a'), (4, 'c')] := by decide

theorem test_reset_memories : Memory.wf Config.alpha State.reset.ct ∧ Memory.wf Config.nodes State.reset.tm := by
  decide

/-! ## The environment's vectors -/

/-- E1. -/
theorem test_freqTable : freqTable inputP1 = freqE1 := by decide

/-- E2. -/
theorem test_codes : codes treeT1 = [(0x61#8, [false]), (0x63#8, [true, false]), (0x62#8, [true, true])] ∧
    codes treeT2 = [(0x63#8, [false, false]), (0x62#8, [false, true]), (0x61#8, [true])] := by decide

/-- E2: "000111110". -/
theorem test_encodedStream : encodedStream (codes treeT1) inputP1
    = [false, false, false, true, true, true, true, true, false] := by decide

/-- E4: the one-symbol code. -/
theorem test_codes_one_leaf : codes (.leaf 0x61#8 4) = [(0x61#8, [false])] := by decide

/-- E6: the unique tree of "abbcccc". -/
theorem test_buildTree : buildTree [(0x61#8, 1), (0x62#8, 2), (0x63#8, 4)]
    = some (.internal 7 (.internal 3 (.leaf 0x61#8 1) (.leaf 0x62#8 2)) (.leaf 0x63#8 4)) := by decide

/-- E7: the array after `build`. -/
theorem test_heap_build : (Heap.build freqE1).nodes = [.leaf 0x63#8 1, .leaf 0x62#8 2, .leaf 0x61#8 3] := by decide

/-- E7: the comparison of sift-up is strict. -/
theorem test_heap_insert_tie :
    (⟨[.leaf 0x61#8 3], 2⟩ : Heap).insert (.leaf 0x62#8 3) = .ok ⟨[.leaf 0x61#8 3, .leaf 0x62#8 3], 2⟩ := by decide

/-- E7: insertion into a full heap, extraction from an empty one. -/
theorem test_heap_limits :
    (⟨[.leaf 0x61#8 3], 1⟩ : Heap).insert (.leaf 0x62#8 3) = .error .capacityExceeded ∧
    (⟨[], 1⟩ : Heap).extractMin = none := by decide

/-- P1, lines 5 to 11: the commands of `LOAD_TREE(T1)`. -/
theorem test_loadTree : loadTree treeT1 = [.trClear, .trLeaf 0#9 0x61#8, .trLeaf 1#9 0x62#8, .trLeaf 2#9 0x63#8,
    .trNode 3#9 2#9 1#9, .trNode 4#9 0#9 3#9, .trRoot 4#9] := by decide

/-- P1, lines 1 to 4: the commands of `LOAD_TABLE(codes(T1))`. -/
theorem test_loadTable : loadTable (codes treeT1) = [.ctClear, .ctWrite 0x61#8 1#9 0#255,
    .ctWrite 0x62#8 2#9 3#255, .ctWrite 0x63#8 2#9 1#255] := by decide

/-! ## Witnesses: the hypotheses of each obligation can be met -/

/-- Every sample state with consistent engines meets the invariant. -/
theorem sample_inv {e : EngineState} {ee : Status} {d : EngineState} {de : Status} {cur : Idx}
    (h₁ : ee = .ok ∨ ee = .eUnksym) (h₂ : e = .active → ee = .ok) (h₃ : e = .faulted → ee = .eUnksym)
    (h₄ : de = .ok ∨ de.isDecodeFault = true) (h₅ : d = .active → de = .ok)
    (h₆ : d = .faulted → de.isDecodeFault = true) (h₇ : cur = 4#9 ∨ cur = 3#9) : Inv (sample e ee d de cur) where
  legal := (by decide : loaded.cfg.Legal)
  ctForm := (by decide : Memory.wf Config.alpha loaded.ct)
  tmForm := (by decide : Memory.wf Config.nodes loaded.tm)
  rootUnset := fun h => by simp [sample, loaded] at h
  encErrRange := h₁
  encActive := h₂
  encFaulted := h₃
  decErrRange := h₄
  decActive := h₅
  decFaulted := h₆
  ctGood := fun x k h => by
    have hm : k = ⟨1#8, 0#255⟩ ∨ k = ⟨2#8, 3#255⟩ ∨ k = ⟨2#8, 1#255⟩ := by
      simp only [State.ctRead, sample, loaded, Memory.read] at h
      split_ifs at h <;> simp_all
    have good : ∀ (l : BitVec 9) (c : CodeBits), (ctWriteChecks Config.recommended l c).all (fun b => !b.1) = true →
        (⟨l.setWidth 8, c⟩ : CtEntry).len.toNat = l.toNat →
        (⟨l.setWidth 8, c⟩ : CtEntry).Good Config.recommended := fun l c hc hl => by
      have := ctWriteChecks_pass.1 (by simpa using hc)
      refine ⟨by rw [hl]; exact this.1, by rw [hl]; exact this.2.1, fun i hi => ?_⟩
      by_cases hlt : i < 255
      · exact this.2.2 ⟨i, hlt⟩ (by rwa [hl] at hi)
      · exact BitVec.getLsbD_of_ge _ _ (by omega)
    rcases hm with rfl | rfl | rfl
    · exact good 1#9 0#255 (by decide) (by decide)
    · exact good 2#9 3#255 (by decide) (by decide)
    · exact good 2#9 1#255 (by decide) (by decide)
  curRests := fun _ => by
    rcases h₇ with rfl | rfl
    · exact .inl rfl
    · exact .inr ⟨2#9, 1#9, rfl⟩
  leafRoot := fun _ x h => by simp [State.tmRead, sample, loaded, Memory.read] at h

theorem loaded_inv : Inv loaded :=
  sample_inv (e := .idle) (ee := .ok) (d := .idle) (de := .ok) (cur := 4#9)
    (by decide) (by decide) (by decide) (by decide) (by decide) (by decide) (by decide)

theorem encoding_inv : Inv encoding :=
  sample_inv (by decide) (by decide) (by decide) (by decide) (by decide) (by decide) (by decide)

theorem encFaulted_inv : Inv encFaulted :=
  sample_inv (by decide) (by decide) (by decide) (by decide) (by decide) (by decide) (by decide)

theorem decoding_inv : Inv decoding :=
  sample_inv (by decide) (by decide) (by decide) (by decide) (by decide) (by decide) (by decide)

theorem midCode_inv : Inv midCode :=
  sample_inv (by decide) (by decide) (by decide) (by decide) (by decide) (by decide) (by decide)

theorem decFaulted_inv : Inv decFaulted :=
  sample_inv (by decide) (by decide) (by decide) (by decide) (by decide) (by decide) (by decide)

theorem leafRoot_inv : Inv leafRoot where
  legal := by decide
  ctForm := by decide
  tmForm := by decide
  rootUnset := by decide
  encErrRange := by decide
  encActive := by decide
  encFaulted := by decide
  decErrRange := by decide
  decActive := by decide
  decFaulted := by decide
  ctGood := fun x k h => by simp [State.ctRead, leafRoot, State.reset, State.resetWith] at h
  curRests := by decide
  leafRoot := fun _ _ _ => rfl

theorem witness_NopAnswersOk : (0#276).extractLsb' 272 4 = 0x0#4 ∧ (1#276).extractLsb' 272 4 = 0x0#4 ∧
    (0#276).extractLsb' 0 272 = 0#272 ∧ (1#276).extractLsb' 0 272 ≠ 0#272 := by decide

theorem witness_CtClearEmptiesTable : loaded.encSt = .idle ∧ encoding.encSt ≠ .idle ∧ encFaulted.encSt ≠ .idle ∧
    (encode .ctClear).extractLsb' 272 4 = 0x1#4 := by decide

/-- Lengths at both ends of the range, and one beyond each. -/
theorem witness_CtWriteStoresCode : (0#9).toNat < 1 ∧ loaded.cfg.maxh.toNat < (256#9).toNat ∧
    (∃ i : Fin 255, (2#9).toNat ≤ i.val ∧ (4#255).getLsbD i = true) ∧
    ctWriteLegal loaded.cfg 1#9 1#255 ∧ ctWriteLegal loaded.cfg 255#9 (BitVec.allOnes 255) ∧
    encoding.encSt ≠ .idle ∧ loaded.encSt = .idle ∧
    (encode (.ctWrite 0x61#8 0#9 0#255)).extractLsb' 272 4 = 0x2#4 :=
  ⟨by decide, by decide, ⟨2, by decide⟩, ctWriteChecks_pass.1 (by decide), ctWriteChecks_pass.1 (by decide),
    by decide, by decide, by decide⟩

theorem witness_TrClearForgetsTree : loaded.decSt = .idle ∧ decoding.decSt ≠ .idle ∧
    (encode .trClear).extractLsb' 272 4 = 0x3#4 := by decide

theorem witness_TrLeafWritesLeaf : loaded.decSt = .idle ∧ decFaulted.decSt ≠ .idle ∧
    (encode (.trLeaf 511#9 0xFF#8)).extractLsb' 272 4 = 0x4#4 := by decide

theorem witness_TrNodeWritesNode : loaded.decSt = .idle ∧ decoding.decSt ≠ .idle ∧
    (encode (.trNode 511#9 511#9 511#9)).extractLsb' 272 4 = 0x5#4 ∧
    (encode (.trNode 511#9 511#9 511#9)).extractLsb' 18 237 = 0#237 := by decide

theorem witness_TrRootNamesRoot : loaded.decSt = .idle ∧ decoding.decSt ≠ .idle ∧
    (encode (.trRoot 511#9)).extractLsb' 272 4 = 0x6#4 := by decide

theorem witness_RdRegReadsViews : (encode (.rdReg .status)).extractLsb' 272 4 = 0x7#4 ∧
    (encode (.rdReg .config)).extractLsb' 0 264 = 0#264 ∧
    (packWord .rdReg 3#8 0#9 0#255).extractLsb' 272 4 = 0x7#4 := by decide

theorem witness_ReservedOpcodesRefused : (encode (.reservedE 7#272)).extractLsb' 272 4 = 0xE#4 ∧
    (encode (.reservedF 7#272)).extractLsb' 272 4 = 0xF#4 := by decide

theorem witness_EncStartOpensTransaction : loaded.encSt = .idle ∧ encFaulted.encSt ≠ .idle ∧
    (encode .encStart).extractLsb' 272 4 = 0x8#4 := by decide

theorem witness_EncSymEmitsCode : loaded.encSt = .idle ∧ encFaulted.encSt = .faulted ∧
    encoding.encSt = .active ∧ encoding.ct.read (0x64#8).toNat = none ∧
    encoding.ct.read (0x63#8).toNat = some ⟨2#8, 1#255⟩ ∧
    (encode (.encSym 0xFF#8)).extractLsb' 272 4 = 0x9#4 := by decide

theorem witness_EncEndClosesTransaction : loaded.encSt = .idle ∧ encFaulted.encSt = .faulted ∧
    encoding.encSt = .active ∧ (encode .encEnd).extractLsb' 272 4 = 0xA#4 := by decide

theorem witness_DecStartPutsPointerAtRoot : loaded.decSt = .idle ∧ midCode.decSt ≠ .idle ∧
    (encode .decStart).extractLsb' 272 4 = 0xB#4 := by decide

/-- One state for each path of DEC_BIT: idle, replay, E_BADCH, E_NOTREE, E_BADTREE at CUR, a leaf root, a missing
child, a leaf child, an internal child. -/
theorem witness_DecBitWalksOneEdge : loaded.decSt = .idle ∧ decFaulted.decSt = .faulted ∧
    (decoding.decSt = .active ∧ 0x2F#8 ≠ 0x30#8 ∧ 0x32#8 ≠ 0x31#8) ∧
    (let s := { State.reset with decSt := .active }; s.decSt = .active ∧ s.rootV = false) ∧
    (let s := { decoding with root := 7#9, cur := 7#9 }; s.rootV = true ∧ s.tm.read s.cur.toNat = none) ∧
    (leafRoot.rootV = true ∧ leafRoot.tm.read leafRoot.cur.toNat = some (.leaf 0x61#8)) ∧
    decoding.tm.read decoding.cur.toNat = some (.internal 0#9 3#9) ∧
    (let s := { decoding with tm := [(4, .internal 0#9 3#9)] }; s.tm.read (3#9).toNat = none) ∧
    decoding.tm.read (0#9).toNat = some (.leaf 0x61#8) ∧
    decoding.tm.read (3#9).toNat = some (.internal 2#9 1#9) ∧
    (encode (.decBit 0x30#8)).extractLsb' 272 4 = 0xC#4 := by decide

theorem witness_DecEndChecksCodeBoundary : loaded.decSt = .idle ∧ decFaulted.decSt = .faulted ∧
    (midCode.decSt = .active ∧ midCode.cur ≠ midCode.root) ∧
    (decoding.decSt = .active ∧ decoding.cur = decoding.root) ∧
    (encode .decEnd).extractLsb' 272 4 = 0xD#4 := by decide

/-- A cycle in which every channel transfers. -/
def busyCycle : PortCycle := ⟨false, true, true, 0#276, true, true, 0#32, true, true, 0x30#8, true, true, 0x61#8⟩

theorem witness_ResetFromAnyState : ({ busyCycle with rst := true } : PortCycle).rst = true := by decide

theorem witness_StepRunsDecodedCommand : ({ loaded with cmd := [0#276] } : State).cmd = 0#276 :: [] ∧
    decode loaded.cfg 0#276 = .command .nop := by decide

theorem witness_StepRefusesIllegalWord : ({ loaded with cmd := [1#276] } : State).cmd = 1#276 :: [] ∧
    decode loaded.cfg 1#276 = .illegal .nonzeroC := by decide

theorem witness_WaitingBlockKeepsState : loaded.cmd = [] := by decide

theorem witness_DecodeOfEncode : (Instr.ctWrite 0x61#8 255#9 (BitVec.allOnes 255)).WellFormed Config.recommended ∧
    (Instr.ctWrite 0x61#8 1#9 1#255).WellFormed ⟨1#8⟩ :=
  ⟨ctWriteChecks_pass.1 (by decide), ctWriteChecks_pass.1 (by decide)⟩

theorem witness_NoBitIgnored : decode ⟨1#8⟩ (encode (.ctWrite 0x61#8 1#9 1#255)) =
    .command (.ctWrite 0x61#8 1#9 1#255) := by decide

/-- A row of the table, the row with a constraint at its boundary, and the two reserved rows (log 7): the word matches
the row and decodes to it. -/
theorem witness_DecoderAgreesWithOpcodeTable :
    (encode .nop &&& Opcode.nop.mask = Opcode.nop.pattern ∧ decode ⟨1#8⟩ (encode .nop) = .command .nop) ∧
    (let w := encode (.ctWrite 0x61#8 1#9 1#255)
     w &&& Opcode.ctWrite.mask = Opcode.ctWrite.pattern ∧
       decode ⟨1#8⟩ w = .command (.ctWrite 0x61#8 1#9 1#255)) ∧
    ctWriteLegal ⟨1#8⟩ ((encode (.ctWrite 0x61#8 1#9 1#255)).extractLsb' 255 9)
      ((encode (.ctWrite 0x61#8 1#9 1#255)).extractLsb' 0 255) ∧
    (let w := encode (.reservedE (BitVec.allOnes 272))
     w &&& Opcode.reservedE.mask = Opcode.reservedE.pattern ∧
       decode ⟨1#8⟩ w = .command (.reservedE (BitVec.allOnes 272))) ∧
    (let w := encode (.reservedF 7#272)
     w &&& Opcode.reservedF.mask = Opcode.reservedF.pattern ∧
       decode ⟨1#8⟩ w = .command (.reservedF 7#272)) :=
  ⟨by decide, by decide, ctWriteChecks_pass.1 (by decide), by decide, by decide⟩

theorem witness_EveryCommandAnswersOnce : Inv encoding := encoding_inv

theorem witness_RefusalChangesNothing : Inv encoding ∧
    accept (encode .encStart) encoding = .next { encoding with rsp := [0x20000000#32] } ∧
    responseCode encoding { encoding with rsp := [0x20000000#32] } = some 2#4 :=
  ⟨encoding_inv, rfl, by decide⟩

theorem witness_FaultEntryReplayAndReturn : Inv encoding ∧
    exec (.encSym 0x64#8) encoding =
      .next { encoding with encSt := .faulted, encErr := .eUnksym, rsp := [0x40000064#32] } ∧
    responseCode encoding { encoding with encSt := .faulted, encErr := .eUnksym, rsp := [0x40000064#32] }
      = some 4#4 ∧ 4 ≤ (4#4).toNat :=
  ⟨encoding_inv, rfl, by decide, by decide⟩

/-- Each of the eleven pieces of state is changed by some command. -/
theorem witness_EachStateWrittenOnlyBy :
    (next? (exec .encStart loaded)).any (fun t => t.encSt ≠ loaded.encSt) ∧
    (next? (exec (.encSym 0#8) encoding)).any (fun t => t.encErr ≠ encoding.encErr) ∧
    (next? (exec .decStart loaded)).any (fun t => t.decSt ≠ loaded.decSt) ∧
    (next? (exec (.decBit 0#8) decoding)).any (fun t => t.decErr ≠ decoding.decErr) ∧
    (next? (exec (.decBit 0x31#8) decoding)).any (fun t => t.cur ≠ decoding.cur) ∧
    (next? (exec (.trRoot 9#9) loaded)).any (fun t => t.root ≠ loaded.root) ∧
    (next? (exec .trClear loaded)).any (fun t => t.rootV ≠ loaded.rootV) ∧
    (next? (exec .ctClear loaded)).any (fun t => t.ct ≠ loaded.ct) ∧
    (next? (exec (.trLeaf 9#9 0#8) loaded)).any (fun t => t.tm ≠ loaded.tm) ∧
    (next? (exec (.encSym 0x61#8) encoding)).any (fun t => t.encOut ≠ encoding.encOut) ∧
    (next? (exec (.decBit 0x30#8) decoding)).any (fun t => t.decOut ≠ decoding.decOut) := by decide

theorem witness_OpenTransactionFreezesTables :
    (exec .ctClear encoding = .next { encoding with rsp := [0x30000000#32] } ∧ encoding.encSt ≠ .idle) ∧
    (exec (.trRoot 9#9) decoding = .next { decoding with rsp := [0x30000000#32] } ∧ decoding.decSt ≠ .idle) :=
  ⟨⟨rfl, by decide⟩, rfl, by decide⟩

/-- One state for each row of R43's table; every command gives a next state in each. -/
theorem witness_EngineTransitionTable :
    (Inv loaded ∧ loaded.encSt = .idle ∧ loaded.decSt = .idle) ∧
    (Inv encoding ∧ encoding.encSt = .active) ∧ (Inv encFaulted ∧ encFaulted.encSt = .faulted) ∧
    (Inv decoding ∧ decoding.decSt = .active ∧ decoding.cur = decoding.root) ∧
    (Inv midCode ∧ midCode.decSt = .active ∧ midCode.cur ≠ midCode.root) ∧
    (Inv decFaulted ∧ decFaulted.decSt = .faulted) ∧
    (∀ i ∈ [Instr.encStart, .encSym 0x61#8, .encEnd, .decStart, .decBit 0x30#8, .decEnd, .nop],
      ∀ s ∈ [loaded, encoding, encFaulted, decoding, midCode, decFaulted], (next? (exec i s)).isSome) :=
  ⟨⟨loaded_inv, by decide⟩, ⟨encoding_inv, by decide⟩, ⟨encFaulted_inv, by decide⟩, ⟨decoding_inv, by decide⟩,
    ⟨midCode_inv, by decide⟩, ⟨decFaulted_inv, by decide⟩, by decide⟩

theorem witness_FirstFaultStaysUntilEnd : encFaulted.encSt = .faulted ∧
    .encEnd ∉ [Instr.encSym 0x61#8, .ctClear, .nop] ∧ decFaulted.decSt = .faulted ∧
    .decEnd ∉ [Instr.decBit 0x30#8, .trClear, .nop] := by decide

/-- The two memories differ at an entry that DEC_BIT '0' at CUR = 4 does not read. -/
theorem witness_DecBitReadsTwoEntries :
    (next? (exec (.decBit 0x30#8) decoding)).isSome ∧
    (let tm' : Memory TmNode := [(0, .leaf 0x61#8), (4, .internal 0#9 3#9)]
     tm' ≠ decoding.tm ∧ tm'.read decoding.cur.toNat = decoding.tm.read decoding.cur.toNat ∧
       tm'.read (0#9).toNat = decoding.tm.read (0#9).toNat) := by decide

theorem witness_ResetMeetsInvariant : Config.Legal ⟨1#8⟩ ∧ Config.Legal ⟨255#8⟩ := by decide

theorem witness_StepKeepsInvariant : Inv loaded ∧ step loaded = .next loaded := ⟨loaded_inv, rfl⟩

theorem witness_ReachableStatesMeetInvariant : Config.Legal ⟨1#8⟩ := by decide

theorem witness_HostKeepsInvariant : Inv midCode ∧ HostAction.takeRsp ≠ .reset ∧ busyCycle.rst = false :=
  ⟨midCode_inv, by decide, by decide⟩

theorem witness_ChannelTransfersAtClockEdge : busyCycle.rst = false ∧
    busyCycle.Faithful { loaded with rsp := [0#32], encOut := [0x30#8], decOut := [0x61#8] } := by decide

theorem witness_EncoderIndependentOfDecoder : isEncoderSide (.encSym 0x61#8) = true ∧
    SameEncoder encoding { State.reset with encSt := .active, ct := encoding.ct } ∧
    (next? (exec (.encSym 0x61#8) encoding)).isSome ∧
    (next? (exec (.encSym 0x61#8) { State.reset with encSt := .active, ct := encoding.ct })).isSome :=
  ⟨by decide, ⟨rfl, rfl, rfl, rfl⟩, by decide, by decide⟩

theorem witness_DecoderIndependentOfEncoder : isDecoderSide (.decBit 0x30#8) = true ∧
    SameDecoder decoding { decoding with ct := [], encSt := .active, cfg := ⟨1#8⟩ } ∧
    (next? (exec (.decBit 0x30#8) decoding)).isSome ∧
    (next? (exec (.decBit 0x30#8) { decoding with ct := [], encSt := .active, cfg := ⟨1#8⟩ })).isSome :=
  ⟨by decide, ⟨rfl, rfl, rfl, rfl, rfl, rfl⟩, by decide, by decide⟩

theorem witness_WordsRunTheirCommands :
    ∀ i ∈ [Instr.ctWrite 0x62#8 2#9 3#255, .encStart], i.WellFormed loaded.cfg := by
  intro i hi
  simp only [List.mem_cons, List.not_mem_nil, or_false] at hi
  rcases hi with rfl | rfl
  · exact ctWriteChecks_pass.1 (by decide)
  · exact trivial

/-- The codes of T1 are its table's three entries. -/
theorem codes_treeT1 (x : Sym) (k : Code) (h : (codes treeT1).code? x = some k) :
    k = [false] ∨ k = [true, false] ∨ k = [true, true] := by
  rw [test_codes.1] at h
  simp only [CodeTable.code?] at h
  split_ifs at h <;> simp_all

theorem loaded_tableLoaded : loaded.TableLoaded (codes treeT1) := by
  intro x
  rw [test_codes.1]
  by_cases ha : x = 0x61#8
  · subst ha; exact ⟨_, rfl, rfl, by decide⟩
  by_cases hb : x = 0x62#8
  · subst hb; exact ⟨_, rfl, rfl, by decide⟩
  by_cases hc : x = 0x63#8
  · subst hc; exact ⟨_, rfl, rfl, by decide⟩
  have h1 : CodeTable.code? [(0x61#8, [false]), (0x63#8, [true, false]), (0x62#8, [true, true])] x = none := by
    simp [CodeTable.code?, ha, hb, hc]
  have h2 : loaded.ctRead x = none := by
    have ha' : x.toNat ≠ 0x61 := fun h => ha (BitVec.eq_of_toNat_eq h)
    have hb' : x.toNat ≠ 0x62 := fun h => hb (BitVec.eq_of_toNat_eq h)
    have hc' : x.toNat ≠ 0x63 := fun h => hc (BitVec.eq_of_toNat_eq h)
    simp [State.ctRead, loaded, Memory.read, ha', hb', hc']
  simp only [h1, h2]

theorem loaded_treeLoaded : loaded.TreeLoaded treeT1 :=
  ⟨rfl, 0#9, 3#9, rfl, rfl, 2#9, 1#9, rfl, rfl, rfl⟩

theorem witness_LoadTableLoadsTable : loaded.encSt = .idle ∧
    ∀ x k, (codes treeT1).code? x = some k → 1 ≤ k.length ∧ k.length ≤ loaded.cfg.maxh.toNat := by
  refine ⟨by decide, fun x k h => ?_⟩
  rcases codes_treeT1 x k h with rfl | rfl | rfl <;> decide

theorem witness_LoadTreeLoadsTree : loaded.decSt = .idle ∧ treeT1.symbols.Nodup := by decide

theorem witness_EncodingIsCorrect : loaded.encSt = .idle ∧ loaded.TableLoaded (codes treeT1) ∧
    (∀ x ∈ inputP1, ((codes treeT1).code? x).isSome = true) ∧ (codes treeT1).code? 0x64#8 = none :=
  ⟨by decide, loaded_tableLoaded, by decide, by decide⟩

theorem witness_OneCodeOneByte : decoding.TreeLoaded treeT1 ∧ 1 ≤ treeT1.height ∧ treeT1.symbols.Nodup ∧
    decoding.decSt = .active ∧ decoding.cur = decoding.root ∧
    (codes treeT1).code? 0x63#8 = some ([true] ++ [false]) :=
  ⟨loaded_treeLoaded, by decide, by decide, by decide, by decide, by decide⟩

theorem witness_OneSymbolAlphabet : Inv leafRoot ∧ leafRoot.TreeLoaded (.leaf 0x61#8 4) ∧
    leafRoot.decSt = .active ∧ ({ leafRoot with decSt := .idle } : State).TreeLoaded (.leaf 0x61#8 4) :=
  ⟨leafRoot_inv, ⟨rfl, rfl⟩, rfl, rfl, rfl⟩

theorem witness_DecodingIsCorrect : loaded.decSt = .idle ∧ loaded.TreeLoaded treeT1 ∧ treeT1.symbols.Nodup ∧
    (∀ x ∈ inputP1, x ∈ treeT1.symbols) ∧ (codes treeT1).code? 0x62#8 = some ([true] ++ [true]) :=
  ⟨by decide, loaded_treeLoaded, by decide, by decide, by decide⟩

/-- A stream that ends at the root and one that does not. -/
theorem witness_AnyBitStreamDecodesOrIsMalformed : loaded.decSt = .idle ∧ loaded.TreeLoaded treeT1 ∧
    1 ≤ treeT1.height ∧
    (next? (runInstrs [.decStart, .decBit (chr true), .decBit (chr true)] loaded)).map (fun u => u.cur)
      = some loaded.root ∧
    (next? (runInstrs [.decStart, .decBit (chr true)] loaded)).map (fun u => u.cur) = some 3#9 :=
  ⟨by decide, loaded_treeLoaded, by decide, by decide, by decide⟩

/-- E1: the tree T1 comes out of the merges, `a` before the inner node on the tie. -/
theorem isHuffmanTree_treeT1 : IsHuffmanTree (freqTable inputP1) treeT1 := by
  rw [test_freqTable]
  refine ⟨by decide, .merge _ [.leaf 0x61#8 3] (.leaf 0x63#8 1) (.leaf 0x62#8 2) _ (by decide) (by decide)
    (by decide) ?_⟩
  refine .merge _ [] (.leaf 0x61#8 3) (mergeNode (.leaf 0x63#8 1) (.leaf 0x62#8 2)) _ (by decide) (by decide)
    (by decide) ?_
  exact .done _

theorem witness_RoundTripAfterConsistentLoad : inputP1 ≠ [] ∧ IsHuffmanTree (freqTable inputP1) treeT1 ∧
    treeT1.height ≤ loaded.cfg.maxh.toNat ∧ loaded.ConsistentlyLoaded treeT1 ∧ loaded.encSt = .idle ∧
    loaded.decSt = .idle :=
  ⟨by decide, isHuffmanTree_treeT1, by decide, ⟨loaded_treeLoaded, loaded_tableLoaded⟩, by decide, by decide⟩

theorem witness_LoadEncodeDecodeRoundTrip : inputP1 ≠ [] ∧ IsHuffmanTree (freqTable inputP1) treeT1 ∧
    State.reset.cfg.Legal ∧ treeT1.height ≤ State.reset.cfg.maxh.toNat ∧ State.reset.encSt = .idle ∧
    State.reset.decSt = .idle :=
  ⟨by decide, isHuffmanTree_treeT1, by decide, by decide, by decide, by decide⟩

theorem witness_TreeShapeFacts : 2 ≤ treeT1.symbols.length ∧ treeT1.symbols.length ≤ 256 := by decide

theorem witness_HuffmanTreeFacts : IsHuffmanTree (freqTable inputP1) treeT1 := isHuffmanTree_treeT1

/-- The tree of a one-symbol table is its leaf. -/
theorem isHuffmanTree_leaf (x : Sym) (n : Nat) : IsHuffmanTree [(x, n)] (.leaf x n) := ⟨by simp, .done _⟩

/-- Two symbols or more, one symbol, and an input with its table loaded. -/
theorem witness_HuffmanCostIsOptimal : (((freqTable inputP1).map Prod.fst).Nodup ∧
    2 ≤ (freqTable inputP1).length ∧ IsHuffmanTree (freqTable inputP1) treeT1) ∧
    IsHuffmanTree [(0x61#8, 4)] (.leaf 0x61#8 4) ∧ loaded.encSt = .idle ∧ loaded.TableLoaded (codes treeT1) :=
  ⟨⟨by decide, by decide, isHuffmanTree_treeT1⟩, isHuffmanTree_leaf _ _, by decide, loaded_tableLoaded⟩

/-- E7: the heap of "aaabbc" after `build`, and what extracting twice leaves. -/
def heapE7 : Heap := ⟨[.leaf 0x63#8 1, .leaf 0x62#8 2, .leaf 0x61#8 3], 3⟩

theorem heapE7_build : HeapBuild freqE1 heapE7 := by
  refine ⟨by decide, fun i h₀ h₁ => ?_, rfl⟩
  simp only [heapE7, List.length_cons, List.length_nil] at h₁
  interval_cases i <;> decide

/-- The inner node that the first merge of E1 makes. -/
def nodeBC : Tree := mergeNode (.leaf 0x63#8 1) (.leaf 0x62#8 2)

theorem isMinHeap_short (a : List Tree) (h : a.length ≤ 1) : IsMinHeap a := fun i h₀ h₁ => by omega

theorem isMinHeap_pair (x y : Tree) (h : x.weight ≤ y.weight) : IsMinHeap [x, y] := fun i h₀ h₁ => by
  simp only [List.length_cons, List.length_nil] at h₁
  interval_cases i
  exact h

theorem heapE7_extracts : HeapExtractMin heapE7 (.leaf 0x63#8 1) ⟨[.leaf 0x62#8 2, .leaf 0x61#8 3], 3⟩ ∧
    HeapExtractMin ⟨[.leaf 0x62#8 2, .leaf 0x61#8 3], 3⟩ (.leaf 0x62#8 2) ⟨[.leaf 0x61#8 3], 3⟩ :=
  ⟨⟨_, .refl _, by decide, .refl _, isMinHeap_pair _ _ (by decide), rfl⟩,
    ⟨_, .refl _, by decide, .refl _, isMinHeap_short _ (by decide), rfl⟩⟩

/-- The tie of E1: `a` and the inner node, both of weight 3, may be extracted in either order (R100), and the run
gives T1 or T2. -/
theorem heapE7_runs : BuilderRun heapE7 treeT1 ∧ BuilderRun heapE7 treeT2 := by
  constructor
  · refine .merge _ _ _ ⟨[.leaf 0x61#8 3, nodeBC], 3⟩ _ _ _ heapE7_extracts.1 heapE7_extracts.2 (by decide) ?_
    refine .merge _ ⟨[nodeBC], 3⟩ ⟨[], 3⟩ ⟨[treeT1], 3⟩ (.leaf 0x61#8 3) nodeBC _
      ⟨_, .refl _, by decide, .refl _, isMinHeap_short _ (by decide), rfl⟩
      ⟨_, .refl _, by decide, .refl _, isMinHeap_short _ (by decide), rfl⟩ (by decide) ?_
    exact .done _ _ rfl
  · refine .merge _ _ _ ⟨[.leaf 0x61#8 3, nodeBC], 3⟩ _ _ _ heapE7_extracts.1 heapE7_extracts.2 (by decide) ?_
    refine .merge _ ⟨[.leaf 0x61#8 3], 3⟩ ⟨[], 3⟩ ⟨[treeT2], 3⟩ nodeBC (.leaf 0x61#8 3) _
      ⟨[.leaf 0x61#8 3], by decide, by decide, .refl _, isMinHeap_short _ (by decide), rfl⟩
      ⟨_, .refl _, by decide, .refl _, isMinHeap_short _ (by decide), rfl⟩ (by decide) ?_
    exact .done _ _ rfl

theorem witness_BuilderRunsGiveHuffmanTrees : freqE1 ≠ [] ∧ HeapBuild freqE1 heapE7 ∧
    BuilderRun heapE7 treeT1 ∧ BuilderRun heapE7 treeT2 :=
  ⟨by decide, heapE7_build, heapE7_runs⟩

theorem witness_BuilderAlwaysFinishes : freqE1 ≠ [] ∧ HeapBuild freqE1 heapE7 ∧
    heapE7.nodes.length ≤ heapE7.cap ∧
    HeapExtractMin heapE7 (.leaf 0x63#8 1) ⟨[.leaf 0x62#8 2, .leaf 0x61#8 3], 3⟩ ∧
    HeapExtractMin ⟨[.leaf 0x62#8 2, .leaf 0x61#8 3], 3⟩ (.leaf 0x62#8 2) ⟨[.leaf 0x61#8 3], 3⟩ ∧
    IsMinHeap heapE7.nodes ∧ heapE7.nodes = .leaf 0x63#8 1 :: [.leaf 0x62#8 2, .leaf 0x61#8 3] ∧
    IsMinHeap [Tree.leaf 0x62#8 2, .leaf 0x61#8 3] :=
  ⟨by decide, heapE7_build, by decide, heapE7_extracts.1, heapE7_extracts.2, heapE7_build.2.1, rfl,
    isMinHeap_pair _ _ (by decide)⟩

theorem witness_DerivationUnderHeightLimit : treeT1.symbols.Nodup ∧ 1 < treeT1.height ∧ treeT1.height ≤ 2 := by
  decide

theorem witness_DerivedCodeTableFacts : treeT1.symbols.Nodup ∧ 1 ≤ treeT1.height ∧
    (codes treeT1).code? 0x63#8 = some ([true] ++ [false]) := by decide

end Sys2Proof.Tests
end

section
/-! The step of the block with a word waiting on CMD (`00_scope.md` R12, `20_memory.md` R60). -/

namespace Sys2Proof.Machine

/-- R12: accepting the head of CMD is the whole step. -/
theorem step_of_cmd_cons {s : State} {w : CmdWord} {more : List CmdWord} (h : s.cmd = w :: more) :
    step s = accept w { s with cmd := more } := by
  simp only [step, fetchStep, h]

/-- Settles O18: the step accepts the head of CMD, and decoding reads only the configuration, which removing the
head leaves as it was. -/
theorem stepRunsDecodedCommand : Obligations.StepRunsDecodedCommand := by
  intro s w more i hcmd hdec
  calc step s = accept w { s with cmd := more } := step_of_cmd_cons hcmd
    _ = exec i { s with cmd := more } := accept_of_command hdec

end Sys2Proof.Machine
end

section
/-! The invariant of `10_state.md` R40. First one lemma per kind of update (the channels, CT, TM and the root, each
engine's registers, CUR), then every path of every command, every word, the step and every run. -/

namespace Sys2Proof.Machine

variable {s t : State}

/-! ## One rule per kind of update -/

/-- The invariant does not speak of RSP. -/
theorem Inv.respond (h : Inv s) (c : Status) (info : Info) : Inv (s.respond c info) := { h with }

/-- The invariant does not speak of CMD. -/
theorem Inv.withCmd (h : Inv s) (ws : List CmdWord) : Inv { s with cmd := ws } := { h with }

/-- The invariant does not speak of ENC_OUT. -/
theorem Inv.emitEnc (h : Inv s) (cs : List EncChar) : Inv (s.emitEnc cs) := { h with }

/-- The invariant does not speak of DEC_OUT. -/
theorem Inv.emitDec (h : Inv s) (b : Sym) : Inv (s.emitDec b) := { h with }

theorem Inv.ctClearAll (h : Inv s) : Inv s.ctClearAll :=
  { h with
    ctForm := Memory.wf_nil _
    ctGood := fun x e he => by simp at he }

/-- Item 4 for the entry a legal CT_WRITE stores: a legal length fits its 8 bits (R74). -/
theorem good_of_ctWriteLegal {c : Config} {l : BitVec 9} {k : CodeBits} (legal : ctWriteLegal c l k) :
    CtEntry.Good c ⟨l.setWidth 8, k⟩ := by
  obtain ⟨hpos, hmax, hbits⟩ := legal
  have hlen : (l.setWidth 8).toNat = l.toNat := by
    have := c.maxh.isLt
    rw [BitVec.toNat_setWidth, Nat.mod_eq_of_lt (by omega)]
  refine ⟨hlen ▸ hpos, hlen ▸ hmax, fun i hi => ?_⟩
  by_cases hlt : i < 255
  · exact hbits ⟨i, hlt⟩ (hlen ▸ hi)
  · exact BitVec.getLsbD_of_ge _ _ (by omega)

theorem Inv.ctWrite (h : Inv s) (x : Sym) {e : CtEntry} (good : e.Good s.cfg) : Inv (s.ctWrite x e) :=
  { h with
    ctForm := Memory.wf_write e h.ctForm x.isLt
    ctGood := fun y f hf => by
      rw [State.ctRead_ctWrite] at hf
      split_ifs at hf
      · exact Option.some.inj hf ▸ good
      · exact h.ctGood y f hf }

/-- The encoder's registers may take every pair that item 3 allows. -/
theorem Inv.withEncoder (h : Inv s) {st : EngineState} {c : Status} (range : c = .ok ∨ c = .eUnksym)
    (active : st = .active → c = .ok) (faulted : st = .faulted → c = .eUnksym) :
    Inv { s with encSt := st, encErr := c } :=
  { h with
    encErrRange := range
    encActive := active
    encFaulted := faulted }

/-- Outside ACTIVE the decoder's registers may take every pair that item 3 allows: what the invariant says of CUR
it says of ACTIVE only. -/
theorem Inv.withDecoderStopped (h : Inv s) {st : EngineState} {c : Status} (stopped : st ≠ .active)
    (range : c = .ok ∨ c.isDecodeFault = true) (faulted : st = .faulted → c.isDecodeFault = true) :
    Inv { s with decSt := st, decErr := c } :=
  { h with
    decErrRange := range
    decActive := fun ha => absurd ha stopped
    decFaulted := faulted
    curRests := fun ha => absurd ha stopped
    leafRoot := fun ha => absurd ha stopped }

/-- A decode transaction opens with the pointer at the root. -/
theorem Inv.decStart (h : Inv s) : Inv { s with decSt := .active, decErr := .ok, cur := s.root } :=
  { h with
    decErrRange := .inl rfl
    decActive := fun _ => rfl
    decFaulted := nofun
    curRests := fun _ => .inl rfl
    leafRoot := fun _ _ _ => rfl }

/-- While no decode transaction is open the tree may be replaced by any other in canonical form. -/
theorem Inv.withTree (h : Inv s) (idle : s.decSt = .idle) {m : Memory TmNode} {i : Idx} {v : Bool}
    (form : Memory.wf Config.nodes m) (unset : v = false → i = 0#9) :
    Inv { s with tm := m, root := i, rootV := v } :=
  have inactive : s.decSt ≠ .active := by simp [idle]
  { h with
    tmForm := form
    rootUnset := unset
    curRests := fun ha => absurd ha inactive
    leafRoot := fun ha => absurd ha inactive }

theorem Inv.tmWrite (h : Inv s) (idle : s.decSt = .idle) (i : Idx) (n : TmNode) : Inv (s.tmWrite i n) :=
  h.withTree idle (Memory.wf_write n h.tmForm i.isLt) h.rootUnset

theorem Inv.setCur_root (h : Inv s) : Inv (s.setCur s.root) :=
  { h with
    curRests := fun _ => .inl rfl
    leafRoot := fun _ _ _ => rfl }

/-- The pointer may move to an internal node when the root is no leaf. -/
theorem Inv.setCur_internal (h : Inv s) {i l r : Idx} (node : s.tmRead i = some (.internal l r))
    (rootNoLeaf : ∀ x, s.tmRead s.root ≠ some (.leaf x)) : Inv (s.setCur i) :=
  { h with
    curRests := fun _ => .inr ⟨l, r, node⟩
    leafRoot := fun _ x leaf => absurd leaf (rootNoLeaf x) }

/-- While the pointer is at an internal node the root is no leaf: with a leaf root the pointer is at the root. -/
theorem Inv.root_not_leaf (h : Inv s) (active : s.decSt = .active) {l r : Idx}
    (node : s.tmRead s.cur = some (.internal l r)) (x : Sym) : s.tmRead s.root ≠ some (.leaf x) := by
  intro leaf
  rw [h.leafRoot active x leaf, leaf] at node
  simp at node

/-! ## Commands, words, steps and runs -/

/-- Every path of every command keeps the invariant: it ends in a response, and what is named here is what the path
writes before it. The paths not named only answer. -/
theorem Inv.effect {i : Instr} (h : Inv s) (he : Effect i s t) : Inv t := by
  cases he <;> refine Inv.respond ?_ _ _
  case ctClear => exact h.ctClearAll
  case ctWrite x l k legal _ => exact h.ctWrite x (good_of_ctWriteLegal legal)
  case trClear idle => exact h.withTree idle (Memory.wf_nil _) fun _ => rfl
  case trLeaf i x idle => exact h.tmWrite idle i _
  case trNode i l r idle => exact h.tmWrite idle i _
  case trRoot i idle => exact h.withTree idle h.tmForm nofun
  case encStart => exact h.withEncoder (.inl rfl) (fun _ => rfl) nofun
  case encSymUnknown => exact h.withEncoder (.inr rfl) nofun fun _ => rfl
  case encSym => exact h.emitEnc _
  case encEndFaulted | encEnd => exact h.withEncoder h.encErrRange nofun nofun
  case decStart => exact h.decStart
  case decBitBadch | decBitNotree | decBitNoEntry | decBitLeafOne | decBitNoChild =>
    exact h.withDecoderStopped nofun (.inr rfl) fun _ => rfl
  case decBitLeafZero x _ _ _ => exact h.emitDec x
  case decBitLeaf x _ _ _ _ => exact (h.emitDec x).setCur_root
  case decBitMove active _ node child => exact h.setCur_internal child (h.root_not_leaf active node)
  case decEndMidCode => exact h.withDecoderStopped nofun (.inr rfl) nofun
  case decEndFaulted | decEnd => exact h.withDecoderStopped nofun h.decErrRange nofun
  all_goals exact h

/-- A word, legal or not, keeps the invariant. -/
theorem Inv.accept {w : CmdWord} (h : Inv s) (hw : accept w s = .next t) : Inv t := by
  cases hd : decode s.cfg w with
  | command i => exact h.effect (effect_of_exec (accept_of_command hd ▸ hw))
  | illegal why =>
    rw [accept_of_illegal hd] at hw
    cases hw
    exact h.respond _ _

/-- Settles O34: a step waits or accepts one word, and every path of every command keeps the invariant. -/
theorem stepKeepsInvariant : Obligations.StepKeepsInvariant := by
  intro s t h hstep
  cases hcmd : s.cmd with
  | nil =>
    simp only [step, fetchStep, hcmd] at hstep
    cases hstep
    exact h
  | cons w more =>
    rw [step_of_cmd_cons hcmd] at hstep
    exact (h.withCmd more).accept hstep

/-- The reset state meets the invariant: its memories are empty and no transaction is open. -/
theorem inv_resetWith {c : Config} (legal : c.Legal) : Inv (State.resetWith c) where
  legal := legal
  ctForm := Memory.wf_nil _
  tmForm := Memory.wf_nil _
  rootUnset _ := rfl
  encErrRange := .inl rfl
  encActive := nofun
  encFaulted := nofun
  decErrRange := .inl rfl
  decActive := nofun
  decFaulted := nofun
  ctGood := nofun
  curRests := nofun
  leafRoot := nofun

/-- Settles O33: the default MAXH, 255, is one of the legal values. -/
theorem resetMeetsInvariant : Obligations.ResetMeetsInvariant :=
  ⟨inv_resetWith (by decide), fun _ => inv_resetWith⟩

/-- A run from a state that meets the invariant completes, and its last state meets it. -/
theorem Inv.runWords (h : Inv s) (ws : List CmdWord) : ∃ t, runWords ws s = .next t ∧ Inv t := by
  induction ws generalizing s with
  | nil => exact ⟨s, rfl, h⟩
  | cons w ws ih =>
    obtain ⟨u, hu⟩ := accept_next w s
    rw [runWords_cons, hu, andThen_next]
    exact ih (h.accept hu)

/-- Settles O35: the run starts in the reset state, which meets the invariant. -/
theorem reachableStatesMeetInvariant : Obligations.ReachableStatesMeetInvariant :=
  fun _ ws legal => (inv_resetWith legal).runWords ws

/-- Settles O16: the table of R41, field by field. -/
theorem resetStateIsTheTable : Obligations.ResetStateIsTheTable :=
  ⟨⟨_, rfl⟩, fun _ => ⟨rfl, rfl, rfl, rfl, rfl, rfl, rfl, fun _ => rfl, fun _ => rfl, rfl, rfl, rfl, rfl, rfl⟩⟩

end Sys2Proof.Machine
end

section
/-! Who writes what (`10_state.md` R36, R37), and the transitions of the two engines (R43). -/

namespace Sys2Proof.Machine

variable {i : Instr} {s t u : State}

/-- Settles O28: on each path every field is unchanged or the command is one that the table names for it. -/
theorem eachStateWrittenOnlyBy : Obligations.EachStateWrittenOnlyBy := by
  intro i s t h
  cases effect_of_exec h <;> simp

/-- A command has one next state: the path whose conditions hold gives it. -/
theorem Effect.unique (h₁ : Effect i s t) (h₂ : Effect i s u) : t = u := by
  have h := exec_of_effect h₁
  rw [exec_of_effect h₂] at h
  exact (Host.Outcome.next.inj h).symm

theorem State.respond_eSeq (s : State) : s.respond .eSeq 0#28 = { s with rsp := s.rsp ++ [0x20000000#32] } := by
  rw [State.respond, rspWord_seq]

/-! ## The encoder -/

/-- R43, ENC_SYM in ACTIVE: the entry is there and the engine stays, or it is not and the engine faults. -/
theorem Effect.encSym_of_active {x : Sym} (h : Effect (.encSym x) s t) (inv : Inv s) (active : s.encSt = .active) :
    t.encSt = .active ∧ t.encErr = .ok ∧ responseCode s t = some 0#4 ∨
    t.encSt = .faulted ∧ responseCode s t = some t.encErr.bits ∧ t.encErr = .eUnksym := by
  cases found : s.ctRead x with
  | none =>
    obtain rfl := h.unique (.encSymUnknown x s active found)
    exact .inr ⟨rfl, responseCode_respond _ _ rfl, rfl⟩
  | some e =>
    obtain rfl := h.unique (.encSym x e s active found)
    exact .inl ⟨active, inv.encActive active, responseCode_respond _ _ rfl⟩

/-- The encoder's commands that E_SEQ refuses (R178). -/
theorem Effect.encoder_outOfSequence (h : Effect i s t)
    (out : s.encSt ≠ .idle ∧ i = .encStart ∨ s.encSt = .idle ∧ ((∃ x, i = .encSym x) ∨ i = .encEnd)) :
    t = s.respond .eSeq 0#28 := by
  obtain ⟨opened, rfl⟩ | ⟨idle, ⟨x, rfl⟩ | rfl⟩ := out
  · exact h.unique (.encStartSeq s opened)
  · exact h.unique (.encSymSeq x s idle)
  · exact h.unique (.encEndSeq s idle)

/-- A command of another kind leaves the encoder's registers as they were. -/
theorem Effect.keeps_encoder (h : Effect i s t) (other : ¬(i = .encStart ∨ (∃ x, i = .encSym x) ∨ i = .encEnd)) :
    t.encSt = s.encSt ∧ t.encErr = s.encErr := by
  obtain ⟨writesSt, writesErr, -⟩ := eachStateWrittenOnlyBy i s t (exec_of_effect h)
  exact ⟨by_contra fun ne => other (writesSt ne), by_contra fun ne => other ((writesErr ne).imp_right .inl)⟩

/-! ## The decoder -/

/-- R43, DEC_BIT in ACTIVE: the walk goes on, or one of its checks fails and the engine faults. -/
theorem Effect.decBit_of_active {c : EncChar} (h : Effect (.decBit c) s t) (inv : Inv s)
    (active : s.decSt = .active) :
    t.decSt = .active ∧ t.decErr = .ok ∧ responseCode s t = some 0#4 ∨
    t.decSt = .faulted ∧ responseCode s t = some t.decErr.bits ∧ t.decErr.isDecodeFault = true := by
  cases h
  case decBitSeq idle => simp [idle] at active
  case decBitReplay faulted => simp [faulted] at active
  case decBitLeafZero | decBitLeaf | decBitMove =>
    exact .inl ⟨active, inv.decActive active, responseCode_respond _ _ rfl⟩
  case decBitBadch | decBitNotree | decBitNoEntry | decBitLeafOne | decBitNoChild =>
    exact .inr ⟨rfl, responseCode_respond _ _ rfl, rfl⟩

/-- R43, DEC_END in ACTIVE: on a code boundary DEC_ERR stays OK, mid-code it takes E_MALFORMED. -/
theorem Effect.decEnd_of_active (h : Effect .decEnd s t) (inv : Inv s) (active : s.decSt = .active) :
    t.decSt = .idle ∧ (s.cur = s.root → t.decErr = .ok) ∧ (s.cur ≠ s.root → t.decErr = .eMalformed) := by
  by_cases edge : s.cur = s.root
  · obtain rfl := h.unique (.decEnd s active edge)
    exact ⟨rfl, fun _ => inv.decActive active, fun mid => absurd edge mid⟩
  · obtain rfl := h.unique (.decEndMidCode s active edge)
    exact ⟨rfl, fun h => absurd h edge, fun _ => rfl⟩

/-- The decoder's commands that E_SEQ refuses (R178). -/
theorem Effect.decoder_outOfSequence (h : Effect i s t)
    (out : s.decSt ≠ .idle ∧ i = .decStart ∨ s.decSt = .idle ∧ ((∃ x, i = .decBit x) ∨ i = .decEnd)) :
    t = s.respond .eSeq 0#28 := by
  obtain ⟨opened, rfl⟩ | ⟨idle, ⟨x, rfl⟩ | rfl⟩ := out
  · exact h.unique (.decStartSeq s opened)
  · exact h.unique (.decBitSeq x s idle)
  · exact h.unique (.decEndSeq s idle)

/-- A command of another kind leaves the decoder's registers as they were. -/
theorem Effect.keeps_decoder (h : Effect i s t) (other : ¬(i = .decStart ∨ (∃ x, i = .decBit x) ∨ i = .decEnd)) :
    t.decSt = s.decSt ∧ t.decErr = s.decErr := by
  obtain ⟨-, -, writesSt, writesErr, -⟩ := eachStateWrittenOnlyBy i s t (exec_of_effect h)
  exact ⟨by_contra fun ne => other (writesSt ne), by_contra fun ne => other (writesErr ne)⟩

/-- Settles O30: the rows of R43 for the encoder, then those for the decoder. -/
theorem engineTransitionTable : Obligations.EngineTransitionTable := by
  intro i s t inv hexec
  have h := effect_of_exec hexec
  refine ⟨?_, ?_, ?_, ?_, ?_, h.keeps_encoder, fun out => (h.encoder_outOfSequence out).trans s.respond_eSeq,
    ?_, ?_, ?_, ?_, ?_, h.keeps_decoder, fun out => (h.decoder_outOfSequence out).trans s.respond_eSeq⟩
  · rintro idle rfl
    obtain rfl := h.unique (.encStart s idle)
    exact ⟨rfl, rfl⟩
  · rintro active ⟨x, rfl⟩
    exact h.encSym_of_active inv active
  · rintro active rfl
    obtain rfl := h.unique (.encEnd s active)
    exact ⟨rfl, inv.encActive active⟩
  · rintro faulted rfl
    obtain rfl := h.unique (.encEndFaulted s faulted)
    exact ⟨rfl, rfl⟩
  · rintro faulted ⟨x, rfl⟩
    obtain rfl := h.unique (.encSymReplay x s faulted)
    exact ⟨faulted, rfl⟩
  · rintro idle rfl
    obtain rfl := h.unique (.decStart s idle)
    exact ⟨rfl, rfl⟩
  · rintro active ⟨x, rfl⟩
    exact h.decBit_of_active inv active
  · rintro active rfl
    exact h.decEnd_of_active inv active
  · rintro faulted rfl
    obtain rfl := h.unique (.decEndFaulted s faulted)
    exact ⟨rfl, rfl⟩
  · rintro faulted ⟨x, rfl⟩
    obtain rfl := h.unique (.decBitReplay x s faulted)
    exact ⟨faulted, rfl⟩

end Sys2Proof.Machine
end

section
/-! The two engines do not meet (`10_state.md` R36, `42_encoder.md` R140, R145, `43_decoder.md` R150). What a command
of one side did to one state it does to every state that agrees on that side: it leaves the same registers and memory
and appends the same elements. Independence and frame are the two readings of this. -/

namespace Sys2Proof.Machine

variable {i : Instr} {s₁ s₂ t₁ : State}

/-- `s₂` after what the encoder did from `s₁` to `t₁`: the encoder's registers and CT of `t₁`, and the elements that
were appended to ENC_OUT and RSP. -/
def State.withEncoderChange (s₂ s₁ t₁ : State) : State :=
  { s₂ with
    encSt := t₁.encSt, encErr := t₁.encErr, ct := t₁.ct
    encOut := s₂.encOut ++ t₁.encOut.drop s₁.encOut.length
    rsp := s₂.rsp ++ t₁.rsp.drop s₁.rsp.length }

/-- `s₂` after what the decoder did from `s₁` to `t₁`. -/
def State.withDecoderChange (s₂ s₁ t₁ : State) : State :=
  { s₂ with
    decSt := t₁.decSt, decErr := t₁.decErr, cur := t₁.cur, root := t₁.root, rootV := t₁.rootV, tm := t₁.tm
    decOut := s₂.decOut ++ t₁.decOut.drop s₁.decOut.length
    rsp := s₂.rsp ++ t₁.rsp.drop s₁.rsp.length }

/-- A path of a command of the encoder's side is open to every state that agrees on the encoder. -/
theorem Effect.encoder_transport (h : Effect i s₁ t₁) (side : isEncoderSide i = true) (same : SameEncoder s₁ s₂) :
    Effect i s₂ (s₂.withEncoderChange s₁ t₁) := by
  cases s₂
  obtain ⟨rfl, rfl, rfl, rfl⟩ := same
  -- `side` rules the other commands out; the change is written out as a record
  cases h <;> simp [State.withEncoderChange, isEncoderSide] at side ⊢
  case ctClearBusy busy => exact .ctClearBusy _ busy
  case ctClear idle => exact .ctClear _ idle
  case ctWriteBad x l k illegal => exact .ctWriteBad x l k _ illegal
  case ctWriteBusy x l k legal busy => exact .ctWriteBusy x l k _ legal busy
  case ctWrite x l k legal idle => exact .ctWrite x l k _ legal idle
  case encStartSeq opened => exact .encStartSeq _ opened
  case encStart idle => exact .encStart _ idle
  case encSymSeq x idle => exact .encSymSeq x _ idle
  case encSymReplay x faulted => exact .encSymReplay x _ faulted
  case encSymUnknown x active missing => exact .encSymUnknown x _ active missing
  case encSym x e active found => exact .encSym x e _ active found
  case encEndSeq idle => exact .encEndSeq _ idle
  case encEndFaulted faulted => exact .encEndFaulted _ faulted
  case encEnd active => exact .encEnd _ active

/-- A path of a command of the decoder's side is open to every state that agrees on the decoder. -/
theorem Effect.decoder_transport (h : Effect i s₁ t₁) (side : isDecoderSide i = true) (same : SameDecoder s₁ s₂) :
    Effect i s₂ (s₂.withDecoderChange s₁ t₁) := by
  cases s₂
  obtain ⟨rfl, rfl, rfl, rfl, rfl, rfl⟩ := same
  -- `side` rules the other commands out; the change is written out as a record
  cases h <;> simp [State.withDecoderChange, isDecoderSide] at side ⊢
  case trClearBusy busy => exact .trClearBusy _ busy
  case trClear idle => exact .trClear _ idle
  case trLeafBusy k x busy => exact .trLeafBusy k x _ busy
  case trLeaf k x idle => exact .trLeaf k x _ idle
  case trNodeBusy k l r busy => exact .trNodeBusy k l r _ busy
  case trNode k l r idle => exact .trNode k l r _ idle
  case trRootBusy k busy => exact .trRootBusy k _ busy
  case trRoot k idle => exact .trRoot k _ idle
  case decStartSeq opened => exact .decStartSeq _ opened
  case decStart idle => exact .decStart _ idle
  case decBitSeq c idle => exact .decBitSeq c _ idle
  case decBitReplay c faulted => exact .decBitReplay c _ faulted
  case decBitBadch c bad active => exact .decBitBadch c _ active bad
  case decBitNotree b active unset => exact .decBitNotree b _ active unset
  case decBitNoEntry b active set missing => exact .decBitNoEntry b _ active set missing
  case decBitLeafOne x active set leaf => exact .decBitLeafOne x _ active set leaf
  case decBitLeafZero x active set leaf => exact .decBitLeafZero x _ active set leaf
  case decBitNoChild b l r active set node missing => exact .decBitNoChild b l r _ active set node missing
  case decBitLeaf b l r x active set node leaf => exact .decBitLeaf b l r x _ active set node leaf
  case decBitMove b l r l' r' active set node child => exact .decBitMove b l r l' r' _ active set node child
  case decEndSeq idle => exact .decEndSeq _ idle
  case decEndFaulted faulted => exact .decEndFaulted _ faulted
  case decEndMidCode active mid => exact .decEndMidCode _ active mid
  case decEnd active edge => exact .decEnd _ active edge

/-- Settles O39: the second state takes the path of the first, and the frame is the case of a state that agrees with
itself. -/
theorem encoderIndependentOfDecoder : Obligations.EncoderIndependentOfDecoder := by
  intro i s₁ s₂ t₁ t₂ side same h₁ h₂
  have path := effect_of_exec h₁
  have change : t₂ = s₂.withEncoderChange s₁ t₁ := (effect_of_exec h₂).unique (path.encoder_transport side same)
  have frame : t₁ = s₁.withEncoderChange s₁ t₁ := path.unique (path.encoder_transport side ⟨rfl, rfl, rfl, rfl⟩)
  refine ⟨?_, ?_, ?_, ?_⟩
  · rw [change]
    exact ⟨rfl, rfl, rfl, (congrArg State.cfg frame).trans same.cfg⟩
  · rw [change, State.withEncoderChange, List.drop_left]
  · rw [change, State.withEncoderChange, List.drop_left]
  · rw [frame]
    rfl

/-- Settles O40: as O39, with the decoder's registers and TM. -/
theorem decoderIndependentOfEncoder : Obligations.DecoderIndependentOfEncoder := by
  intro i s₁ s₂ t₁ t₂ side same h₁ h₂
  have path := effect_of_exec h₁
  have change : t₂ = s₂.withDecoderChange s₁ t₁ := (effect_of_exec h₂).unique (path.decoder_transport side same)
  have frame : t₁ = s₁.withDecoderChange s₁ t₁ :=
    path.unique (path.decoder_transport side ⟨rfl, rfl, rfl, rfl, rfl, rfl⟩)
  refine ⟨?_, ?_, ?_, ?_⟩
  · rw [change]
    exact ⟨rfl, rfl, rfl, rfl, rfl, rfl⟩
  · rw [change, State.withDecoderChange, List.drop_left]
  · rw [change, State.withDecoderChange, List.drop_left]
  · rw [frame]
    rfl

end Sys2Proof.Machine
end

section
/-! The transfers of a clock edge (`10_state.md` R37, R38). -/

namespace Sys2Proof.Machine

/-- An output channel that shows its oldest element when `valid` loses that element exactly on a transfer. -/
theorem eq_transferred_append {α : Type} {valid : Bool} (ready : Bool) {shown : α} {held : List α}
    (faithful : valid = true → held.head? = some shown) :
    held = (if valid = true ∧ ready = true then [shown] else []) ++ if valid && ready then held.tail else held := by
  by_cases transfer : valid = true ∧ ready = true
  · obtain ⟨rest, rfl⟩ := List.head?_eq_some_iff.1 (faithful transfer.1)
    simp [transfer]
  · simp [transfer]

/-- Settles O37: CMD gains the element of its transfer, and each output channel loses the one it shows. -/
theorem channelTransfersAtClockEdge : Obligations.ChannelTransfersAtClockEdge := by
  intro p s noReset ⟨showsRsp, showsEnc, showsDec⟩
  simp only [clockEdge, noReset, Bool.false_eq_true, if_false]
  refine ⟨?_, eq_transferred_append _ showsRsp, eq_transferred_append _ showsEnc, eq_transferred_append _ showsDec⟩
  by_cases transfer : p.cmdValid = true ∧ p.cmdReady = true <;> simp [transfer]

end Sys2Proof.Machine
end

section
/-! One response a command, and what a command appends to the outputs (`20_memory.md` R61, `30_encoding.md` R77, R80,
`60_exceptions.md` R170). -/

namespace Sys2Proof.Machine

variable {i : Instr} {s t : State}

/-- R77: every path ends in one response. -/
theorem Effect.rsp_eq (h : Effect i s t) : ∃ c info, t.rsp = s.rsp ++ [rspWord c info] := by
  cases h <;> exact ⟨_, _, rfl⟩

/-- No path writes CMD: its words are removed by the step. -/
theorem Effect.cmd_eq (h : Effect i s t) : t.cmd = s.cmd := by
  cases h <;> rfl

theorem Effect.cfg_eq (h : Effect i s t) : t.cfg = s.cfg := by
  cases h <;> rfl

/-- Only ENC_SYM that finds its entry emits on ENC_OUT, and it emits the entry's code (R142). -/
theorem Effect.encOut_eq (h : Effect i s t) :
    ∃ e, t.encOut = s.encOut ++ e ∧ (e = [] ∨ ∃ x f, s.ctRead x = some f ∧ e = f.symbols.map chr) := by
  cases h
  case encSym x f _ found => exact ⟨_, rfl, .inr ⟨x, f, found, rfl⟩⟩
  all_goals exact ⟨[], (List.append_nil _).symm, .inl rfl⟩

/-- Only DEC_BIT that reaches a leaf emits on DEC_OUT, and it emits one byte (R152). -/
theorem Effect.decOut_eq (h : Effect i s t) : ∃ d, t.decOut = s.decOut ++ d ∧ d.length ≤ 1 := by
  cases h
  case decBitLeafZero x _ _ _ => exact ⟨[x], rfl, le_rfl⟩
  case decBitLeaf x _ _ _ _ => exact ⟨[x], rfl, le_rfl⟩
  all_goals exact ⟨[], (List.append_nil _).symm, Nat.zero_le 1⟩

/-- R170: the codes 9 to 15 are never produced. -/
theorem Status.bits_toNat_le (c : Status) : c.bits.toNat ≤ 8 := by
  cases c <;> decide

@[simp] theorem CtEntry.length_symbols (e : CtEntry) : e.symbols.length = e.len.toNat := by
  simp [CtEntry.symbols]

/-- R8: an encoded symbol is one of two characters. -/
theorem chr_cases (b : BitSym) : chr b = 0x30#8 ∨ chr b = 0x31#8 := by
  cases b
  · exact .inl chr_false
  · exact .inr chr_true

/-- Every step completes: it waits, or it accepts a word. -/
theorem step_next (s : State) : ∃ t, step s = .next t := by
  cases hcmd : s.cmd with
  | nil => exact ⟨s, by simp only [step, fetchStep, hcmd]⟩
  | cons w more =>
    rw [step_of_cmd_cons hcmd]
    exact accept_next w _

/-- Settles O25: the elements on ENC_OUT are a CT entry's code, which item 4 of the invariant bounds by MAXH. -/
theorem everyCommandAnswersOnce : Obligations.EveryCommandAnswersOnce := by
  refine ⟨fun i s => ?_, step_next⟩
  obtain ⟨t, hexec, h⟩ := exec_effect i s
  obtain ⟨c, info, hrsp⟩ := h.rsp_eq
  obtain ⟨e, henc, emitted⟩ := h.encOut_eq
  obtain ⟨d, hdec, one⟩ := h.decOut_eq
  refine ⟨t, _, e, d, hexec, hrsp, ?_, henc, ?_, ?_, hdec, one, h.cmd_eq, h.cfg_eq⟩
  · rw [rspWord_code]
    exact c.bits_toNat_le
  · obtain rfl | ⟨x, f, -, rfl⟩ := emitted
    · simp
    · exact List.forall_mem_map.2 fun b _ => chr_cases b
  · intro inv
    obtain rfl | ⟨x, f, found, rfl⟩ := emitted
    · simp
    · obtain ⟨-, bound, -⟩ := inv.ctGood x f found
      simpa using bound

end Sys2Proof.Machine
end

section
/-! Running the words of CMD step by step (`20_memory.md` R60 to R62, `70_reset_and_hazards.md` R216). The fold leaves
CMD as it finds it and the steps consume it, so the two are compared through a command run with other words waiting:
no command reads CMD. -/

namespace Sys2Proof.Machine

variable {i : Instr} {w : CmdWord} {s t : State}

/-- A command takes the same path whatever words wait on CMD: an engine's command by the independence of its side, and
the commands of neither side read the registers at most. -/
theorem Effect.withCmd (h : Effect i s t) (ws : List CmdWord) : Effect i { s with cmd := ws } { t with cmd := ws } := by
  by_cases encoder : isEncoderSide i = true
  · rw [h.unique (h.encoder_transport encoder ⟨rfl, rfl, rfl, rfl⟩)]
    exact h.encoder_transport encoder ⟨rfl, rfl, rfl, rfl⟩
  by_cases decoder : isDecoderSide i = true
  · rw [h.unique (h.decoder_transport decoder ⟨rfl, rfl, rfl, rfl, rfl, rfl⟩)]
    exact h.decoder_transport decoder ⟨rfl, rfl, rfl, rfl, rfl, rfl⟩
  cases h
  case nop => exact .nop _
  case rdReg r => exact .rdReg r _
  case reservedE b => exact .reservedE b _
  case reservedF b => exact .reservedF b _
  all_goals simp [isEncoderSide, isDecoderSide] at encoder decoder

/-- An accepted word leaves the words that wait behind it, and its outcome does not depend on them. -/
theorem accept_withCmd (h : accept w s = .next t) (ws : List CmdWord) :
    t.cmd = s.cmd ∧ accept w { s with cmd := ws } = .next { t with cmd := ws } := by
  cases hd : decode s.cfg w with
  | command i =>
    have path := effect_of_exec (accept_of_command hd ▸ h)
    refine ⟨path.cmd_eq, ?_⟩
    rw [accept_of_command (s := { s with cmd := ws }) hd]
    exact exec_of_effect (path.withCmd ws)
  | illegal why =>
    rw [accept_of_illegal hd] at h
    cases h
    exact ⟨rfl, accept_of_illegal hd⟩

/-- A run of the machine goes on from where its first step ends. -/
theorem core_run_succ (n : Nat) (h : step s = .next t) :
    Host.Core.run Sys2Proof.core (n + 1) s = Host.Core.run Sys2Proof.core n t := by
  simp only [Host.Core.run, core, h]

/-- Settles O38, by induction on the words: a step accepts the head, and the rest waits behind it as before. -/
theorem stepsAreTheFold : Obligations.StepsAreTheFold := by
  intro ws s
  induction ws generalizing s with
  | nil => exact ⟨s, rfl, rfl⟩
  | cons w ws ih =>
    obtain ⟨u, hu⟩ := accept_next w s
    obtain ⟨hcmd, hwait⟩ := accept_withCmd hu (ws ++ s.cmd)
    obtain ⟨t, hfold, hrun⟩ := ih u
    have hstep : step { s with cmd := w :: ws ++ s.cmd } = .next { u with cmd := ws ++ u.cmd } := by
      rw [hcmd, ← hwait]
      exact step_of_cmd_cons rfl
    refine ⟨t, ?_, ?_⟩
    · rw [runWords_cons, hu, andThen_next, hfold]
    · exact (core_run_succ ws.length hstep).trans hrun

end Sys2Proof.Machine
end

section
/-! The decoder by rows (`30_encoding.md` R70 to R75, R81). The decoder is one scheme: look the row of OP up, make the
row's checks, answer the row's command. The round trips and the opcode table are three readings of the scheme. -/

namespace Sys2Proof

/-! ## The scheme -/

/-- The checks the decoder makes for a row (R73, R74). -/
def rowChecks (c : Config) (w : CmdWord) (o : Opcode) : List (Bool × Illegal) :=
  match o with
  | .nop | .ctClear | .trClear | .encStart | .encEnd | .decStart | .decEnd => [zeroA w, zeroB w, zeroC w]
  | .ctWrite => ctWriteChecks c (fieldB w) (fieldC w)
  | .trLeaf => [zeroC w]
  | .trNode => [zeroA w, (decide ((fieldC w).extractLsb' 18 237 ≠ 0#237), .nonzeroC)]
  | .trRoot => [zeroA w, zeroC w]
  | .rdReg =>
    [(decide ((fieldA w).extractLsb' 2 6 ≠ 0#6), .nonzeroA), zeroB w, zeroC w,
      (decide ((fieldA w).extractLsb' 0 2 = 3#2), .regnoThree)]
  | .encSym | .decBit => [zeroB w, zeroC w]
  | .reservedE | .reservedF => []

/-- The command a row's operands spell (R72). -/
def rowInstr (w : CmdWord) (o : Opcode) : Instr :=
  match o with
  | .nop => .nop
  | .ctClear => .ctClear
  | .ctWrite => .ctWrite (fieldA w) (fieldB w) (fieldC w)
  | .trClear => .trClear
  | .trLeaf => .trLeaf (fieldB w) (fieldA w)
  | .trNode => .trNode (fieldB w) ((fieldC w).extractLsb' 0 9) ((fieldC w).extractLsb' 9 9)
  | .trRoot => .trRoot (fieldB w)
  | .rdReg => .rdReg (RegNo.ofNumber ((fieldA w).extractLsb' 0 2))
  | .encStart => .encStart
  | .encSym => .encSym (fieldA w)
  | .encEnd => .encEnd
  | .decStart => .decStart
  | .decBit => .decBit (fieldA w)
  | .decEnd => .decEnd
  | .reservedE => .reservedE (fieldRest w)
  | .reservedF => .reservedF (fieldRest w)

/-- The decoder is the scheme. -/
theorem decode_eq_checked (c : Config) (w : CmdWord) :
    decode c w = checked (rowChecks c w (Opcode.ofBits (fieldOp w))) (rowInstr w (Opcode.ofBits (fieldOp w))) := by
  rw [decode]
  cases Opcode.ofBits (fieldOp w) <;> rfl

theorem decode_eq_command {c : Config} {w : CmdWord} {i : Instr} :
    decode c w = .command i ↔ i = rowInstr w (Opcode.ofBits (fieldOp w)) ∧
      ∀ x ∈ rowChecks c w (Opcode.ofBits (fieldOp w)), x.1 = false := by
  rw [decode_eq_checked, checked_eq_command]

@[simp] theorem opcode_rowInstr (w : CmdWord) (o : Opcode) : (rowInstr w o).opcode = o := by
  cases o <;> rfl

/-! ## The word of a command, and the command of a word -/

@[simp] theorem zeroA_passes {w : CmdWord} : (zeroA w).1 = false ↔ fieldA w = 0#8 := by simp [zeroA]
@[simp] theorem zeroB_passes {w : CmdWord} : (zeroB w).1 = false ↔ fieldB w = 0#9 := by simp [zeroB]
@[simp] theorem zeroC_passes {w : CmdWord} : (zeroC w).1 = false ↔ fieldC w = 0#255 := by simp [zeroC]

/-- The word of a command holds the OP value of its row. -/
theorem ofBits_fieldOp_encode (i : Instr) : Opcode.ofBits (fieldOp (encode i)) = i.opcode := by
  cases i <;> simp [encode, Instr.opcode]

@[simp] theorem RegNo.ofNumber_bits (r : RegNo) : RegNo.ofNumber (r.bits.extractLsb' 0 2) = r := by
  cases r <;> decide

/-- The operands of a command stand in its word. -/
theorem rowInstr_encode (i : Instr) : rowInstr (encode i) i.opcode = i := by
  cases i <;> simp [encode, Instr.opcode, rowInstr]

/-- The word of a well-formed command passes its row's checks: the fields without an operand are zero. -/
theorem rowChecks_encode {c : Config} {i : Instr} (h : i.WellFormed c) :
    ∀ x ∈ rowChecks c (encode i) i.opcode, x.1 = false := by
  cases i
  case ctWrite x len code => simpa [encode, Instr.opcode, rowChecks] using ctWriteChecks_pass.2 h
  case rdReg r =>
    have legal : r.bits.extractLsb' 2 6 = 0#6 ∧ r.bits.extractLsb' 0 2 ≠ 3#2 := by cases r <;> decide
    simp [encode, Instr.opcode, rowChecks, legal]
  all_goals simp [encode, Instr.opcode, rowChecks]

/-- Settles O22: the word names the command's row, its operands and zeros. -/
theorem decodeOfEncode : Obligations.DecodeOfEncode := by
  intro c i h
  rw [decode_eq_command, ofBits_fieldOp_encode, rowInstr_encode]
  exact ⟨rfl, rowChecks_encode h⟩

/-- The word that spells a well-formed command decodes to it. -/
theorem decode_of_encode_eq {c : Config} {w : CmdWord} {i : Instr} (spells : encode i = w) (h : i.WellFormed c) :
    decode c w = .command i :=
  spells ▸ decodeOfEncode c i h

/-- Settles O21: each word is the one that spells its command. -/
theorem writtenOutWordsDecode : Obligations.WrittenOutWordsDecode :=
  ⟨decode_of_encode_eq (by decide) (ctWriteChecks_pass.1 (by decide)), decode_of_encode_eq (by decide) trivial,
    decode_of_encode_eq (by decide) trivial, decode_of_encode_eq (by decide) trivial,
    decode_of_encode_eq (by decide) trivial⟩

/-- A word that passes the checks of its row is packed from the operands of its command: what is no operand is
zero. -/
theorem encode_rowInstr {c : Config} {w : CmdWord} {o : Opcode} (row : Opcode.ofBits (fieldOp w) = o)
    (h : ∀ x ∈ rowChecks c w o, x.1 = false) : encode (rowInstr w o) = w := by
  have fields := packWord_fields w
  have rest := packReserved_fields w
  rw [row] at fields rest
  cases o
  case reservedE | reservedF => exact rest
  case trNode =>
    obtain ⟨unusedA, high⟩ : fieldA w = 0#8 ∧ (fieldC w).extractLsb' 18 237 = 0#237 := by simpa [rowChecks] using h
    rw [unusedA] at fields
    simpa only [rowInstr, encode, packChildren_extract _ high] using fields
  case rdReg =>
    obtain ⟨high, unusedB, unusedC, low⟩ : (fieldA w).extractLsb' 2 6 = 0#6 ∧ fieldB w = 0#9 ∧ fieldC w = 0#255 ∧
        (fieldA w).extractLsb' 0 2 ≠ 3#2 := by simpa [rowChecks] using h
    rw [unusedB, unusedC] at fields
    simpa only [rowInstr, encode, RegNo.bits_ofNumber high low] using fields
  all_goals
    simp [rowChecks] at h
    simpa only [rowInstr, encode, h] using fields

/-- A command whose word passes its row's checks is well formed: only CT_WRITE has a condition. -/
theorem wellFormed_rowInstr {c : Config} {w : CmdWord} {o : Opcode} (h : ∀ x ∈ rowChecks c w o, x.1 = false) :
    (rowInstr w o).WellFormed c := by
  cases o
  case ctWrite => exact ctWriteChecks_pass.1 h
  all_goals trivial

/-- Settles O23: the checks leave no bit of the word free. -/
theorem noBitIgnored : Obligations.NoBitIgnored := by
  intro c w i h
  obtain ⟨rfl, pass⟩ := decode_eq_command.1 h
  exact ⟨encode_rowInstr rfl pass, wellFormed_rowInstr pass⟩

/-! ## The opcode table -/

/-- Two words are equal when their four fields are. -/
theorem word_eq_iff_fields {v w : CmdWord} :
    v = w ↔ fieldOp v = fieldOp w ∧ fieldA v = fieldA w ∧ fieldB v = fieldB w ∧ fieldC v = fieldC w := by
  refine ⟨fun h => by simp [h], fun ⟨op, a, b, c⟩ => ?_⟩
  rw [← packWord_fields v, ← packWord_fields w, op, a, b, c]

/-- `w AND mask = match` (R70), field by field: OP is the row's, and each other field is zero under the row's mask. -/
theorem matches_row_iff (w : CmdWord) (o : Opcode) :
    w &&& o.mask = o.pattern ↔ Opcode.ofBits (fieldOp w) = o ∧ fieldA w &&& fieldA o.mask = 0#8 ∧
      fieldB w &&& fieldB o.mask = 0#9 ∧ fieldC w &&& fieldC o.mask = 0#255 := by
  have pattern : fieldOp o.pattern = o.bits ∧ fieldA o.pattern = 0#8 ∧ fieldB o.pattern = 0#9 ∧
      fieldC o.pattern = 0#255 := by cases o <;> decide
  have op : fieldOp (w &&& o.mask) = fieldOp w := by
    have ones : fieldOp o.mask = BitVec.allOnes 4 := by cases o <;> decide
    rw [← BitVec.and_allOnes (x := fieldOp w), ← ones, fieldOp, BitVec.extractLsb'_and]
    rfl
  have row : fieldOp w = o.bits ↔ Opcode.ofBits (fieldOp w) = o :=
    ⟨fun h => by rw [h, Opcode.ofBits_bits], fun h => by rw [← h, Opcode.bits_ofBits]⟩
  obtain ⟨pOp, pA, pB, pC⟩ := pattern
  rw [word_eq_iff_fields, op, pOp, pA, pB, pC, row]
  simp only [fieldA, fieldB, fieldC, BitVec.extractLsb'_and]

/-- A mask over the high bits only tells whether they are zero. -/
theorem and_highOnes_eq_zero {m n : Nat} {v : BitVec (m + n)} :
    v &&& (BitVec.allOnes m ++ 0#n) = 0#(m + n) ↔ v.extractLsb' n m = 0#m := by
  have split : v.extractLsb' n m ++ v.extractLsb' 0 n = v := by
    apply BitVec.eq_of_getLsbD_eq
    intro i hi
    simp only [BitVec.getLsbD_append, BitVec.getLsbD_extractLsb']
    grind
  conv_lhs => rw [← split, BitVec.and_append, BitVec.and_allOnes, BitVec.and_zero, ← BitVec.zero_append_zero,
    BitVec.append_left_inj]

/-- The row's mask by fields A, B and C: zero over an operand, one over a bit that must be zero (R70, R74). -/
def Opcode.fieldMasks (o : Opcode) : BitVec 8 × BitVec 9 × CodeBits :=
  match o with
  | .nop | .ctClear | .trClear | .encStart | .encEnd | .decStart | .decEnd =>
    (BitVec.allOnes 8, BitVec.allOnes 9, BitVec.allOnes 255)
  | .ctWrite | .reservedE | .reservedF => (0#8, 0#9, 0#255)
  | .trLeaf => (0#8, 0#9, BitVec.allOnes 255)
  | .trNode => (BitVec.allOnes 8, 0#9, BitVec.allOnes 237 ++ 0#18)
  | .trRoot => (BitVec.allOnes 8, 0#9, BitVec.allOnes 255)
  | .rdReg => (BitVec.allOnes 6 ++ 0#2, BitVec.allOnes 9, BitVec.allOnes 255)
  | .encSym | .decBit => (0#8, BitVec.allOnes 9, BitVec.allOnes 255)

theorem fields_mask (o : Opcode) : (fieldA o.mask, fieldB o.mask, fieldC o.mask) = o.fieldMasks := by
  cases o <;> decide

/-- A row's checks pass exactly when the word is zero under the row's mask and meets the row's constraint. -/
theorem rowChecks_pass_iff (c : Config) (w : CmdWord) (o : Opcode) :
    (∀ x ∈ rowChecks c w o, x.1 = false) ↔
      (fieldA w &&& o.fieldMasks.1 = 0#8 ∧ fieldB w &&& o.fieldMasks.2.1 = 0#9 ∧
        fieldC w &&& o.fieldMasks.2.2 = 0#255) ∧
      (o = .ctWrite → ctWriteLegal c (fieldB w) (fieldC w)) ∧
      (o = .rdReg → (fieldA w).extractLsb' 0 2 ≠ 3#2) := by
  cases o
  case ctWrite => simpa [rowChecks, Opcode.fieldMasks] using ctWriteChecks_pass
  case trNode =>
    simp [rowChecks, Opcode.fieldMasks, and_highOnes_eq_zero (m := 237) (n := 18), -BitVec.reduceAllOnes]
  case rdReg =>
    simp [rowChecks, Opcode.fieldMasks, and_highOnes_eq_zero (m := 6) (n := 2), and_assoc, -BitVec.reduceAllOnes]
  all_goals simp [rowChecks, Opcode.fieldMasks, -BitVec.reduceAllOnes]

/-- Settles O24: the decoder answers a command of the row exactly when OP is the row's and the row's checks pass. -/
theorem decoderAgreesWithOpcodeTable : Obligations.DecoderAgreesWithOpcodeTable := by
  intro c w o
  have regno : (fieldA w).extractLsb' 0 2 = w.extractLsb' 264 2 := by
    apply BitVec.eq_of_getLsbD_eq
    intro i hi
    simp only [fieldA, BitVec.getLsbD_extractLsb']
    grind
  have row : (∃ i, decode c w = .command i ∧ i.opcode = o) ↔
      Opcode.ofBits (fieldOp w) = o ∧ ∀ x ∈ rowChecks c w o, x.1 = false := by
    simp only [decode_eq_command]
    constructor
    · rintro ⟨i, ⟨rfl, pass⟩, rfl⟩
      simpa using pass
    · rintro ⟨rfl, pass⟩
      exact ⟨_, ⟨rfl, pass⟩, opcode_rowInstr _ _⟩
  rw [row, rowChecks_pass_iff, matches_row_iff, ← fields_mask, regno, and_assoc]
  rfl

end Sys2Proof
end

section
/-! Where a response with a code of 4 or more comes from (`60_exceptions.md` R173 to R175), and the words of a command
sequence (`30_encoding.md` R82, R83). -/

namespace Sys2Proof.Machine

variable {i : Instr} {s u : State}

/-- A path that answers with a code below 4 is no transaction fault. -/
theorem not_fault_of_respond {c : BitVec 4} {st : Status} {info : Info} {P : Prop} (low : st.bits.toNat < 4)
    (same : u.rsp = s.rsp) (code : responseCode s (u.respond st info) = some c) (high : 4 ≤ c.toNat) : P := by
  rw [responseCode_respond st info same] at code
  cases code
  omega

/-- Settles O27, path by path: the paths of a fault's entry, its replay and its return give the seven cases, and every
other path answers with a code below 4. -/
theorem faultEntryReplayAndReturn : Obligations.FaultEntryReplayAndReturn := by
  intro i s t c inv h code high
  cases effect_of_exec h
  case encSymUnknown x active missing => exact .inl ⟨active, x, rfl, missing, rfl⟩
  case decBitBadch ch bad active => exact .inr (.inl ⟨active, ch, .eBadch, _, rfl, .inl ⟨rfl, rfl⟩, rfl⟩)
  case decBitNotree b active unset =>
    exact .inr (.inl ⟨active, chr b, .eNotree, _, rfl, .inr (.inl ⟨rfl, rfl⟩), rfl⟩)
  case decBitNoEntry b active set missing =>
    exact .inr (.inl ⟨active, chr b, .eBadtree, _, rfl, .inr (.inr (.inl ⟨rfl, s.cur, missing, rfl⟩)), rfl⟩)
  case decBitNoChild b l r active set node missing =>
    exact .inr (.inl ⟨active, chr b, .eBadtree, _, rfl, .inr (.inr (.inl ⟨rfl, childOf b l r, missing, rfl⟩)), rfl⟩)
  case decBitLeafOne x active set leaf =>
    exact .inr (.inl ⟨active, chr true, .eMalformed, _, rfl, .inr (.inr (.inr ⟨rfl, rfl⟩)), rfl⟩)
  case decEndMidCode active mid => exact .inr (.inr (.inl ⟨active, rfl, mid, rfl⟩))
  case encSymReplay x faulted => exact .inr (.inr (.inr (.inl ⟨faulted, ⟨x, rfl⟩, rfl⟩)))
  case encEndFaulted faulted => exact .inr (.inr (.inr (.inr (.inl ⟨faulted, rfl, rfl⟩))))
  case decBitReplay ch faulted => exact .inr (.inr (.inr (.inr (.inr (.inl ⟨faulted, ⟨ch, rfl⟩, rfl⟩)))))
  case decEndFaulted faulted => exact .inr (.inr (.inr (.inr (.inr (.inr ⟨faulted, rfl, rfl⟩)))))
  all_goals exact not_fault_of_respond (by decide) rfl code high

/-- Settles O42, by induction on the commands: a word decodes to its command, which leaves the parameters as they
were. -/
theorem wordsRunTheirCommands : Obligations.WordsRunTheirCommands := by
  intro is s wf
  induction is generalizing s with
  | nil => rfl
  | cons i is ih =>
    obtain ⟨first, later⟩ := List.forall_mem_cons.1 wf
    obtain ⟨t, ht, path⟩ := exec_effect i s
    have word : accept (encode i) s = .next t := (accept_of_command (decodeOfEncode _ i first)).trans ht
    have tail : runWords (wordsOf is) t = runInstrs is t := ih t (path.cfg_eq ▸ later)
    calc runWords (wordsOf (i :: is)) s = andThen (accept (encode i) s) (runWords (wordsOf is)) := rfl
      _ = runInstrs is t := by rw [word, andThen_next, tail]
      _ = runInstrs (i :: is) s := (runInstrs_cons_of_next ht).symm

end Sys2Proof.Machine
end

section
/-! Command sequences that are answered OK throughout, and LOAD_TABLE as one of them (`30_encoding.md` R83,
`40_environment_reference.md` R105, R110). -/

namespace Sys2Proof.Machine

variable {i : Instr} {is js : List Instr} {s t u : State}

/-! ## Sequences answered OK throughout -/

/-- The commands take `s` to `t`, whatever responses wait on RSP, and each is answered OK with info 0. The two states
are compared without their RSP. -/
def AnswersOk (is : List Instr) (s t : State) : Prop :=
  ∀ r : List RspWord,
    runInstrs is { s with rsp := r } = .next { t with rsp := r ++ List.replicate is.length 0x00000000#32 }

/-- The run from the state itself. -/
theorem AnswersOk.run (h : AnswersOk is s t) :
    runInstrs is s = .next { t with rsp := s.rsp ++ List.replicate is.length 0x00000000#32 } :=
  h s.rsp

theorem AnswersOk.nil (s : State) : AnswersOk [] s s := fun r => by simp

theorem AnswersOk.append (h : AnswersOk is s t) (h' : AnswersOk js t u) : AnswersOk (is ++ js) s u := fun r => by
  rw [runInstrs_append_of_next (h r), h', List.length_append, List.replicate_add, List.append_assoc]

/-- One command: a path that ends in OK. -/
theorem AnswersOk.single (h : ∀ r, Effect i { s with rsp := r } (State.respond { t with rsp := r } .ok 0#28)) :
    AnswersOk [i] s t := fun r => by
  rw [runInstrs_cons_of_next (exec_of_effect (h r)), runInstrs_nil, State.respond, rspWord_ok]
  rfl

theorem AnswersOk.cons (h : AnswersOk [i] s t) (h' : AnswersOk is t u) : AnswersOk (i :: is) s u :=
  h.append h'

/-! ## Code tables -/

theorem mem_allSyms (x : Sym) : x ∈ allSyms :=
  List.mem_map.2 ⟨x.toNat, List.mem_range.2 x.isLt, by simp⟩

theorem nodup_allSyms : allSyms.Nodup := by
  refine List.nodup_range.map_on fun a ha b hb heq => ?_
  have := congrArg BitVec.toNat heq
  simp only [List.mem_range] at ha hb
  simpa [Nat.mod_eq_of_lt ha, Nat.mod_eq_of_lt hb] using this

/-- The code a table gives is one of its entries. -/
theorem CodeTable.mem_of_code? {tab : CodeTable} {x : Sym} {k : Code} (h : tab.code? x = some k) : (x, k) ∈ tab := by
  induction tab with
  | nil => simp [CodeTable.code?] at h
  | cons e tab ih =>
    obtain ⟨y, k'⟩ := e
    simp only [CodeTable.code?] at h
    split_ifs at h with hxy
    · obtain rfl := Option.some.inj h
      exact hxy ▸ List.mem_cons_self
    · exact List.mem_cons_of_mem _ (ih h)

/-- The domain of a table: the symbols of its entries. -/
theorem CodeTable.isSome_code? {tab : CodeTable} {x : Sym} : (tab.code? x).isSome = true ↔ x ∈ tab.map Prod.fst := by
  induction tab with
  | nil => simp [CodeTable.code?]
  | cons e tab ih =>
    obtain ⟨y, k⟩ := e
    by_cases hxy : x = y <;> simp [CodeTable.code?, hxy, ih]

/-- Every code of the table has a length that CT_WRITE accepts (R74). -/
def CodeTable.Fits (c : Config) (tab : CodeTable) : Prop :=
  ∀ x k, tab.code? x = some k → 1 ≤ k.length ∧ k.length ≤ c.maxh.toNat

/-- A state whose entries are those of the table has it loaded (R110): a legal length fits its 8 bits. -/
theorem tableLoaded_of_reads {tab : CodeTable} (fits : tab.Fits s.cfg)
    (reads : ∀ x, s.ctRead x = (tab.code? x).map codeEntry) : s.TableLoaded tab := by
  intro x
  cases hx : tab.code? x with
  | none => simp [reads, hx]
  | some k =>
    have := (fits x k hx).2
    have := s.cfg.maxh.isLt
    refine ⟨codeEntry k, by simp [reads, hx], ?_, rfl⟩
    simp only [codeEntry, BitVec.toNat_ofNat]
    omega

/-! ## LOAD_TABLE -/

/-- CT_WRITE of a code of legal length stores its entry (R123). -/
theorem answersOk_ctWriteOf (x : Sym) {k : Code} (idle : s.encSt = .idle) (pos : 1 ≤ k.length)
    (max : k.length ≤ s.cfg.maxh.toNat) : AnswersOk [ctWriteOf x k] s (s.ctWrite x (codeEntry k)) := by
  have width : (BitVec.ofNat 9 k.length).setWidth 8 = BitVec.ofNat 8 k.length := by
    apply BitVec.eq_of_toNat_eq
    simp only [BitVec.toNat_setWidth, BitVec.toNat_ofNat]
    omega
  refine .single fun r => ?_
  have path := Effect.ctWrite x (BitVec.ofNat 9 k.length) (codeBits k) { s with rsp := r }
    (wellFormed_ctWriteOf (x := x) pos max) idle
  rwa [width] at path

/-- The CT_WRITE commands for some symbols store the entries of those that have a code and leave the others. -/
theorem answersOk_ctWrites (tab : CodeTable) (xs : List Sym) (idle : s.encSt = .idle) (fits : tab.Fits s.cfg) :
    ∃ m : Memory CtEntry, AnswersOk (xs.filterMap (fun x => (tab.code? x).map (ctWriteOf x))) s { s with ct := m } ∧
      ∀ y : Sym, m.read y.toNat =
        ((if y ∈ xs then tab.code? y else none).map codeEntry).or (s.ct.read y.toNat) := by
  induction xs generalizing s with
  | nil => exact ⟨s.ct, .nil s, by simp⟩
  | cons x xs ih =>
    cases hx : tab.code? x with
    | none =>
      obtain ⟨m, run, reads⟩ := ih idle fits
      refine ⟨m, by simpa [hx] using run, fun y => ?_⟩
      by_cases hy : y = x <;> simp [reads, hy, hx]
    | some k =>
      obtain ⟨m, run, reads⟩ := ih (s := s.ctWrite x (codeEntry k)) idle fits
      obtain ⟨pos, max⟩ := fits x k hx
      refine ⟨m, ?_, fun y => ?_⟩
      · simpa [hx] using (answersOk_ctWriteOf x idle pos max).cons run
      · by_cases hy : y = x
        · by_cases again : x ∈ xs <;> simp [reads, hy, hx, again, Memory.read_write]
        · simp [reads, hy, Memory.read_write, BitVec.toNat_inj]

/-- LOAD_TABLE from ENC_ST = IDLE loads the table and writes CT only (R110). -/
theorem answersOk_loadTable {tab : CodeTable} (idle : s.encSt = .idle) (fits : tab.Fits s.cfg) :
    ∃ m : Memory CtEntry, AnswersOk (loadTable tab) s { s with ct := m } ∧
      State.TableLoaded { s with ct := m } tab := by
  obtain ⟨m, run, reads⟩ := answersOk_ctWrites (s := s.ctClearAll) tab allSyms idle fits
  have clear : AnswersOk [.ctClear] s s.ctClearAll := .single fun r => .ctClear { s with rsp := r } idle
  refine ⟨m, clear.cons run, tableLoaded_of_reads fits fun x => ?_⟩
  simpa [State.ctRead, mem_allSyms] using reads x

end Sys2Proof.Machine
end

section
/-! LOAD_TREE (`30_encoding.md` R83, `40_environment_reference.md` R109). The leaves take the first indices and the
internal nodes the next ones in post-order, so that a subtree's image lies below the next free index and no later
write meets it. -/

namespace Sys2Proof.Machine

variable {s : State}

/-! ## The commands that write TM -/

theorem toNat_ofNat_idx {n : Nat} (h : n < 512) : (BitVec.ofNat 9 n).toNat = n := by
  rw [BitVec.toNat_ofNat]
  omega

theorem answersOk_trLeaf {n : Nat} (fits : n < 512) (x : Sym) (idle : s.decSt = .idle) :
    AnswersOk [.trLeaf (BitVec.ofNat 9 n) x] s { s with tm := s.tm.write n (.leaf x) } := .single fun r => by
  have path := Effect.trLeaf (BitVec.ofNat 9 n) x { s with rsp := r } idle
  rwa [State.tmWrite, toNat_ofNat_idx fits] at path

theorem answersOk_trNode {n : Nat} (fits : n < 512) (i j : Idx) (idle : s.decSt = .idle) :
    AnswersOk [.trNode (BitVec.ofNat 9 n) i j] s { s with tm := s.tm.write n (.internal i j) } := .single fun r => by
  have path := Effect.trNode (BitVec.ofNat 9 n) i j { s with rsp := r } idle
  rwa [State.tmWrite, toNat_ofNat_idx fits] at path

theorem answersOk_trClear (idle : s.decSt = .idle) : AnswersOk [.trClear] s (s.tmClearAll.setRoot 0#9 false) :=
  .single fun r => .trClear { s with rsp := r } idle

theorem answersOk_trRoot (i : Idx) (idle : s.decSt = .idle) : AnswersOk [.trRoot i] s (s.setRoot i true) :=
  .single fun r => .trRoot i { s with rsp := r } idle

/-! ## The leaves -/

/-- The leaf symbols each have one place in the order. -/
theorem leafOrder_perm {t : Tree} (h : t.symbols.Nodup) : (leafOrder t).Perm t.symbols :=
  (List.perm_ext_iff_of_nodup (nodup_allSyms.filter _) h).2 fun x => by simp [mem_allSyms]

theorem length_leafOrder_le (t : Tree) : (leafOrder t).length ≤ 256 :=
  (List.length_filter_le _ _).trans (by simp [allSyms])

/-- The TR_LEAF commands store the leaves at successive indices and leave the other entries. -/
theorem answersOk_leafWrites (order : List Sym) (k : Nat) (idle : s.decSt = .idle) (room : k + order.length ≤ 512) :
    ∃ m : Memory TmNode, AnswersOk (leafWrites order k) s { s with tm := m } ∧
      (∀ j x, order[j]? = some x → m.read (k + j) = some (.leaf x)) ∧
      ∀ a, a < k ∨ k + order.length ≤ a → m.read a = s.tm.read a := by
  induction order generalizing s k with
  | nil => exact ⟨s.tm, .nil s, by simp, fun _ _ => rfl⟩
  | cons x order ih =>
    rw [List.length_cons] at room
    obtain ⟨m, run, stored, others⟩ := ih (s := { s with tm := s.tm.write k (.leaf x) }) (k + 1) idle (by omega)
    refine ⟨m, (answersOk_trLeaf (by omega) x idle).cons run, fun j y hj => ?_, fun a ha => ?_⟩
    · cases j with
      | zero =>
        obtain rfl : x = y := by simpa using hj
        rw [Nat.add_zero, others _ (by omega), Memory.read_write, if_pos rfl]
      | succ j =>
        rw [show k + (j + 1) = k + 1 + j by omega]
        exact stored j y (by simpa using hj)
    · rw [List.length_cons] at ha
      rw [others a (by omega), Memory.read_write, if_neg (by omega)]

/-- Every symbol of the order is stored as a leaf at its place in it. -/
def LeavesStored (order : List Sym) (m : Memory TmNode) : Prop :=
  ∀ x ∈ order, m.read (order.idxOf x) = some (.leaf x)

/-! ## The internal nodes -/

/-- A subtree takes as many indices as it has internal nodes, one fewer than its leaves. -/
theorem placeNodes_next (order : List Sym) (t : Tree) (k : Nat) :
    (placeNodes order t k).2.2 + 1 = k + t.symbols.length := by
  induction t generalizing k with
  | leaf x w => rfl
  | internal w l r hl hr =>
    have hl := hl k
    have hr := hr (placeNodes order l k).2.2
    simp only [placeNodes, Tree.symbols, List.length_append]
    omega

theorem Tree.symbols_length_pos (t : Tree) : 1 ≤ t.symbols.length := by
  induction t with
  | leaf x w => exact le_rfl
  | internal w l r hl hr =>
    rw [Tree.symbols, List.length_append]
    omega

theorem Tree.nodeCount_add_one (t : Tree) : t.nodeCount + 1 = 2 * t.symbols.length := by
  induction t with
  | leaf x w => rfl
  | internal w l r hl hr =>
    rw [Tree.nodeCount, Tree.symbols, List.length_append]
    omega

/-- The index of a subtree's root lies below the next free index. -/
theorem placeNodes_root_lt {order : List Sym} {t : Tree} {k : Nat} (places : order.length ≤ k)
    (known : ∀ x ∈ t.symbols, x ∈ order) : (placeNodes order t k).2.1 < (placeNodes order t k).2.2 := by
  cases t with
  | leaf x w => exact (List.idxOf_lt_length_of_mem (known x (by simp [Tree.symbols]))).trans_le places
  | internal w l r => exact Nat.lt_succ_self _

/-- The TR_NODE commands of a subtree write the indices from `k` up to the next free one. The subtree is then in
every memory that agrees below that index: what is written above it later does not matter. -/
theorem answersOk_placeNodes {order : List Sym} {t : Tree} (k : Nat) (idle : s.decSt = .idle)
    (places : order.length ≤ k) (room : k + t.symbols.length ≤ 513) (known : ∀ x ∈ t.symbols, x ∈ order)
    (leaves : LeavesStored order s.tm) :
    ∃ m : Memory TmNode, AnswersOk (placeNodes order t k).1 s { s with tm := m } ∧
      (∀ n : Memory TmNode, (∀ a < (placeNodes order t k).2.2, n.read a = m.read a) →
        Represents n (BitVec.ofNat 9 (placeNodes order t k).2.1) t) ∧
      ∀ a, a < k ∨ (placeNodes order t k).2.2 ≤ a → m.read a = s.tm.read a := by
  induction t generalizing s k with
  | leaf x w =>
    have hx := known x (by simp [Tree.symbols])
    have place := List.idxOf_lt_length_of_mem hx
    have := Tree.symbols_length_pos (.leaf x w)
    refine ⟨s.tm, .nil s, fun n agrees => ?_, fun _ _ => rfl⟩
    simp only [placeNodes] at agrees ⊢
    rw [Represents, toNat_ofNat_idx (by omega), agrees _ (by omega), leaves x hx]
  | internal w l r hl hr =>
    simp only [Tree.symbols, List.mem_append, List.length_append] at known room
    have := l.symbols_length_pos
    have := r.symbols_length_pos
    have hk := placeNodes_next order l k
    have hk' := placeNodes_next order r (placeNodes order l k).2.2
    obtain ⟨m₁, run₁, image₁, others₁⟩ := hl k idle places (by omega) (fun x hx => known x (.inl hx)) leaves
    have leaves₁ : LeavesStored order m₁ := fun x hx => by
      rw [others₁ _ (.inl ((List.idxOf_lt_length_of_mem hx).trans_le places)), leaves x hx]
    obtain ⟨m₂, run₂, image₂, others₂⟩ := hr (s := { s with tm := m₁ }) (placeNodes order l k).2.2 idle (by omega)
      (by omega) (fun x hx => known x (.inr hx)) leaves₁
    have rootL := placeNodes_root_lt places (fun x hx => known x (.inl hx))
    have rootR := placeNodes_root_lt (k := (placeNodes order l k).2.2) (by omega) (fun x hx => known x (.inr hx))
    simp only [placeNodes]
    generalize placeNodes order l k = left at *
    generalize placeNodes order r left.2.2 = right at *
    refine ⟨_, (run₁.append run₂).append (answersOk_trNode (by omega) _ _ idle), fun n agrees => ?_, fun a ha => ?_⟩
    · have below (a : Nat) (ha : a < right.2.2) : n.read a = m₂.read a := by
        rw [agrees a (by omega), Memory.read_write, if_neg (by omega)]
      refine ⟨BitVec.ofNat 9 left.2.1, BitVec.ofNat 9 right.2.1, ?_, image₁ n fun a ha => ?_, image₂ n below⟩
      · rw [toNat_ofNat_idx (by omega), agrees _ (by omega), Memory.read_write, if_pos rfl]
      · rw [below a (by omega), others₂ a (.inl ha)]
    · rw [Memory.read_write, if_neg (by omega), others₂ a (by omega), others₁ a (by omega)]

/-! ## The whole sequence -/

/-- LOAD_TREE from DEC_ST = IDLE loads the tree, leaves every entry the tree does not use invalid, and writes TM, ROOT
and ROOT_V only (R109). -/
theorem answersOk_loadTree {t : Tree} (idle : s.decSt = .idle) (distinct : t.symbols.Nodup) :
    ∃ (m : Memory TmNode) (i : Idx), AnswersOk (loadTree t) s { s with tm := m, root := i, rootV := true } ∧
      Represents m i t ∧ ∀ a, t.nodeCount ≤ a → m.read a = none := by
  have perm := leafOrder_perm distinct
  have small := length_leafOrder_le t
  have next := placeNodes_next (leafOrder t) t (leafOrder t).length
  have nodes := t.nodeCount_add_one
  have := t.symbols_length_pos
  have := perm.length_eq
  obtain ⟨m₁, run₁, stored, others₁⟩ :=
    answersOk_leafWrites (s := s.tmClearAll.setRoot 0#9 false) (leafOrder t) 0 idle (by omega)
  have leaves : LeavesStored (leafOrder t) m₁ := fun x hx => by
    simpa using stored _ x (List.getElem?_idxOf hx)
  obtain ⟨m₂, run₂, image, others₂⟩ := answersOk_placeNodes (s := { s.tmClearAll.setRoot 0#9 false with tm := m₁ })
    (leafOrder t).length idle le_rfl (by omega) (fun x hx => perm.mem_iff.2 hx) leaves
  refine ⟨m₂, _, (answersOk_trClear idle).cons ((run₁.append run₂).append (answersOk_trRoot _ idle)),
    image m₂ fun _ _ => rfl, fun a ha => ?_⟩
  rw [others₂ a (by omega)]
  simpa using others₁ a (by omega)

end Sys2Proof.Machine
end

section
/-! The codes of a tree as paths from its root (`40_environment_reference.md` R105 to R108), and what ENCODE and
DECODE do with them when all are known (`42_encoder.md` R148, `43_decoder.md` R155, R162). -/

namespace Sys2Proof.Machine

variable {s : State} {t : Tree} {tab : CodeTable} {x : Sym} {k : Code} {b : List Sym}

/-! ## Codes as paths -/

/-- An entry of the walk is the path so far, extended by the path to a leaf. -/
theorem Tree.follow_of_mem_walk {p : Code} (h : (x, k) ∈ t.walk p) :
    ∃ q w, k = p ++ q ∧ t.follow q = some (.leaf x w) := by
  induction t generalizing p with
  | leaf y w =>
    obtain ⟨rfl, rfl⟩ : x = y ∧ k = p := by simpa [Tree.walk] using h
    exact ⟨[], w, by simp, rfl⟩
  | internal w l r hl hr =>
    obtain h | h := List.mem_append.1 h
    · obtain ⟨q, v, rfl, path⟩ := hl h
      exact ⟨false :: q, v, by simp, path⟩
    · obtain ⟨q, v, rfl, path⟩ := hr h
      exact ⟨true :: q, v, by simp, path⟩

/-- The code of a leaf of a tree with two or more leaves is its path (R105). -/
theorem follow_of_mem_codes {w : Nat} {l r : Tree} (h : (x, k) ∈ codes (.internal w l r)) :
    ∃ v, (Tree.internal w l r).follow k = some (.leaf x v) := by
  obtain ⟨q, v, rfl, path⟩ := Tree.follow_of_mem_walk h
  exact ⟨v, path⟩

theorem Tree.length_le_height_of_follow {u : Tree} (h : t.follow k = some u) : k.length ≤ t.height := by
  induction k generalizing t with
  | nil => exact Nat.zero_le _
  | cons b k ih =>
    cases t with
    | leaf y w => simp [Tree.follow] at h
    | internal w l r =>
      simp only [Tree.follow] at h
      simp only [List.length_cons, Tree.height]
      cases b
      · have := ih (t := l) h
        omega
      · have := ih (t := r) h
        omega

/-- The lengths of a derived table's codes (R106, R108 b). -/
theorem length_of_mem_codes (h : (x, k) ∈ codes t) : 1 ≤ k.length ∧ k.length ≤ max 1 t.height := by
  cases t with
  | leaf y w =>
    obtain ⟨-, rfl⟩ : x = y ∧ k = [false] := by simpa [codes] using h
    exact ⟨le_rfl, le_max_left _ _⟩
  | internal w l r =>
    obtain ⟨v, path⟩ := follow_of_mem_codes h
    refine ⟨?_, (Tree.length_le_height_of_follow path).trans (le_max_right _ _)⟩
    cases k with
    | nil => simp [Tree.follow] at path
    | cons b k => simp

/-- A derived table covers the leaves' symbols (R108 a). -/
theorem codes_map_fst (t : Tree) : (codes t).map Prod.fst = t.symbols := by
  cases t with
  | leaf y w => rfl
  | internal w l r => exact Tree.walk_map_fst _ _

theorem isSome_code?_codes : ((codes t).code? x).isSome = true ↔ x ∈ t.symbols := by
  rw [CodeTable.isSome_code?, codes_map_fst]

/-- The codes of a tree no higher than MAXH have lengths that CT_WRITE accepts (R107). -/
theorem codes_fits {c : Config} (legal : c.Legal) (low : t.height ≤ c.maxh.toNat) : (codes t).Fits c := by
  intro x k h
  obtain ⟨pos, bound⟩ := length_of_mem_codes (CodeTable.mem_of_code? h)
  exact ⟨pos, bound.trans (max_le legal low)⟩

theorem encodedStream_cons (h : tab.code? x = some k) (b : List Sym) :
    encodedStream tab (x :: b) = k ++ encodedStream tab b := by
  simp [encodedStream, h]

/-! ## ENCODE -/

/-- ENC_SYM of a symbol with a code emits the code (R142). -/
theorem answersOk_encSym (active : s.encSt = .active) (loaded : s.TableLoaded tab) (known : tab.code? x = some k) :
    AnswersOk [.encSym x] s (s.emitEnc (charsOf k)) := by
  have entry := loaded x
  rw [known] at entry
  obtain ⟨e, found, length, code⟩ := entry
  refine .single fun r => ?_
  have path := Effect.encSym x e { s with rsp := r } active found
  rwa [CtEntry.symbols_eq length code] at path

theorem answersOk_encSyms (b : List Sym) (active : s.encSt = .active) (loaded : s.TableLoaded tab)
    (known : ∀ x ∈ b, (tab.code? x).isSome = true) :
    AnswersOk (b.map .encSym) s (s.emitEnc (charsOf (encodedStream tab b))) := by
  induction b generalizing s with
  | nil => simpa [encodedStream, charsOf, State.emitEnc] using AnswersOk.nil s
  | cons x b ih =>
    obtain ⟨first, later⟩ := List.forall_mem_cons.1 known
    obtain ⟨k, hk⟩ := Option.isSome_iff_exists.1 first
    have run := (answersOk_encSym active loaded hk).cons (ih (s := s.emitEnc (charsOf k)) active loaded later)
    simpa [encodedStream_cons hk, charsOf, State.emitEnc, List.append_assoc] using run

/-- ENCODE from ENC_ST = IDLE, of symbols that all have a code (R148). -/
theorem answersOk_encodeMacro (idle : s.encSt = .idle) (loaded : s.TableLoaded tab)
    (known : ∀ x ∈ b, (tab.code? x).isSome = true) :
    AnswersOk (encodeMacro b) s
      { s with encSt := .idle, encErr := .ok, encOut := s.encOut ++ charsOf (encodedStream tab b) } := by
  have start : AnswersOk [.encStart] s { s with encSt := .active, encErr := .ok } :=
    .single fun r => .encStart { s with rsp := r } idle
  have body := answersOk_encSyms (s := { s with encSt := .active, encErr := .ok }) b rfl loaded known
  exact start.cons (body.append (.single fun r => .encEnd _ rfl))

/-! ## DECODE -/

/-- The image of an internal node: the child a symbol selects is the image of the subtree it selects (R109). -/
theorem Represents.children {tm : Memory TmNode} {i : Idx} {w : Nat} {l r : Tree}
    (h : Represents tm i (.internal w l r)) :
    ∃ i₀ i₁, tm.read i.toNat = some (.internal i₀ i₁) ∧
      ∀ c : BitSym, Represents tm (childOf c i₀ i₁) (if c then r else l) := by
  obtain ⟨i₀, i₁, node, left, right⟩ := h
  refine ⟨i₀, i₁, node, fun c => ?_⟩
  cases c
  · exact left
  · exact right

/-- The path of a leaf, walked from the image of an internal node: every character but the last moves CUR to the
child it selects, and the last one emits the leaf and returns to the root (R152, R155). -/
theorem answersOk_path {v w : Nat} {l r : Tree} (active : s.decSt = .active) (set : s.rootV = true)
    (image : Represents s.tm s.cur (.internal w l r)) (path : (Tree.internal w l r).follow k = some (.leaf x v)) :
    AnswersOk ((charsOf k).map .decBit) s ((s.emitDec x).setCur s.root) := by
  induction k generalizing s w l r with
  | nil => simp [Tree.follow] at path
  | cons c k ih =>
    obtain ⟨i₀, i₁, node, children⟩ := image.children
    have child := children c
    have rest : (if c then r else l).follow k = some (.leaf x v) := by cases c <;> exact path
    generalize (if c then r else l) = sub at child rest
    cases sub with
    | leaf y u =>
      cases k with
      | cons d k => simp [Tree.follow] at rest
      | nil =>
        obtain ⟨rfl, -⟩ : y = x ∧ u = v := by simpa [Tree.follow] using rest
        exact .single fun r => .decBitLeaf c i₀ i₁ y { s with rsp := r } active set node child
    | internal u l' r' =>
      obtain ⟨j₀, j₁, node', -⟩ := child.children
      have move : AnswersOk [.decBit (chr c)] s (s.setCur (childOf c i₀ i₁)) :=
        .single fun r => .decBitMove c i₀ i₁ j₀ j₁ { s with rsp := r } active set node node'
      exact move.cons (ih (s := s.setCur (childOf c i₀ i₁)) active set child rest)

/-- One code of the loaded tree, from the root: its byte, and back at the root (R155, R156). -/
theorem answersOk_code (active : s.decSt = .active) (loaded : s.TreeLoaded t) (atRoot : s.cur = s.root)
    (code : (x, k) ∈ codes t) : AnswersOk ((charsOf k).map .decBit) s (s.emitDec x) := by
  obtain ⟨set, image⟩ := loaded
  rw [← atRoot] at image
  cases t with
  | leaf y w =>
    obtain ⟨rfl, rfl⟩ : x = y ∧ k = [false] := by simpa [codes] using code
    exact .single fun r => .decBitLeafZero x { s with rsp := r } active set image
  | internal w l r =>
    obtain ⟨v, path⟩ := follow_of_mem_codes code
    have stays : (s.emitDec x).setCur s.root = s.emitDec x := by rw [← atRoot]; rfl
    exact stays ▸ answersOk_path active set image path

theorem answersOk_codes (b : List Sym) (active : s.decSt = .active) (loaded : s.TreeLoaded t)
    (atRoot : s.cur = s.root) (known : ∀ x ∈ b, x ∈ t.symbols) :
    AnswersOk ((charsOf (encodedStream (codes t) b)).map .decBit) s { s with decOut := s.decOut ++ b } := by
  induction b generalizing s with
  | nil => simpa [encodedStream, charsOf] using AnswersOk.nil s
  | cons x b ih =>
    obtain ⟨first, later⟩ := List.forall_mem_cons.1 known
    obtain ⟨k, hk⟩ := Option.isSome_iff_exists.1 (isSome_code?_codes.2 first)
    have run := (answersOk_code active loaded atRoot (CodeTable.mem_of_code? hk)).append
      (ih (s := s.emitDec x) active loaded atRoot later)
    simpa [encodedStream_cons hk, charsOf, List.append_assoc] using run

/-- DECODE from DEC_ST = IDLE, of the codes of symbols of the loaded tree (R162). -/
theorem answersOk_decodeMacro (idle : s.decSt = .idle) (loaded : s.TreeLoaded t) (known : ∀ x ∈ b, x ∈ t.symbols) :
    AnswersOk (decodeMacro (charsOf (encodedStream (codes t) b))) s
      { s with decSt := .idle, decErr := .ok, cur := s.root, decOut := s.decOut ++ b } := by
  have start : AnswersOk [.decStart] s { s with decSt := .active, decErr := .ok, cur := s.root } :=
    .single fun r => .decStart { s with rsp := r } idle
  have body := answersOk_codes (s := { s with decSt := .active, decErr := .ok, cur := s.root }) b rfl loaded rfl known
  exact start.cons (body.append (.single fun r => .decEnd _ rfl rfl))

end Sys2Proof.Machine
end

section
/-! The round trip from every idle state (`40_environment_reference.md` R109 to R118): the four command sequences of
R83 one after the other, each answered OK throughout, and their words. -/

namespace Sys2Proof.Machine

variable {c : Config} {i : Instr} {t : Tree} {b : List Sym}

/-! ## The symbols of a Huffman tree -/

/-- The symbols of the frequency table: those present, in ascending order (R92). -/
theorem freqTable_map_fst (b : List Sym) :
    (freqTable b).map Prod.fst = allSyms.filter (fun x => decide (0 < b.count x)) := by
  simp [freqTable, allSyms, List.filter_map, Function.comp_def]

/-- A Huffman tree of the input has one leaf for each entry of its frequency table (R102). -/
theorem IsHuffmanTree.symbols_perm {f : List FreqEntry} (h : IsHuffmanTree f t) : t.symbols.Perm (f.map Prod.fst) := by
  obtain ⟨leaves, -⟩ := h.2.facts
  rw [Tree.symbols_eq]
  exact List.Perm.map _ (by simpa [List.flatMap_map, leafOf, Tree.leaves] using leaves)

theorem IsHuffmanTree.symbols_nodup (h : IsHuffmanTree (freqTable b) t) : t.symbols.Nodup := by
  rw [h.symbols_perm.nodup_iff, freqTable_map_fst]
  exact nodup_allSyms.filter _

theorem IsHuffmanTree.mem_symbols (h : IsHuffmanTree (freqTable b) t) (x : Sym) : x ∈ t.symbols ↔ x ∈ b := by
  rw [h.symbols_perm.mem_iff, freqTable_map_fst]
  simp [mem_allSyms, List.count_pos_iff]

/-! ## The commands of the four sequences are well formed -/

/-- Only CT_WRITE has a condition on its operands (R74). -/
theorem wellFormed_of_opcode_ne (h : i.opcode ≠ .ctWrite) : i.WellFormed c := by
  cases i
  case ctWrite => exact absurd rfl h
  all_goals trivial

theorem wellFormed_loadTable {tab : CodeTable} (fits : tab.Fits c) : ∀ i ∈ loadTable tab, i.WellFormed c := by
  intro i hi
  obtain rfl | hi := List.mem_cons.1 hi
  · trivial
  · obtain ⟨x, -, hx⟩ := List.mem_filterMap.1 hi
    obtain ⟨k, hk, rfl⟩ := Option.map_eq_some_iff.1 hx
    obtain ⟨pos, max⟩ := fits x k hk
    exact wellFormed_ctWriteOf pos max

theorem opcode_of_mem_leafWrites {order : List Sym} {k : Nat} (h : i ∈ leafWrites order k) : i.opcode = .trLeaf := by
  induction order generalizing k with
  | nil => simp [leafWrites] at h
  | cons x order ih =>
    obtain rfl | h := List.mem_cons.1 h
    · rfl
    · exact ih h

theorem opcode_of_mem_placeNodes {order : List Sym} {k : Nat} (h : i ∈ (placeNodes order t k).1) :
    i.opcode = .trNode := by
  induction t generalizing k with
  | leaf x w => simp [placeNodes] at h
  | internal w l r hl hr =>
    simp only [placeNodes, List.mem_append, List.mem_singleton] at h
    obtain (h | h) | rfl := h
    · exact hl h
    · exact hr h
    · rfl

theorem wellFormed_loadTree (t : Tree) : ∀ i ∈ loadTree t, i.WellFormed c := by
  intro i hi
  simp only [loadTree, List.mem_cons, List.mem_append, List.not_mem_nil, or_false] at hi
  obtain rfl | (hi | hi) | rfl := hi
  · trivial
  · exact wellFormed_of_opcode_ne (by simp [opcode_of_mem_leafWrites hi])
  · exact wellFormed_of_opcode_ne (by simp [opcode_of_mem_placeNodes hi])
  · trivial

theorem wellFormed_encodeMacro (b : List Sym) : ∀ i ∈ encodeMacro b, i.WellFormed c := by
  intro i hi
  simp only [encodeMacro, List.mem_cons, List.mem_append, List.mem_map, List.not_mem_nil, or_false] at hi
  obtain rfl | ⟨x, -, rfl⟩ | rfl := hi <;> trivial

theorem wellFormed_decodeMacro (e : List EncChar) : ∀ i ∈ decodeMacro e, i.WellFormed c := by
  intro i hi
  simp only [decodeMacro, List.mem_cons, List.mem_append, List.mem_map, List.not_mem_nil, or_false] at hi
  obtain rfl | ⟨ch, -, rfl⟩ | rfl := hi <;> trivial

/-! ## The round trip -/

/-- The four sequences one after the other: LOAD_TABLE and LOAD_TREE load the two images of the tree, ENCODE reads the
one and DECODE the other, and each leaves its engine IDLE. -/
theorem answersOk_roundTrip {s : State} (tree : IsHuffmanTree (freqTable b) t) (fits : (codes t).Fits s.cfg)
    (encIdle : s.encSt = .idle) (decIdle : s.decSt = .idle) :
    ∃ v, AnswersOk (loadTable (codes t) ++ loadTree t ++ encodeMacro b ++
        decodeMacro (charsOf (encodedStream (codes t) b))) s v ∧
      v.encOut = s.encOut ++ charsOf (encodedStream (codes t) b) ∧ v.decOut = s.decOut ++ b ∧
      v.runComplete = true := by
  have present (x : Sym) (hx : x ∈ b) : x ∈ t.symbols := (tree.mem_symbols x).2 hx
  obtain ⟨ct, loadsTable, table⟩ := answersOk_loadTable encIdle fits
  obtain ⟨tm, root, loadsTree, image, -⟩ := answersOk_loadTree (s := { s with ct := ct }) decIdle tree.symbols_nodup
  have encodes := answersOk_encodeMacro (s := { s with ct := ct, tm := tm, root := root, rootV := true })
    (tab := codes t) encIdle table fun x hx => isSome_code?_codes.2 (present x hx)
  have decodes := answersOk_decodeMacro (t := t)
    (s := { s with
      encSt := .idle, encErr := .ok, ct := ct, tm := tm, root := root, rootV := true
      encOut := s.encOut ++ charsOf (encodedStream (codes t) b) }) decIdle ⟨rfl, image⟩ present
  exact ⟨_, ((loadsTable.append loadsTree).append encodes).append decodes, rfl, rfl, rfl⟩

/-- Settles O51: the words run as their commands, which are well formed and answered OK throughout. -/
theorem loadEncodeDecodeRoundTrip : Obligations.LoadEncodeDecodeRoundTrip := by
  intro s b t _ tree legal low encIdle decIdle e ws
  have fits : (codes t).Fits s.cfg := codes_fits legal low
  obtain ⟨v, run, enc, dec, complete⟩ := answersOk_roundTrip tree fits encIdle decIdle
  have wf : ∀ i ∈ loadTable (codes t) ++ loadTree t ++ encodeMacro b ++ decodeMacro e, i.WellFormed s.cfg := by
    intro i hi
    simp only [List.mem_append] at hi
    obtain ((hi | hi) | hi) | hi := hi
    · exact wellFormed_loadTable fits i hi
    · exact wellFormed_loadTree t i hi
    · exact wellFormed_encodeMacro b i hi
    · exact wellFormed_decodeMacro e i hi
  refine ⟨_, (wordsRunTheirCommands _ s wf).trans run.run, enc, dec, ?_, complete⟩
  simp only [ws, wordsOf, List.length_map, e]

end Sys2Proof.Machine
end

section
/-! The environment's frequency table and its trees (`40_environment_reference.md` R92 to R95, R101 to R104). -/

namespace Sys2Proof.Machine

variable {b : List Sym}

/-! ## The frequency table -/

/-- The table is the count of each symbol present, in the order of `allSyms` (R92). -/
theorem freqTable_eq_map (b : List Sym) :
    freqTable b = (allSyms.filter (fun x => decide (0 < b.count x))).map (fun x => (x, b.count x)) := by
  simp [freqTable, allSyms, List.filter_map, Function.comp_def]

theorem mem_freqTable {x : Sym} {n : Nat} : (x, n) ∈ freqTable b ↔ n = b.count x ∧ 1 ≤ n := by
  rw [freqTable_eq_map]
  constructor
  · intro h
    obtain ⟨y, hy, heq⟩ := List.mem_map.1 h
    obtain ⟨rfl, rfl⟩ := Prod.mk.inj heq
    exact ⟨rfl, by simpa using (List.mem_filter.1 hy).2⟩
  · rintro ⟨rfl, pos⟩
    exact List.mem_map.2 ⟨x, List.mem_filter.2 ⟨mem_allSyms x, by simpa using pos⟩, rfl⟩

theorem allSyms_ascending : allSyms.Pairwise (fun x y => x.toNat < y.toNat) := by
  refine List.pairwise_map.2 (List.pairwise_lt_range.imp_of_mem fun {i j} hi hj hij => ?_)
  rw [List.mem_range] at hi hj
  simpa [Nat.mod_eq_of_lt hi, Nat.mod_eq_of_lt hj] using hij

/-- Settles O52: the entries are the symbols of `allSyms` that are present, each with its count. -/
theorem frequencyTableCounts : Obligations.FrequencyTableCounts := by
  refine fun b => ⟨fun x n => mem_freqTable, ?_⟩
  rw [freqTable_eq_map]
  exact List.pairwise_map.2 (allSyms_ascending.filter _)

/-- Summing over the bytes of the input is summing over the table, each symbol as often as it occurs. -/
theorem sum_freqTable (b : List Sym) (g : Sym → Nat) :
    ((freqTable b).map (fun e => e.2 * g e.1)).sum = (b.map g).sum := by
  have support : (allSyms.filter (fun x => decide (0 < b.count x))).toFinset = b.toFinset := by
    ext x
    simp [mem_allSyms, List.count_pos_iff]
  rw [freqTable_eq_map, List.map_map, Finset.sum_list_map_count b, ← support,
    List.sum_toFinset _ (nodup_allSyms.filter _)]
  rfl

theorem freqTable_eq_nil : freqTable b = [] ↔ b = [] := by
  constructor
  · intro h
    refine List.eq_nil_iff_forall_not_mem.2 fun x hx => ?_
    have : (x, b.count x) ∈ freqTable b := mem_freqTable.2 ⟨rfl, List.count_pos_iff.2 hx⟩
    rw [h] at this
    exact List.not_mem_nil this
  · rintro rfl
    simp [freqTable]

/-! ## Trees -/

theorem Tree.height_lt_length_symbols (t : Tree) : t.height < t.symbols.length := by
  induction t with
  | leaf x w => exact Nat.zero_lt_one
  | internal w l r hl hr =>
    simp only [Tree.height, Tree.symbols, List.length_append]
    omega

/-- Settles O53: the two counts are `Tree.nodeCount_add_one` and `Tree.height_lt_length_symbols`. -/
theorem treeShapeFacts : Obligations.TreeShapeFacts := by
  intro t
  have nodes := t.nodeCount_add_one
  have leaves := t.symbols_length_pos
  have low := t.height_lt_length_symbols
  refine ⟨by omega, by omega, by omega, fun two => ?_, fun bound => ⟨by omega, by omega⟩⟩
  cases t with
  | leaf x w => exact absurd two (by simp [Tree.symbols])
  | internal w l r => simp [Tree.height]

/-- Settles O54: the merges keep the leaves and the sum of the weights, which for the table is the number of bytes. -/
theorem huffmanTreeFacts : Obligations.HuffmanTreeFacts := by
  intro b t tree
  obtain ⟨-, adds, lighter, weight, -⟩ := tree.2.facts
  refine ⟨tree.mem_symbols, tree.symbols_nodup, adds (List.forall_mem_map.2 fun _ _ => trivial),
    lighter (List.forall_mem_map.2 fun _ _ => trivial), ?_⟩
  calc t.weight = ((freqTable b).map (fun e => e.2 * 1)).sum := by
        simpa [leafOf, Tree.weight, Function.comp_def] using weight
    _ = (b.map (fun _ => 1)).sum := sum_freqTable b fun _ => 1
    _ = b.length := by simp

/-- Settles O55: a forest that is not empty merges to some tree, and only the empty input has an empty table. -/
theorem huffmanTreeExists : Obligations.HuffmanTreeExists := by
  refine fun b => ⟨fun ⟨t, present, _⟩ empty => present (freqTable_eq_nil.2 empty), fun nonempty => ?_⟩
  have present : freqTable b ≠ [] := fun h => nonempty (freqTable_eq_nil.1 h)
  obtain ⟨t, merges⟩ := exists_mergesTo ((freqTable b).map leafOf) (by simpa using present)
  exact ⟨t, present, merges⟩

end Sys2Proof.Machine
end

section
/-! The tree builder over the heap (`40_environment_reference.md` R96 to R102). A run of the loop and a sequence of
merges are the same picks: the heap holds the forest, in an order that is a heap. -/

namespace Sys2Proof.Machine

variable {h h' h₁ h₂ : Heap} {x y t : Tree} {forest : List Tree}

theorem Heap.perm_of_insert (inserted : h.insert t = .ok h') : h'.nodes.Perm (t :: h.nodes) := by
  by_cases room : h.nodes.length < h.cap
  · obtain ⟨g, ok, perm, -⟩ := Heap.insert_ok t room
    rw [ok] at inserted
    exact EnvResult.ok.inj inserted ▸ perm
  · simp [Heap.insert, room] at inserted

/-- Two extractions take two nodes off the heap, a minimum and then a minimum of the others (R99, R100). -/
theorem HeapExtractMin.two (first : HeapExtractMin h x h₁) (second : HeapExtractMin h₁ y h₂) :
    h.nodes.Perm (x :: y :: h₂.nodes) ∧ (∀ z ∈ y :: h₂.nodes, x.weight ≤ z.weight) ∧
      (∀ z ∈ h₂.nodes, y.weight ≤ z.weight) ∧ h₂.cap = h.cap ∧ IsMinHeap h₂.nodes := by
  obtain ⟨o₁, nodes₁, min₁, kept₁, -, cap₁⟩ := first
  obtain ⟨o₂, nodes₂, min₂, kept₂, heap₂, cap₂⟩ := second
  have rest : o₁.Perm (y :: h₂.nodes) := kept₁.symm.trans (nodes₂.trans (kept₂.symm.cons y))
  exact ⟨nodes₁.trans (rest.cons x), fun z hz => min₁ z (rest.mem_iff.2 hz),
    fun z hz => min₂ z (kept₂.mem_iff.1 hz), cap₂.trans cap₁, heap₂⟩

/-- A run of the builder makes the merges of its picks (R101, R102). -/
theorem BuilderRun.mergesTo (run : BuilderRun h t) : MergesTo h.nodes t := by
  induction run with
  | done h t one => exact one ▸ .done t
  | merge h h₁ h₂ h₃ x y t first second inserted later ih =>
    obtain ⟨picks, min₁, min₂, -, -⟩ := first.two second
    exact .merge _ h₂.nodes x y t picks min₁ min₂ (ih.perm (Heap.perm_of_insert inserted))

/-- Any sequence of merges is a run of the builder, from every heap that holds the forest within its capacity. -/
theorem MergesTo.builderRun (merges : MergesTo forest t) (nodes : h.nodes.Perm forest)
    (room : h.nodes.length ≤ h.cap) : BuilderRun h t := by
  induction merges generalizing h with
  | done t => exact .done h t (List.perm_singleton.1 nodes)
  | merge forest others x y t picks first second later ih =>
    obtain ⟨a, permA, heapA⟩ := exists_isMinHeap (y :: others)
    obtain ⟨b, permB, heapB⟩ := exists_isMinHeap others
    have size := (nodes.trans picks).length_eq
    have sizeB := permB.length_eq
    simp only [List.length_cons] at size
    obtain ⟨h₃, inserted, perm₃, cap₃, -⟩ :=
      Heap.insert_ok (h := ⟨b, h.cap⟩) (mergeNode x y) (show b.length < h.cap by omega)
    have size₃ := perm₃.length_eq
    simp only [List.length_cons] at size₃ cap₃
    exact .merge h ⟨a, h.cap⟩ ⟨b, h.cap⟩ h₃ x y t ⟨_, nodes.trans picks, first, permA, heapA, rfl⟩
      ⟨others, permA, second, permB, heapB, rfl⟩ inserted (ih (perm₃.trans (permB.cons _)) (by omega))

/-- Settles O56: the runs are the sequences of merges of the forest that the heap holds. -/
theorem builderRunsGiveHuffmanTrees : Obligations.BuilderRunsGiveHuffmanTrees := by
  intro f h t nonempty ⟨nodes, _, cap⟩
  refine ⟨fun run => ⟨nonempty, run.mergesTo.perm nodes⟩, fun tree => tree.2.builderRun nodes ?_⟩
  rw [nodes.length_eq, cap, List.length_map]

/-- Settles O57: a heap that can be built holds a forest, which merges to some tree; after two extractions there is
room for one insertion; and no node of a heap is lighter than the one at index 0. -/
theorem builderAlwaysFinishes : Obligations.BuilderAlwaysFinishes := by
  refine ⟨fun f => ?_, fun f h nonempty build => ?_, fun h h₁ h₂ x y room first second => ?_,
    fun h h₁ x others heap nodes kept heap₁ cap => ?_⟩
  · obtain ⟨a, perm, heap⟩ := exists_isMinHeap (f.map leafOf)
    exact ⟨⟨a, f.length⟩, perm, heap, rfl⟩
  · obtain ⟨t, merges⟩ := exists_mergesTo (f.map leafOf) (by simpa using nonempty)
    exact ⟨t, (builderRunsGiveHuffmanTrees f h t nonempty build).2 ⟨nonempty, merges⟩⟩
  · obtain ⟨picks, -, -, cap, heap⟩ := first.two second
    have size := picks.length_eq
    simp only [List.length_cons] at size
    obtain ⟨h₃, inserted, perm, cap₃, keeps⟩ := Heap.insert_ok (h := h₂) (mergeNode x y) (by omega)
    have size₃ := perm.length_eq
    simp only [List.length_cons] at size₃
    exact ⟨h₃, inserted, perm, by omega, cap₃.trans cap, keeps heap⟩
  · rw [nodes] at heap
    exact ⟨others, .of_eq nodes, heap.head_le_mem, kept, heap₁, cap⟩

end Sys2Proof.Machine
end

section
/-! The derived code table (`40_environment_reference.md` R105 to R108) and its optimality (R116). -/

namespace Sys2Proof.Machine

variable {t u : Tree} {x : Sym} {w : Nat} {k k' : Code}

/-! ## Codes end at leaves -/

/-- A path that reaches a leaf goes no further. -/
theorem Tree.follow_append_of_leaf (atLeaf : t.follow k = some (.leaf x w))
    (further : t.follow (k ++ k') = some u) : k' = [] := by
  induction k generalizing t with
  | nil =>
    obtain rfl : t = .leaf x w := by simpa [Tree.follow] using atLeaf
    cases k' with
    | nil => rfl
    | cons c k' => simp [Tree.follow] at further
  | cons c k ih =>
    cases t with
    | leaf y v => simp [Tree.follow] at atLeaf
    | internal v l r =>
      cases c
      · exact ih (t := l) atLeaf further
      · exact ih (t := r) atLeaf further

/-- No code of a tree begins another one: both end at leaves (R108 c). -/
theorem codes_prefixFree (t : Tree) : (codes t).PrefixFree := by
  intro x y k₁ k₂ h₁ h₂ ne ⟨rest, hrest⟩
  have mem₁ := CodeTable.mem_of_code? h₁
  have mem₂ := CodeTable.mem_of_code? h₂
  cases t with
  | leaf z w =>
    simp only [codes, List.mem_singleton, Prod.mk.injEq] at mem₁ mem₂
    exact ne (mem₁.1.trans mem₂.1.symm)
  | internal w l r =>
    obtain ⟨v₁, path₁⟩ := follow_of_mem_codes mem₁
    obtain ⟨v₂, path₂⟩ := follow_of_mem_codes mem₂
    rw [← hrest] at path₂
    obtain rfl := Tree.follow_append_of_leaf path₁ path₂
    rw [List.append_nil, path₁] at path₂
    simp only [Option.some.injEq, Tree.leaf.injEq] at path₂
    exact ne path₂.1

/-- Settles O58: the lengths are bounded by the height, and 256 distinct symbols bound the height by 255. -/
theorem derivationUnderHeightLimit : Obligations.DerivationUnderHeightLimit := by
  intro maxh t legal distinct
  have derived {limit : Nat} (low : t.height ≤ limit) : deriveCodes limit t = .ok (codes t) := if_neg (by omega)
  refine ⟨fun high => if_pos high, fun low => ⟨derived low, fun x k h => ?_⟩, derived ?_⟩
  · obtain ⟨pos, bound⟩ := length_of_mem_codes (CodeTable.mem_of_code? h)
    exact ⟨pos, bound.trans (max_le legal low)⟩
  · have leaves := (leafOrder_perm distinct).length_eq
    have small := length_leafOrder_le t
    have low := t.height_lt_length_symbols
    omega

/-- Settles O59: the codes are the paths to the leaves, and a path that reaches a leaf goes no further. -/
theorem derivedCodeTableFacts : Obligations.DerivedCodeTableFacts := by
  refine fun t _ => ⟨fun x => isSome_code?_codes, fun x k h => length_of_mem_codes (CodeTable.mem_of_code? h),
    codes_prefixFree t, fun high x k h => ?_⟩
  cases t with
  | leaf y w => simp [Tree.height] at high
  | internal w l r =>
    obtain ⟨v, path⟩ := follow_of_mem_codes (CodeTable.mem_of_code? h)
    refine ⟨⟨v, path⟩, ?_⟩
    rintro k₁ k₂ rfl proper y u atLeaf
    exact proper (Tree.follow_append_of_leaf atLeaf path)

/-! ## Optimality -/

/-- The lengths of any other table that covers the symbols meet Kraft's inequality, and the merges end in no costlier
tree (R116). -/
theorem IsHuffmanTree.optimal {f : List FreqEntry} (distinct : (f.map Prod.fst).Nodup) (two : 2 ≤ f.length)
    (tree : IsHuffmanTree f t) : (codes t).Optimal f := by
  intro other prefixFree covers
  have kraft := prefixFree.kraft distinct (by simpa using covers)
  have bound := tree.2.innerWeight_le (f.map (fun e => (leafOf e, ((other.code? e.1).getD []).length)))
    (by simp [Function.comp_def]) (by simpa [Function.comp_def] using kraft)
  rw [tableCost_codes distinct two tree]
  simpa [depthCost, tableCost, leafOf, Tree.weight, Tree.innerWeight, Function.comp_def] using bound

/-- A single tree merges to itself only (R103). -/
theorem MergesTo.eq_of_singleton (h : MergesTo [u] t) : t = u := by
  cases h with
  | done => rfl
  | merge _ others x y _ picks => exact absurd picks.length_eq (by simp)

/-- The stream of an input is as long as the cost of its frequency table (R116). -/
theorem length_encodedStream (tab : CodeTable) (b : List Sym) :
    (encodedStream tab b).length = tableCost (freqTable b) tab := by
  rw [tableCost, sum_freqTable b fun x => ((tab.code? x).getD []).length, encodedStream, List.length_flatMap]

/-- Settles O60: the codes cover the leaves' symbols and none begins another, Kraft's inequality bounds every other
table from below, and ENCODE emits the concatenated codes. -/
theorem huffmanCostIsOptimal : Obligations.HuffmanCostIsOptimal := by
  refine ⟨fun f t distinct two tree => ⟨codes_prefixFree t, fun e he => ?_, tree.optimal distinct two⟩,
    fun x n t tree => ?_, fun b t s tree idle loaded => ?_⟩
  · exact isSome_code?_codes.2 (tree.symbols_perm.mem_iff.2 (List.mem_map_of_mem he))
  · obtain rfl : t = .leaf x n := tree.2.eq_of_singleton
    simp [tableCost, codes, CodeTable.code?]
  · have run := (answersOk_encodeMacro (b := b) idle loaded fun x hx =>
      isSome_code?_codes.2 ((tree.mem_symbols x).2 hx)).run
    exact ⟨_, _, run, rfl, by rw [charsOf, List.length_map, length_encodedStream]⟩

end Sys2Proof.Machine
end

section
/-! What LOAD_TABLE and LOAD_TREE leave in the block (`40_environment_reference.md` R109, R110), and the results of an
ENCODE and of a DECODE (R114). A result is read from the trace: the data commands of a transaction collect what they
emit, and the response to its END closes it (`42_encoder.md` R146, `43_decoder.md` R160). -/

namespace Sys2Proof.Machine

variable {i : Instr} {s t u v : State} {b : List Sym} {e : List (BitVec 8)} {c : Status} {info : Info}

/-! ## Loading -/

/-- Settles O43: `answersOk_loadTable` from the state's own RSP. -/
theorem loadTableLoadsTable : Obligations.LoadTableLoadsTable := by
  intro tab s idle fits
  obtain ⟨m, loads, table⟩ := answersOk_loadTable idle fits
  exact ⟨_, loads.run, table, rfl⟩

/-- Settles O44: `answersOk_loadTree` from the state's own RSP. -/
theorem loadTreeLoadsTree : Obligations.LoadTreeLoadsTree := by
  intro t s idle distinct
  obtain ⟨m, root, loads, image, unused⟩ := answersOk_loadTree idle distinct
  exact ⟨_, loads.run, ⟨rfl, image⟩, unused, rfl⟩

/-! ## The trace of a command sequence -/

@[simp] theorem eventOf_command (d : Decoded) (s t : State) : (eventOf d s t).command = d := rfl

/-- The word of a well-formed command contributes the command's event. -/
theorem trace_encode_cons (wf : i.WellFormed s.cfg) (path : Effect i s t) (ws : List CmdWord) :
    trace (encode i :: ws) s = eventOf (.command i) s t :: trace ws t := by
  have decoded := decodeOfEncode s.cfg i wf
  rw [trace_cons_of_next ((accept_of_command decoded).trans (exec_of_effect path)), decoded]

/-! ## The result of an ENCODE -/

theorem encodeResults_encStart (ok : (eventOf (.command .encStart) s t).code = some Status.ok.bits)
    (es : List Event) :
    encodeResults none (eventOf (.command .encStart) s t :: es) = encodeResults (some []) es := by
  simp only [encodeResults, eventOf_command, ok, if_true]

theorem encodeResults_encSym (emitted : t.encOut = s.encOut ++ e) (acc : List EncChar) (x : Sym) (es : List Event) :
    encodeResults (some acc) (eventOf (.command (.encSym x)) s t :: es) = encodeResults (some (acc ++ e)) es := by
  have collected : (eventOf (.command (.encSym x)) s t).enc = e := by simp [eventOf, emitted]
  simp only [encodeResults, eventOf_command, collected]

theorem encodeResults_encEnd (acc : List EncChar)
    (answer : (eventOf (.command .encEnd) s t).code = some c.bits) :
    encodeResults (some acc) [eventOf (.command .encEnd) s t] = (closingResult (some c.bits) acc).toList := by
  simp only [encodeResults, eventOf_command, answer]
  cases closingResult (some c.bits) acc <;> rfl

/-- The ENC_SYMs of an open transaction collect what they append to ENC_OUT. -/
theorem encodeResults_encSyms (run : runInstrs (b.map .encSym) s = .next t) :
    ∃ e, t.encOut = s.encOut ++ e ∧ ∀ acc ws,
      encodeResults (some acc) (trace (wordsOf (b.map .encSym) ++ ws) s) =
        encodeResults (some (acc ++ e)) (trace ws t) := by
  induction b generalizing s with
  | nil =>
    cases run
    exact ⟨[], by simp, by simp [wordsOf]⟩
  | cons x b ih =>
    obtain ⟨u, hu, path⟩ := exec_effect (.encSym x) s
    rw [List.map_cons, runInstrs_cons_of_next hu] at run
    obtain ⟨e₁, first, -⟩ := path.encOut_eq
    obtain ⟨e₂, later, results⟩ := ih run
    refine ⟨e₁ ++ e₂, by rw [later, first, List.append_assoc], fun acc ws => ?_⟩
    calc encodeResults (some acc) (trace (wordsOf ((x :: b).map .encSym) ++ ws) s)
        = encodeResults (some acc)
            (eventOf (.command (.encSym x)) s u :: trace (wordsOf (b.map .encSym) ++ ws) u) :=
          congrArg _ (trace_encode_cons trivial path _)
      _ = encodeResults (some (acc ++ e₁)) (trace (wordsOf (b.map .encSym) ++ ws) u) :=
          encodeResults_encSym first acc x _
      _ = encodeResults (some (acc ++ (e₁ ++ e₂))) (trace ws t) := by rw [results, List.append_assoc]

/-- The one result of an ENCODE from ENC_ST = IDLE: what the response to its ENC_END says of what it emitted (R146). -/
theorem encodeResults_encodeMacro (idle : s.encSt = .idle)
    (run : runInstrs (b.map .encSym) (State.respond { s with encSt := .active, encErr := .ok } .ok 0#28) = .next u)
    (emitted : u.encOut = s.encOut ++ e) (last : Effect .encEnd u (v.respond c info)) (answered : v.rsp = u.rsp) :
    encodeResults none (trace (wordsOf (encodeMacro b)) s) = (closingResult (some c.bits) e).toList := by
  obtain ⟨e', appended, results⟩ := encodeResults_encSyms run
  obtain rfl : e' = e := List.append_cancel_left (appended.symm.trans emitted)
  have words : wordsOf (encodeMacro b) = encode .encStart :: (wordsOf (b.map .encSym) ++ [encode .encEnd]) := by
    simp [wordsOf, encodeMacro]
  rw [words, trace_encode_cons trivial (.encStart s idle), encodeResults_encStart (eventOf_code rfl), results,
    List.nil_append, trace_encode_cons trivial last]
  exact encodeResults_encEnd _ (eventOf_code (by rw [State.respond_rsp, answered]))

/-- The result of an ENCODE of symbols that all have a code (R148). -/
theorem encodeResults_of_known {tab : CodeTable} (idle : s.encSt = .idle) (loaded : s.TableLoaded tab)
    (known : ∀ x ∈ b, (tab.code? x).isSome = true) :
    encodeResults none (trace (wordsOf (encodeMacro b)) s) = [.ok (charsOf (encodedStream tab b))] :=
  encodeResults_encodeMacro idle
    (answersOk_encSyms (s := { s with encSt := .active, encErr := .ok }) b rfl loaded known _) rfl (.encEnd _ rfl) rfl

/-! ## The result of a DECODE -/

theorem decodeResults_decStart (ok : (eventOf (.command .decStart) s t).code = some Status.ok.bits)
    (es : List Event) :
    decodeResults none (eventOf (.command .decStart) s t :: es) = decodeResults (some []) es := by
  simp only [decodeResults, eventOf_command, ok, if_true]

theorem decodeResults_decBit (emitted : t.decOut = s.decOut ++ e) (acc : List Sym) (ch : EncChar) (es : List Event) :
    decodeResults (some acc) (eventOf (.command (.decBit ch)) s t :: es) = decodeResults (some (acc ++ e)) es := by
  have collected : (eventOf (.command (.decBit ch)) s t).dec = e := by simp [eventOf, emitted]
  simp only [decodeResults, eventOf_command, collected]

theorem decodeResults_decEnd (acc : List Sym)
    (answer : (eventOf (.command .decEnd) s t).code = some c.bits) :
    decodeResults (some acc) [eventOf (.command .decEnd) s t] = (closingResult (some c.bits) acc).toList := by
  simp only [decodeResults, eventOf_command, answer]
  cases closingResult (some c.bits) acc <;> rfl

/-- The DEC_BITs of an open transaction collect what they append to DEC_OUT. -/
theorem decodeResults_decBits {cs : List EncChar} (run : runInstrs (cs.map .decBit) s = .next t) :
    ∃ e, t.decOut = s.decOut ++ e ∧ ∀ acc ws,
      decodeResults (some acc) (trace (wordsOf (cs.map .decBit) ++ ws) s) =
        decodeResults (some (acc ++ e)) (trace ws t) := by
  induction cs generalizing s with
  | nil =>
    cases run
    exact ⟨[], by simp, by simp [wordsOf]⟩
  | cons ch cs ih =>
    obtain ⟨u, hu, path⟩ := exec_effect (.decBit ch) s
    rw [List.map_cons, runInstrs_cons_of_next hu] at run
    obtain ⟨e₁, first, -⟩ := path.decOut_eq
    obtain ⟨e₂, later, results⟩ := ih run
    refine ⟨e₁ ++ e₂, by rw [later, first, List.append_assoc], fun acc ws => ?_⟩
    calc decodeResults (some acc) (trace (wordsOf ((ch :: cs).map .decBit) ++ ws) s)
        = decodeResults (some acc)
            (eventOf (.command (.decBit ch)) s u :: trace (wordsOf (cs.map .decBit) ++ ws) u) :=
          congrArg _ (trace_encode_cons trivial path _)
      _ = decodeResults (some (acc ++ e₁)) (trace (wordsOf (cs.map .decBit) ++ ws) u) :=
          decodeResults_decBit first acc ch _
      _ = decodeResults (some (acc ++ (e₁ ++ e₂))) (trace ws t) := by rw [results, List.append_assoc]

/-- The one result of a DECODE from DEC_ST = IDLE: what the response to its DEC_END says of what it emitted (R160). -/
theorem decodeResults_decodeMacro {cs : List EncChar} (idle : s.decSt = .idle)
    (run : runInstrs (cs.map .decBit)
      (State.respond { s with decSt := .active, decErr := .ok, cur := s.root } .ok 0#28) = .next u)
    (emitted : u.decOut = s.decOut ++ e) (last : Effect .decEnd u (v.respond c info)) (answered : v.rsp = u.rsp) :
    decodeResults none (trace (wordsOf (decodeMacro cs)) s) = (closingResult (some c.bits) e).toList := by
  obtain ⟨e', appended, results⟩ := decodeResults_decBits run
  obtain rfl : e' = e := List.append_cancel_left (appended.symm.trans emitted)
  have words : wordsOf (decodeMacro cs) = encode .decStart :: (wordsOf (cs.map .decBit) ++ [encode .decEnd]) := by
    simp [wordsOf, decodeMacro]
  rw [words, trace_encode_cons trivial (.decStart s idle), decodeResults_decStart (eventOf_code rfl), results,
    List.nil_append, trace_encode_cons trivial last]
  exact decodeResults_decEnd _ (eventOf_code (by rw [State.respond_rsp, answered]))

/-- The result of a DECODE of the codes of symbols of the loaded tree (R162). -/
theorem decodeResults_of_known {t : Tree} (idle : s.decSt = .idle) (loaded : s.TreeLoaded t)
    (known : ∀ x ∈ b, x ∈ t.symbols) :
    decodeResults none (trace (wordsOf (decodeMacro (charsOf (encodedStream (codes t) b)))) s) = [.ok b] :=
  decodeResults_decodeMacro idle
    (answersOk_codes (s := { s with decSt := .active, decErr := .ok, cur := s.root }) b rfl loaded rfl known _) rfl
    (.decEnd _ rfl rfl) rfl

/-! ## The round trip -/

/-- Settles O50: every byte is a symbol of the tree, so it has a code; and ENCODE leaves the tree loaded. -/
theorem roundTripAfterConsistentLoad : Obligations.RoundTripAfterConsistentLoad := by
  intro s b t _ tree _ ⟨treeLoaded, tableLoaded⟩ encIdle decIdle e
  have present (x : Sym) (hx : x ∈ b) : x ∈ t.symbols := (tree.mem_symbols x).2 hx
  have known (x : Sym) (hx : x ∈ b) : ((codes t).code? x).isSome = true := isSome_code?_codes.2 (present x hx)
  obtain ⟨u, encodes, idle, loaded⟩ :
      ∃ u, runInstrs (encodeMacro b) s = .next u ∧ u.decSt = .idle ∧ u.TreeLoaded t :=
    ⟨_, (answersOk_encodeMacro encIdle tableLoaded known).run, decIdle, treeLoaded⟩
  exact ⟨u, _, encodes, encodeResults_of_known encIdle tableLoaded known,
    (answersOk_decodeMacro idle loaded present).run, decodeResults_of_known idle loaded present⟩

end Sys2Proof.Machine
end

section
/-! The commands one by one (`41_control_and_load.md` R120 to R129). The effect of a command is the path of `Effect`
whose conditions hold, ended by one response. What a word with a given OP does is said once, by the checks of its row;
each command then needs only what its checks say of the word's bits. -/

namespace Sys2Proof.Machine

variable {i : Instr} {s u : State} {w : CmdWord} {o : Opcode}

/-! ## Numbers and bit fields -/

/-- A word put together of two parts, as a number. -/
theorem toNat_append_eq {m n : Nat} (x : BitVec m) (y : BitVec n) : (x ++ y).toNat = x.toNat * 2 ^ n + y.toNat := by
  rw [BitVec.toNat_append, ← Nat.shiftLeft_add_eq_or_of_lt y.isLt, Nat.shiftLeft_eq]

/-- A range of bits is zero exactly when its `m` high and its `n` low bits are. -/
theorem extractLsb'_add_eq_zero {k : Nat} {v : BitVec k} (start m n : Nat) :
    v.extractLsb' start (m + n) = 0#(m + n) ↔ v.extractLsb' (start + n) m = 0#m ∧ v.extractLsb' start n = 0#n := by
  rw [← BitVec.extractLsb'_append_extractLsb'_eq_extractLsb' rfl]
  simp [← BitVec.toNat_inj]

/-- Fields B and C are the 264 bits below A (R70). -/
theorem fieldsBC_eq_zero : fieldB w = 0#9 ∧ fieldC w = 0#255 ↔ w.extractLsb' 0 264 = 0#264 :=
  (extractLsb'_add_eq_zero 0 9 255).symm

/-- Fields A, B and C are the 272 bits below OP (R70). -/
theorem fieldsABC_eq_zero : fieldA w = 0#8 ∧ fieldB w = 0#9 ∧ fieldC w = 0#255 ↔ w.extractLsb' 0 272 = 0#272 := by
  rw [fieldsBC_eq_zero]
  exact (extractLsb'_add_eq_zero 0 8 264).symm

/-- A range of bits inside field C is the same range of the word: C stands at bit 0 (R70). -/
theorem extractLsb'_fieldC {start len : Nat} (inside : start + len ≤ 255) :
    (fieldC w).extractLsb' start len = w.extractLsb' start len := by
  rw [fieldC, BitVec.extractLsb'_extractLsb'_of_le inside]

/-! ## One response -/

/-- A path that ends in the response word `r` is the command's next state, written out as a record. -/
theorem exec_answers {c : Status} {info : Info} {r : RspWord} (path : Effect i s (u.respond c info))
    (word : rspWord c info = r) : exec i s = .next { u with rsp := u.rsp ++ [r] } :=
  word ▸ exec_of_effect path

/-- R120, R177: an illegal word is answered with E_BADCMD and nothing else happens. -/
theorem accept_answers_badcmd {why : Illegal} (illegal : decode s.cfg w = .illegal why) :
    accept w s = .next { s with rsp := s.rsp ++ [0x10000000#32] } :=
  rspWord_badcmd ▸ accept_of_illegal illegal

/-! ## A word with a known OP -/

/-- A word with the OP of a row is the row's command when it passes the row's checks, and is refused otherwise; `P` is
what the checks say. -/
theorem accept_of_row {P : Prop} [Decidable P] (pass : (∀ x ∈ rowChecks s.cfg w o, x.1 = false) ↔ P)
    (op : w.extractLsb' 272 4 = o.bits) :
    accept w s = if P then exec (rowInstr w o) s else .next { s with rsp := s.rsp ++ [0x10000000#32] } := by
  have row : Opcode.ofBits (fieldOp w) = o := by rw [fieldOp, op, Opcode.ofBits_bits]
  have scheme : decode s.cfg w = checked (rowChecks s.cfg w o) (rowInstr w o) := row ▸ decode_eq_checked s.cfg w
  split_ifs with hP
  · exact accept_of_command (scheme.trans (checked_eq_command.2 ⟨rfl, pass.2 hP⟩))
  · obtain command | ⟨why, illegal⟩ := checked_cases (rowChecks s.cfg w o) (rowInstr w o)
    · exact absurd (pass.1 (checked_eq_command.1 command).2) hP
    · exact accept_answers_badcmd (scheme.trans illegal)

/-- The checks of a command without operands: every bit below OP is zero (R73). -/
theorem noOperandChecks_pass :
    (∀ x ∈ [zeroA w, zeroB w, zeroC w], x.1 = false) ↔ w.extractLsb' 0 272 = 0#272 := by
  simp [← fieldsABC_eq_zero]

/-! ## NOP and the load commands -/

/-- Settles O1: NOP's one path, and its checks leave no other bit. -/
theorem nopAnswersOk : Obligations.NopAnswersOk := by
  intro s w
  exact ⟨exec_answers (.nop s) rspWord_ok, accept_of_row (o := .nop) noOperandChecks_pass⟩

/-- Settles O2: an empty memory has no entry at any address. -/
theorem ctClearEmptiesTable : Obligations.CtClearEmptiesTable := by
  intro s w
  refine ⟨fun idle => ?_, fun busy => ?_, accept_of_row (o := .ctClear) noOperandChecks_pass⟩
  · exact ⟨_, exec_answers (.ctClear s idle) rspWord_ok, rfl, fun _ => rfl⟩
  · exact exec_answers (.ctClearBusy s busy) rspWord_busy

/-- Settles O3: each list of operands takes one of the three paths, and the refusal of an illegal word is that of
its operands. -/
theorem ctWriteStoresCode : Obligations.CtWriteStoresCode := by
  intro s x l k w
  refine ⟨fun bad => ?_, fun legal busy => ?_, fun legal idle => ?_, fun op => ?_⟩
  · refine exec_answers (.ctWriteBad x l k s ?_) rspWord_badcmd
    rintro ⟨least, most, above⟩
    obtain short | long | ⟨i, hi, set⟩ := bad
    · omega
    · omega
    · exact Bool.false_ne_true ((above i hi).symm.trans set)
  · exact exec_answers (.ctWriteBusy x l k s legal busy) rspWord_busy
  · refine ⟨_, exec_answers (.ctWrite x l k s legal idle) rspWord_ok, rfl, fun a => ?_⟩
    rw [BitVec.ofNat_toNat]
    exact Memory.read_write _ _ _ _
  · rw [accept_of_row (o := .ctWrite) ctWriteChecks_pass op]
    split_ifs with legal
    · rfl
    · exact (exec_answers (.ctWriteBad _ _ _ s legal) rspWord_badcmd).symm

/-- Settles O4: the path writes TM and the root and leaves CUR. -/
theorem trClearForgetsTree : Obligations.TrClearForgetsTree := by
  intro s w
  refine ⟨fun idle => ?_, fun busy => ?_, accept_of_row (o := .trClear) noOperandChecks_pass⟩
  · exact ⟨_, exec_answers (.trClear s idle) rspWord_ok, rfl, fun _ => rfl⟩
  · exact exec_answers (.trClearBusy s busy) rspWord_busy

/-- Settles O5: the path is one write to TM, read back at every address. -/
theorem trLeafWritesLeaf : Obligations.TrLeafWritesLeaf := by
  intro s i x w
  refine ⟨fun idle => ?_, fun busy => ?_, accept_of_row (o := .trLeaf) ?_⟩
  · exact ⟨_, exec_answers (.trLeaf i x s idle) rspWord_ok, rfl, fun _ => Memory.read_write _ _ _ _⟩
  · exact exec_answers (.trLeafBusy i x s busy) rspWord_busy
  · simp [rowChecks, fieldC]

/-- Settles O6: the path is one write to TM, and the row's check of C is of bits 254:18 of the word. -/
theorem trNodeWritesNode : Obligations.TrNodeWritesNode := by
  intro s i l r w
  refine ⟨fun idle => ?_, fun busy => ?_, fun op => ?_⟩
  · exact ⟨_, exec_answers (.trNode i l r s idle) rspWord_ok, rfl, fun _ => Memory.read_write _ _ _ _⟩
  · exact exec_answers (.trNodeBusy i l r s busy) rspWord_busy
  · have pass : (∀ x ∈ rowChecks s.cfg w .trNode, x.1 = false) ↔
        w.extractLsb' 264 8 = 0#8 ∧ w.extractLsb' 18 237 = 0#237 := by
      simp [rowChecks, fieldA, extractLsb'_fieldC]
    rw [accept_of_row pass op, rowInstr, extractLsb'_fieldC (by decide), extractLsb'_fieldC (by decide)]
    rfl

/-- Settles O7: the path writes the root alone; field B is its operand, so A and C are checked. -/
theorem trRootNamesRoot : Obligations.TrRootNamesRoot := by
  intro s i w
  refine ⟨fun idle => ?_, fun busy => ?_, accept_of_row (o := .trRoot) ?_⟩
  · exact exec_answers (.trRoot i s idle) rspWord_ok
  · exact exec_answers (.trRootBusy i s busy) rspWord_busy
  · simp [rowChecks, fieldA, fieldC]

/-! ## Reserved opcodes and illegal words -/

/-- Settles O9: the reserved rows have no check, so every word of theirs takes the path that refuses. -/
theorem reservedOpcodesRefused : Obligations.ReservedOpcodesRefused := by
  intro s rest w
  refine ⟨exec_answers (.reservedE rest s) rspWord_badcmd, exec_answers (.reservedF rest s) rspWord_badcmd, ?_⟩
  rintro (op | op)
  · exact (accept_of_row (o := .reservedE) (P := True) (by simp [rowChecks]) op).trans
      (exec_answers (.reservedE (fieldRest w) s) rspWord_badcmd)
  · exact (accept_of_row (o := .reservedF) (P := True) (by simp [rowChecks]) op).trans
      (exec_answers (.reservedF (fieldRest w) s) rspWord_badcmd)

/-- Settles O19: the step accepts the head of CMD, and decoding reads only the configuration. -/
theorem stepRefusesIllegalWord : Obligations.StepRefusesIllegalWord := by
  intro s w more why hcmd illegal
  rw [step_of_cmd_cons hcmd]
  exact accept_answers_badcmd (s := { s with cmd := more }) illegal

/-! ## RD_REG -/

/-- R77: the code stands above the 28 bits of the info. -/
theorem toNat_rspWord (c : Status) (info : Info) : (rspWord c info).toNat = c.bits.toNat * 2 ^ 28 + info.toNat :=
  toNat_append_eq _ _

/-- An OK response as a number is its info (R77). -/
theorem rspWord_ok_eq_ofNat {info : Info} {n : Nat} (h : info.toNat = n) : rspWord .ok info = BitVec.ofNat 32 n := by
  apply BitVec.eq_of_toNat_eq
  have := info.isLt
  simp only [toNat_rspWord, Status.bits, h, BitVec.toNat_ofNat] at this ⊢
  omega

/-- STATUS as a number (R33). -/
theorem toNat_statusView : s.statusView.toNat =
    s.encSt.bits.toNat + s.encErr.bits.toNat * 4 + s.decSt.bits.toNat * 64 + s.decErr.bits.toNat * 256 := by
  rw [State.statusView, toNat_append_eq (m := 26) (n := 2), toNat_append_eq (m := 22) (n := 4),
    toNat_append_eq (m := 20) (n := 2), toNat_append_eq, BitVec.toNat_ofNat]
  omega

/-- DECPTR as a number (R34). -/
theorem toNat_decptrView : s.decptrView.toNat = s.cur.toNat + s.root.toNat * 512 + s.rootV.toNat * 262144 := by
  rw [State.decptrView, toNat_append_eq (m := 19) (n := 9), toNat_append_eq (m := 10) (n := 9), toNat_append_eq,
    BitVec.toNat_ofNat, BitVec.toNat_ofBool]
  omega

/-- CONFIG as a number (R35). -/
theorem toNat_configView : s.configView.toNat = s.cfg.maxh.toNat :=
  (toNat_append_eq 0#20 s.cfg.maxh).trans (by simp)

/-- R74: the register numbers of A[7:2] zero and A[1:0] not 3 are 0, 1 and 2. -/
theorem regno_legal_iff {a : BitVec 8} :
    a.extractLsb' 2 6 = 0#6 ∧ a.extractLsb' 0 2 ≠ 3#2 ↔ a = 0#8 ∨ a = 1#8 ∨ a = 2#8 := by
  constructor
  · rintro ⟨high, low⟩
    rw [← RegNo.bits_ofNumber high low]
    cases RegNo.ofNumber _ <;> decide
  · rintro (rfl | rfl | rfl) <;> decide

/-- The checks of RD_REG: B and C are zero and A is a register number. -/
theorem regnoChecks_pass {c : Config} : (∀ x ∈ rowChecks c w .rdReg, x.1 = false) ↔
    w.extractLsb' 0 264 = 0#264 ∧
      (w.extractLsb' 264 8 = 0#8 ∨ w.extractLsb' 264 8 = 1#8 ∨ w.extractLsb' 264 8 = 2#8) := by
  have checks : (∀ x ∈ rowChecks c w .rdReg, x.1 = false) ↔ (fieldA w).extractLsb' 2 6 = 0#6 ∧ fieldB w = 0#9 ∧
      fieldC w = 0#255 ∧ (fieldA w).extractLsb' 0 2 ≠ 3#2 := by simp [rowChecks]
  rw [checks, ← fieldsBC_eq_zero, ← regno_legal_iff, ← fieldA]
  tauto

/-- A register's number in field A spells its RD_REG (R72). -/
theorem rowInstr_rdReg {r : RegNo} (named : fieldA w = r.bits) : rowInstr w .rdReg = .rdReg r := by
  rw [rowInstr, named, RegNo.ofNumber_bits]

/-- RD_REG answers OK with the view as a number. -/
theorem rdReg_answers {r : RegNo} {n : Nat} (view : (s.regView r).toNat = n) :
    exec (.rdReg r) s = .next { s with rsp := s.rsp ++ [BitVec.ofNat 32 n] } :=
  exec_answers (.rdReg r s) (rspWord_ok_eq_ofNat view)

/-- Settles O8: the views are the numbers of R33 to R35, and the three register numbers are told apart by field A. -/
theorem rdRegReadsViews : Obligations.RdRegReadsViews := by
  intro s w
  refine ⟨rdReg_answers toNat_statusView, rdReg_answers toNat_decptrView, rdReg_answers toNat_configView, fun op => ?_⟩
  rw [accept_of_row regnoChecks_pass op]
  by_cases legal : w.extractLsb' 0 264 = 0#264 ∧
      (w.extractLsb' 264 8 = 0#8 ∨ w.extractLsb' 264 8 = 1#8 ∨ w.extractLsb' 264 8 = 2#8)
  · obtain ⟨unused, status | decptr | config⟩ := legal
    · simp [unused, status, rowInstr_rdReg (r := .status) status]
    · simp [unused, decptr, rowInstr_rdReg (r := .decptr) decptr]
    · simp [unused, config, rowInstr_rdReg (r := .config) config]
  · rw [if_neg legal, if_neg fun h => legal (h.imp_right .inl), if_neg fun h => legal (h.imp_right (.inr ∘ .inl)),
      if_neg fun h => legal (h.imp_right (.inr ∘ .inr))]

end Sys2Proof.Machine
end

section
/-! The encoder's commands one by one (`42_encoder.md` R141 to R143): the paths of `Effect` from each engine state, and
the words with their OP. -/

namespace Sys2Proof.Machine

/-- Settles O10: the two paths of ENC_START, and its checks leave no other bit. -/
theorem encStartOpensTransaction : Obligations.EncStartOpensTransaction := by
  intro s w
  refine ⟨fun idle => ?_, fun opened => ?_, accept_of_row (o := .encStart) noOperandChecks_pass⟩
  · exact exec_answers (.encStart s idle) rspWord_ok
  · exact exec_answers (.encStartSeq s opened) rspWord_seq

/-- R142: what ENC_SYM emits for an entry, bit by bit. -/
theorem CtEntry.symbols_map_chr (e : CtEntry) :
    e.symbols.map chr = (List.range e.len.toNat).map (fun i => if e.code.getLsbD i then 0x31#8 else 0x30#8) := by
  simp [CtEntry.symbols, chr_eq_ite]

/-- Settles O11: the four paths of ENC_SYM; field A is its operand, so B and C are checked. -/
theorem encSymEmitsCode : Obligations.EncSymEmitsCode := by
  intro s x w
  refine ⟨fun idle => ?_, fun faulted => ?_, fun active missing => ?_, fun active e found => ?_,
    accept_of_row (o := .encSym) ?_⟩
  · exact exec_answers (.encSymSeq x s idle) rspWord_seq
  · exact exec_answers (.encSymReplay x s faulted) rfl
  · exact exec_answers (.encSymUnknown x s active missing) rfl
  · rw [← e.symbols_map_chr]
    exact exec_answers (.encSym x e s active found) rspWord_ok
  · simp [rowChecks, ← fieldsBC_eq_zero]

/-- Settles O12: the three paths of ENC_END write ENC_ST at most. -/
theorem encEndClosesTransaction : Obligations.EncEndClosesTransaction := by
  intro s w
  refine ⟨fun idle => ?_, fun faulted => ?_, fun active => ?_, accept_of_row (o := .encEnd) noOperandChecks_pass⟩
  · exact exec_answers (.encEndSeq s idle) rspWord_seq
  · exact exec_answers (.encEndFaulted s faulted) rfl
  · exact exec_answers (.encEnd s active) rspWord_ok

end Sys2Proof.Machine
end

section
/-! ENCODE in every case (`42_encoder.md` R148). Of the run of its ENC_SYMs both the final state and the result are
read; with an unknown byte that run is the known part, the fault, and replays to the end. -/

namespace Sys2Proof.Machine

variable {s u v : State} {tab : CodeTable} {x : Sym} {b known later : List Sym}

@[simp] theorem rspWord_unksym : rspWord .eUnksym 0#28 = 0x40000000#32 := by decide

/-- In FAULTED every ENC_SYM replays the latched code with info 0 (R147, R174). -/
theorem runInstrs_encSyms_of_faulted (b : List Sym) (faulted : s.encSt = .faulted) :
    runInstrs (b.map .encSym) s =
      .next { s with rsp := s.rsp ++ List.replicate b.length (rspWord s.encErr 0#28) } := by
  induction b generalizing s with
  | nil => simp
  | cons x b ih =>
    rw [List.map_cons, runInstrs_cons_of_next (exec_of_effect (.encSymReplay x s faulted)),
      ih (s := s.respond s.encErr 0#28) faulted]
    simp [State.respond, List.replicate_succ]

/-- ENC_SYMs from one that finds no entry on: the fault with its byte, then replays (R142, R147). -/
theorem runInstrs_encSyms_of_missing (later : List Sym) (active : s.encSt = .active) (missing : s.ctRead x = none) :
    runInstrs ((x :: later).map .encSym) s = .next { s with
      encSt := .faulted, encErr := .eUnksym
      rsp := s.rsp ++ (4#4 ++ x.setWidth 28) :: List.replicate later.length 0x40000000#32 } := by
  have word : rspWord .eUnksym (x.setWidth 28) = 4#4 ++ x.setWidth 28 := rfl
  rw [List.map_cons, runInstrs_cons_of_next (exec_of_effect (.encSymUnknown x s active missing)),
    runInstrs_encSyms_of_faulted later rfl]
  simp [State.respond, word]

/-- ENC_SYMs up to a first unknown byte and beyond it: the codes of the known part, then the fault. -/
theorem runInstrs_encSyms_of_unknown (later : List Sym) (active : s.encSt = .active) (loaded : s.TableLoaded tab)
    (isKnown : ∀ y ∈ known, (tab.code? y).isSome = true) (unknown : tab.code? x = none) :
    runInstrs ((known ++ x :: later).map .encSym) s = .next { s with
      encSt := .faulted, encErr := .eUnksym, encOut := s.encOut ++ charsOf (encodedStream tab known)
      rsp := s.rsp ++ (List.replicate known.length 0x00000000#32 ++
        (4#4 ++ x.setWidth 28) :: List.replicate later.length 0x40000000#32) } := by
  have missing : s.ctRead x = none := by simpa [unknown] using loaded x
  rw [List.map_append, runInstrs_append_of_next (answersOk_encSyms known active loaded isKnown).run,
    runInstrs_encSyms_of_missing later]
  · simp [State.emitEnc]
  · exact active
  · exact missing

/-- ENCODE from ENC_ST = IDLE ends where its ENC_END ends. -/
theorem runInstrs_encodeMacro (idle : s.encSt = .idle)
    (run : runInstrs (b.map .encSym) (State.respond { s with encSt := .active, encErr := .ok } .ok 0#28) = .next u)
    (last : Effect .encEnd u v) : runInstrs (encodeMacro b) s = .next v := by
  rw [encodeMacro, runInstrs_cons_of_next (exec_of_effect (.encStart s idle)), runInstrs_append_of_next run,
    runInstrs_cons_of_next (exec_of_effect last), runInstrs_nil]

/-- R148, all bytes known. -/
theorem runInstrs_encodeMacro_of_known (idle : s.encSt = .idle) (loaded : s.TableLoaded tab)
    (isKnown : ∀ x ∈ b, (tab.code? x).isSome = true) :
    runInstrs (encodeMacro b) s = .next { s with
      encErr := .ok, encOut := s.encOut ++ charsOf (encodedStream tab b)
      rsp := s.rsp ++ List.replicate (b.length + 2) 0x00000000#32 } := by
  have length : (encodeMacro b).length = b.length + 2 := by simp [encodeMacro]
  rw [(answersOk_encodeMacro idle loaded isKnown).run, length, ← idle]

/-- R148, a first unknown byte. -/
theorem encodeMacro_of_unknown (later : List Sym) (idle : s.encSt = .idle) (loaded : s.TableLoaded tab)
    (isKnown : ∀ y ∈ known, (tab.code? y).isSome = true) (unknown : tab.code? x = none) :
    runInstrs (encodeMacro (known ++ x :: later)) s = .next { s with
      encErr := .eUnksym, encOut := s.encOut ++ charsOf (encodedStream tab known)
      rsp := s.rsp ++ (List.replicate (known.length + 1) 0x00000000#32 ++
        (4#4 ++ x.setWidth 28) :: List.replicate (later.length + 1) 0x40000000#32) } ∧
    encodeResults none (trace (wordsOf (encodeMacro (known ++ x :: later))) s) = [.err 4#4] := by
  have run := runInstrs_encSyms_of_unknown (s := State.respond { s with encSt := .active, encErr := .ok } .ok 0#28)
    later rfl loaded isKnown unknown
  refine ⟨?_, encodeResults_encodeMacro idle run rfl (.encEndFaulted _ rfl) rfl⟩
  rw [runInstrs_encodeMacro idle run (.encEndFaulted _ rfl), ← idle, List.replicate_succ,
    List.replicate_succ' (n := later.length)]
  simp [State.respond]

/-- Settles O45. The empty input needs no table: ENC_START and ENC_END do not read CT. -/
theorem encodingIsCorrect : Obligations.EncodingIsCorrect := by
  refine ⟨fun s tab b idle loaded isKnown => ?_, fun s idle => ?_, fun s tab known later x => ?_⟩
  · exact ⟨runInstrs_encodeMacro_of_known idle loaded isKnown, encodeResults_of_known idle loaded isKnown⟩
  · refine ⟨?_, encodeResults_encodeMacro (b := []) (e := []) idle rfl (by simp) (.encEnd _ rfl) rfl⟩
    rw [runInstrs_encodeMacro (b := []) idle rfl (.encEnd _ rfl), ← idle]
    simp [State.respond]
  · exact encodeMacro_of_unknown later

end Sys2Proof.Machine
end

section
/-! Interleaved transactions (`42_encoder.md` R140, `60_exceptions.md` R188). The words of the other side leave what a
side reads as it was, so the events of a side's words are the same with the other words left out; and a transaction's
result is read from the events of its side. -/

namespace Sys2Proof.Machine

variable {i : Instr} {w : CmdWord} {c : Config} {kind : Instr → Bool} {same : State → State → Prop} {e : Event}
  {s s₁ s₂ t t₁ : State}

/-! ## The events of one side -/

/-- The event of a command of the given kind. -/
def Event.isOf (kind : Instr → Bool) (e : Event) : Bool :=
  match e.command with
  | .command i => kind i
  | .illegal _ => false

theorem isOf_eventOf_decode : (eventOf (decode c w) s t).isOf kind = wordIs kind c w := by
  unfold Event.isOf wordIs
  rfl

theorem wordIs_of_command (decoded : decode c w = .command i) : wordIs kind c w = kind i := by
  simp only [wordIs, decoded]

theorem wordIs_of_illegal {why : Illegal} (decoded : decode c w = .illegal why) : wordIs kind c w = false := by
  simp only [wordIs, decoded]

/-- `same` is agreement on what the commands of `kind` read: on states that agree they have the same event and the
states go on to agree, and another command or a refusal writes nothing of it. -/
structure SideOf (kind : Instr → Bool) (same : State → State → Prop) : Prop where
  follows : ∀ {i s₁ s₂ t₁}, Effect i s₁ t₁ → kind i = true → same s₁ s₂ →
    ∃ t₂, Effect i s₂ t₂ ∧ same t₁ t₂ ∧ ∀ d, eventOf d s₁ t₁ = eventOf d s₂ t₂
  ignores : ∀ {i s₁ s₂ t₁}, Effect i s₁ t₁ → kind i = false → same s₁ s₂ → same t₁ s₂
  refuses : ∀ {s₁ s₂} (code : Status) (info : Info), same s₁ s₂ → same (s₁.respond code info) s₂

/-- A word that is not of the side leaves what the side reads. -/
theorem SideOf.ignores_word (side : SideOf kind same) (other : wordIs kind s₁.cfg w = false) (agree : same s₁ s₂) :
    ∃ t₁, accept w s₁ = .next t₁ ∧ t₁.cfg = s₁.cfg ∧ same t₁ s₂ := by
  cases decoded : decode s₁.cfg w with
  | illegal why => exact ⟨_, accept_of_illegal decoded, rfl, side.refuses _ _ agree⟩
  | command i =>
    obtain ⟨t₁, run, path⟩ := exec_effect i s₁
    rw [wordIs_of_command decoded] at other
    exact ⟨t₁, (accept_of_command decoded).trans run, path.cfg_eq, side.ignores path other agree⟩

/-- A word of the side does the same to both states. -/
theorem SideOf.follows_word (side : SideOf kind same) (own : wordIs kind s₁.cfg w = true) (agree : same s₁ s₂)
    (cfg : s₁.cfg = s₂.cfg) :
    ∃ t₁ t₂, accept w s₁ = .next t₁ ∧ accept w s₂ = .next t₂ ∧ t₁.cfg = s₁.cfg ∧ t₂.cfg = s₂.cfg ∧ same t₁ t₂ ∧
      ∀ d, eventOf d s₁ t₁ = eventOf d s₂ t₂ := by
  cases decoded : decode s₁.cfg w with
  | illegal why => simp [wordIs_of_illegal decoded] at own
  | command i =>
    obtain ⟨t₁, run, path₁⟩ := exec_effect i s₁
    rw [wordIs_of_command decoded] at own
    obtain ⟨t₂, path₂, agree', events⟩ := side.follows path₁ own agree
    exact ⟨t₁, t₂, (accept_of_command decoded).trans run,
      (accept_of_command (cfg ▸ decoded)).trans (exec_of_effect path₂), path₁.cfg_eq, path₂.cfg_eq, agree', events⟩

/-- The trace of a side's words alone is the side's part of the whole trace. -/
theorem SideOf.trace_filter (side : SideOf kind same) (ws : List CmdWord) (agree : same s₁ s₂)
    (cfg : s₁.cfg = s₂.cfg) :
    trace (ws.filter (wordIs kind s₁.cfg)) s₂ = (trace ws s₁).filter (Event.isOf kind) := by
  induction ws generalizing s₁ s₂ with
  | nil => rfl
  | cons w ws ih =>
    cases own : wordIs kind s₁.cfg w with
    | false =>
      obtain ⟨t₁, run, cfg₁, agree'⟩ := side.ignores_word own agree
      rw [List.filter_cons_of_neg (by simp [own]), trace_cons_of_next run,
        List.filter_cons_of_neg (by simp [isOf_eventOf_decode, own]), ← cfg₁]
      exact ih agree' (cfg₁.trans cfg)
    | true =>
      obtain ⟨t₁, t₂, run₁, run₂, cfg₁, cfg₂, agree', events⟩ := side.follows_word own agree cfg
      rw [List.filter_cons_of_pos own, trace_cons_of_next run₁, trace_cons_of_next run₂,
        List.filter_cons_of_pos (isOf_eventOf_decode.trans own), events, ← cfg, ← cfg₁]
      exact congrArg _ (ih agree' (cfg₁.trans (cfg.trans cfg₂.symm)))

/-! ## The encoder's side -/

theorem Effect.encoder_unchanged (path : Effect i s t) (other : isEncoderSide i = false) : SameEncoder t s := by
  -- `other` rules the encoder's commands out
  cases path <;> simp [isEncoderSide] at other <;> exact ⟨rfl, rfl, rfl, rfl⟩

/-- What the encoder did is one event on every state: nothing is added to DEC_OUT. -/
theorem eventOf_withEncoderChange (d : Decoded) (s s₁ t₁ : State) : eventOf d s (s.withEncoderChange s₁ t₁) =
    ⟨d, t₁.rsp.drop s₁.rsp.length, t₁.encOut.drop s₁.encOut.length, []⟩ := by
  simp [eventOf, State.withEncoderChange]

theorem sideOf_encoder : SideOf isEncoderSide SameEncoder where
  follows path own same := by
    have self := path.unique (path.encoder_transport own ⟨rfl, rfl, rfl, rfl⟩)
    refine ⟨_, path.encoder_transport own same, ⟨rfl, rfl, rfl, path.cfg_eq.trans same.cfg⟩, fun d => ?_⟩
    rw [self, eventOf_withEncoderChange, eventOf_withEncoderChange, ← self]
  ignores path other same :=
    have kept := path.encoder_unchanged other
    ⟨kept.encSt.trans same.encSt, kept.encErr.trans same.encErr, kept.ct.trans same.ct, kept.cfg.trans same.cfg⟩
  refuses _ _ same := ⟨same.encSt, same.encErr, same.ct, same.cfg⟩

theorem encodeResults_cons_of_other (other : e.isOf isEncoderSide = false) (opened : Option (List EncChar))
    (es : List Event) : encodeResults opened (e :: es) = encodeResults opened es := by
  simp only [encodeResults]
  split
  · next start => simp [Event.isOf, start, isEncoderSide] at other
  · next sym => simp [Event.isOf, sym, isEncoderSide] at other
  · next last => simp [Event.isOf, last, isEncoderSide] at other
  · rfl

/-- The results of encode transactions are read from the encoder's events. -/
theorem encodeResults_filter (es : List Event) (opened : Option (List EncChar)) :
    encodeResults opened (es.filter (Event.isOf isEncoderSide)) = encodeResults opened es := by
  induction es generalizing opened with
  | nil => rfl
  | cons e es ih =>
    cases own : e.isOf isEncoderSide with
    | false => rw [List.filter_cons_of_neg (by simp [own]), ih, encodeResults_cons_of_other own]
    | true =>
      rw [List.filter_cons_of_pos own]
      simp only [encodeResults, ih]

/-! ## The decoder's side -/

theorem Effect.decoder_unchanged (path : Effect i s t) (other : isDecoderSide i = false) : SameDecoder t s := by
  -- `other` rules the decoder's commands out
  cases path <;> simp [isDecoderSide] at other <;> exact ⟨rfl, rfl, rfl, rfl, rfl, rfl⟩

/-- What the decoder did is one event on every state: nothing is added to ENC_OUT. -/
theorem eventOf_withDecoderChange (d : Decoded) (s s₁ t₁ : State) : eventOf d s (s.withDecoderChange s₁ t₁) =
    ⟨d, t₁.rsp.drop s₁.rsp.length, [], t₁.decOut.drop s₁.decOut.length⟩ := by
  simp [eventOf, State.withDecoderChange]

theorem sideOf_decoder : SideOf isDecoderSide SameDecoder where
  follows path own same := by
    have self := path.unique (path.decoder_transport own ⟨rfl, rfl, rfl, rfl, rfl, rfl⟩)
    refine ⟨_, path.decoder_transport own same, ⟨rfl, rfl, rfl, rfl, rfl, rfl⟩, fun d => ?_⟩
    rw [self, eventOf_withDecoderChange, eventOf_withDecoderChange, ← self]
  ignores path other same :=
    have kept := path.decoder_unchanged other
    ⟨kept.decSt.trans same.decSt, kept.decErr.trans same.decErr, kept.cur.trans same.cur, kept.root.trans same.root,
      kept.rootV.trans same.rootV, kept.tm.trans same.tm⟩
  refuses _ _ same := ⟨same.decSt, same.decErr, same.cur, same.root, same.rootV, same.tm⟩

theorem decodeResults_cons_of_other (other : e.isOf isDecoderSide = false) (opened : Option (List Sym))
    (es : List Event) : decodeResults opened (e :: es) = decodeResults opened es := by
  simp only [decodeResults]
  split
  · next start => simp [Event.isOf, start, isDecoderSide] at other
  · next bit => simp [Event.isOf, bit, isDecoderSide] at other
  · next last => simp [Event.isOf, last, isDecoderSide] at other
  · rfl

/-- The results of decode transactions are read from the decoder's events. -/
theorem decodeResults_filter (es : List Event) (opened : Option (List Sym)) :
    decodeResults opened (es.filter (Event.isOf isDecoderSide)) = decodeResults opened es := by
  induction es generalizing opened with
  | nil => rfl
  | cons e es ih =>
    cases own : e.isOf isDecoderSide with
    | false => rw [List.filter_cons_of_neg (by simp [own]), ih, decodeResults_cons_of_other own]
    | true =>
      rw [List.filter_cons_of_pos own]
      simp only [decodeResults, ih]

/-! ## Both engines -/

/-- Settles O41: the words of a side alone have the side's events, and the results are read from those. -/
theorem interleavedTransactionsAsIfAlone : Obligations.InterleavedTransactionsAsIfAlone := by
  intro ws s eOpen dOpen
  constructor
  · rw [sideOf_encoder.trace_filter ws ⟨rfl, rfl, rfl, rfl⟩ rfl, encodeResults_filter]
  · rw [sideOf_decoder.trace_filter ws ⟨rfl, rfl, rfl, rfl, rfl, rfl⟩ rfl, decodeResults_filter]

end Sys2Proof.Machine
end

section
/-! The decoder's commands one by one (`43_decoder.md` R151 to R153, R157): the paths of `Effect` from each engine state,
the words with their OP, and what a DEC_BIT reads of TM. -/

namespace Sys2Proof.Machine

variable {s t : State} {ch : EncChar} {left right nxt : Idx}

/-! ## The three commands -/

/-- Settles O13: the two paths of DEC_START, and its checks leave no other bit. -/
theorem decStartPutsPointerAtRoot : Obligations.DecStartPutsPointerAtRoot := by
  intro s w
  refine ⟨fun idle => ?_, fun opened => ?_, accept_of_row (o := .decStart) noOperandChecks_pass⟩
  · exact exec_answers (.decStart s idle) rspWord_ok
  · exact exec_answers (.decStartSeq s opened) rspWord_seq

/-- The legal characters are those of the two symbols (R8). -/
theorem exists_eq_chr (legal : ch = 0x30#8 ∨ ch = 0x31#8) : ∃ b, ch = chr b := by
  obtain rfl | rfl := legal
  · exact ⟨false, chr_false.symm⟩
  · exact ⟨true, chr_true.symm⟩

/-- "Left on '0', right on '1'" is the child the character's symbol selects (R152). -/
theorem exists_eq_childOf (edge : ch = 0x30#8 ∧ nxt = left ∨ ch = 0x31#8 ∧ nxt = right) :
    ∃ b, ch = chr b ∧ nxt = childOf b left right := by
  obtain ⟨rfl, rfl⟩ | ⟨rfl, rfl⟩ := edge
  · exact ⟨false, chr_false.symm, rfl⟩
  · exact ⟨true, chr_true.symm, rfl⟩

/-- Settles O14: the paths of DEC_BIT in the order of its checks; field A is its operand, so B and C are checked. -/
theorem decBitWalksOneEdge : Obligations.DecBitWalksOneEdge := by
  intro s ch w
  refine ⟨fun idle => ?_, fun faulted => ?_, fun active not0 not1 => ?_, fun active legal unset => ?_,
    fun active legal set missing => ?_, fun active set x leaf => ⟨?_, ?_⟩,
    fun active set left right nxt node edge => ?_, accept_of_row (o := .decBit) ?_⟩
  · exact exec_answers (.decBitSeq ch s idle) rspWord_seq
  · exact exec_answers (.decBitReplay ch s faulted) rfl
  · exact exec_answers (.decBitBadch ch s active (symOf_eq_none.2 ⟨not0, not1⟩)) rfl
  · obtain ⟨b, rfl⟩ := exists_eq_chr legal
    exact exec_answers (.decBitNotree b s active unset) rfl
  · obtain ⟨b, rfl⟩ := exists_eq_chr legal
    exact exec_answers (.decBitNoEntry b s active set missing) rfl
  · rintro rfl
    exact exec_answers (.decBitLeafOne x s active set leaf) rfl
  · rintro rfl
    exact exec_answers (.decBitLeafZero x s active set leaf) rspWord_ok
  · obtain ⟨b, rfl, rfl⟩ := exists_eq_childOf edge
    refine ⟨fun missing => ?_, fun x leaf => ?_, fun l r child => ?_⟩
    · exact exec_answers (.decBitNoChild b left right s active set node missing) rfl
    · exact exec_answers (.decBitLeaf b left right x s active set node leaf) rspWord_ok
    · exact exec_answers (.decBitMove b left right l r s active set node child) rspWord_ok
  · simp [rowChecks, ← fieldsBC_eq_zero]

/-- Settles O15: the four paths of DEC_END; none writes CUR. -/
theorem decEndChecksCodeBoundary : Obligations.DecEndChecksCodeBoundary := by
  intro s w
  refine ⟨fun idle => ?_, fun faulted => ?_, fun active mid => ?_, fun active edge => ?_,
    accept_of_row (o := .decEnd) noOperandChecks_pass⟩
  · exact exec_answers (.decEndSeq s idle) rspWord_seq
  · exact exec_answers (.decEndFaulted s faulted) rfl
  · exact exec_answers (.decEndMidCode s active mid) rfl
  · exact exec_answers (.decEnd s active edge) rspWord_ok

/-! ## What a DEC_BIT reads of TM -/

/-- A path of DEC_BIT is open with every TM that has the same entry at CUR and the same child on the path's edge
(R157). -/
theorem Effect.decBit_withTm {tm' : Memory TmNode} (path : Effect (.decBit ch) s t)
    (here : tm'.read s.cur.toNat = s.tm.read s.cur.toNat)
    (entered : ∀ b l r, ch = chr b → s.tm.read s.cur.toNat = some (.internal l r) →
      tm'.read (childOf b l r).toNat = s.tm.read (childOf b l r).toNat) :
    Effect (.decBit ch) { s with tm := tm' } { t with tm := tm' } := by
  cases path
  case decBitSeq idle => exact .decBitSeq _ { s with tm := tm' } idle
  case decBitReplay faulted => exact .decBitReplay _ { s with tm := tm' } faulted
  case decBitBadch bad active => exact .decBitBadch _ { s with tm := tm' } active bad
  case decBitNotree b active unset => exact .decBitNotree b { s with tm := tm' } active unset
  case decBitNoEntry b active set missing =>
    exact .decBitNoEntry b { s with tm := tm' } active set (here.trans missing)
  case decBitLeafOne x active set leaf => exact .decBitLeafOne x { s with tm := tm' } active set (here.trans leaf)
  case decBitLeafZero x active set leaf => exact .decBitLeafZero x { s with tm := tm' } active set (here.trans leaf)
  case decBitNoChild b l r active set node missing =>
    exact .decBitNoChild b l r { s with tm := tm' } active set (here.trans node) ((entered b l r rfl node).trans missing)
  case decBitLeaf b l r x active set node leaf =>
    exact .decBitLeaf b l r x { s with tm := tm' } active set (here.trans node) ((entered b l r rfl node).trans leaf)
  case decBitMove b l r l' r' active set node child =>
    exact .decBitMove b l r l' r' { s with tm := tm' } active set (here.trans node)
      ((entered b l r rfl node).trans child)

/-- Settles O32: the changed TM leaves the path of the first state open. -/
theorem decBitReadsTwoEntries : Obligations.DecBitReadsTwoEntries := by
  intro s t tm' ch run here children
  refine exec_of_effect ((effect_of_exec run).decBit_withTm here fun b l r char node => ?_)
  obtain ⟨onZero, onOne⟩ := children l r node
  cases b
  · exact onZero (char.trans chr_false)
  · exact onOne (char.trans chr_true)

end Sys2Proof.Machine
end

section
/-! Walks that end inside the tree (`43_decoder.md` R155, R163). The index of an image tells the height of its tree, and
the subtree at the end of a path is lower than the whole, so CUR can be the root only at a code's boundary. -/

namespace Sys2Proof.Machine

variable {s : State} {t u : Tree} {x : Sym} {k k₁ k₂ : Code} {tm : Memory TmNode} {i : Idx}

/-! ## Paths -/

/-- Following a concatenated path is following its parts one after the other. -/
theorem Tree.follow_append (t : Tree) (k₁ k₂ : Code) : t.follow (k₁ ++ k₂) = (t.follow k₁).bind (·.follow k₂) := by
  induction k₁ generalizing t with
  | nil => simp [Tree.follow]
  | cons c k₁ ih =>
    cases t with
    | leaf y w => rfl
    | internal w l r =>
      cases c
      · exact ih l
      · exact ih r

/-- A path that goes on has not ended at a leaf. -/
theorem Tree.follow_eq_internal (further : t.follow (k₁ ++ k₂) = some u) (more : k₂ ≠ []) :
    ∃ w l r, t.follow k₁ = some (.internal w l r) := by
  rw [Tree.follow_append, Option.bind_eq_some_iff] at further
  obtain ⟨sub, path, rest⟩ := further
  cases sub with
  | internal w l r => exact ⟨w, l, r, path⟩
  | leaf y w =>
    obtain ⟨c, k₂, rfl⟩ := List.exists_cons_of_ne_nil more
    simp [Tree.follow] at rest

/-- Every step of a path leads to a lower subtree. -/
theorem Tree.length_add_height_le_of_follow (path : t.follow k = some u) : k.length + u.height ≤ t.height := by
  induction k generalizing t with
  | nil =>
    obtain rfl : t = u := by simpa [Tree.follow] using path
    simp
  | cons c k ih =>
    cases t with
    | leaf y w => simp [Tree.follow] at path
    | internal w l r =>
      simp only [List.length_cons, Tree.height]
      cases c
      · have := ih (t := l) path
        omega
      · have := ih (t := r) path
        omega

/-- The trees of one image have the same height (R109). -/
theorem Represents.height_eq (ht : Represents tm i t) (hu : Represents tm i u) : t.height = u.height := by
  induction t generalizing i u with
  | leaf x w =>
    cases u with
    | leaf y v => rfl
    | internal v l r =>
      obtain ⟨a, b, node, -⟩ := hu
      cases node.symm.trans ht
  | internal w l r ihl ihr =>
    obtain ⟨a, b, node, left, right⟩ := ht
    cases u with
    | leaf y v => cases node.symm.trans hu
    | internal v l' r' =>
      obtain ⟨a', b', node', left', right'⟩ := hu
      cases node.symm.trans node'
      rw [Tree.height, Tree.height, ihl left left', ihr right right']

/-! ## Walking -/

/-- A character that selects an internal child moves CUR to it (R152). -/
theorem answersOk_move {c : BitSym} {i₀ i₁ : Idx} {w : Nat} {l r : Tree} (active : s.decSt = .active)
    (set : s.rootV = true) (node : s.tmRead s.cur = some (.internal i₀ i₁))
    (child : Represents s.tm (childOf c i₀ i₁) (.internal w l r)) :
    AnswersOk [.decBit (chr c)] s (s.setCur (childOf c i₀ i₁)) := by
  obtain ⟨j₀, j₁, inner, -⟩ := child
  exact .single fun r => .decBitMove c i₀ i₁ j₀ j₁ { s with rsp := r } active set node inner

/-- A path to an internal node, walked from an image of the tree: every character moves CUR, and nothing is emitted
(R152). -/
theorem answersOk_path_to_internal {w : Nat} {l r : Tree} (active : s.decSt = .active) (set : s.rootV = true)
    (image : Represents s.tm s.cur t) (path : t.follow k = some (.internal w l r)) :
    ∃ j, AnswersOk ((charsOf k).map .decBit) s (s.setCur j) ∧ Represents s.tm j (.internal w l r) := by
  induction k generalizing s t with
  | nil =>
    obtain rfl : t = .internal w l r := by simpa [Tree.follow] using path
    exact ⟨s.cur, AnswersOk.nil s, image⟩
  | cons c k ih =>
    cases t with
    | leaf y v => simp [Tree.follow] at path
    | internal v l₀ r₀ =>
      obtain ⟨i₀, i₁, node, children⟩ := image.children
      have child := children c
      have rest : (if c then r₀ else l₀).follow k = some (.internal w l r) := by cases c <;> exact path
      generalize (if c then r₀ else l₀) = sub at child rest
      obtain ⟨v', l', r', rfl⟩ : ∃ v' l' r', sub = .internal v' l' r' := by
        cases sub with
        | internal v' l' r' => exact ⟨v', l', r', rfl⟩
        | leaf y v' => cases k <;> simp [Tree.follow] at rest
      obtain ⟨j, walk, image'⟩ := ih (s := s.setCur (childOf c i₀ i₁)) active set child rest
      exact ⟨j, (answersOk_move active set node child).cons walk, image'⟩

/-- A proper non-empty part of a code of the loaded tree, from the root: nothing is emitted and CUR is not ROOT
(R155). -/
theorem answersOk_code_part (active : s.decSt = .active) (loaded : s.TreeLoaded t) (atRoot : s.cur = s.root)
    (code : (x, k₁ ++ k₂) ∈ codes t) (begun : k₁ ≠ []) (cut : k₂ ≠ []) :
    ∃ j, AnswersOk ((charsOf k₁).map .decBit) s (s.setCur j) ∧ j ≠ s.root := by
  obtain ⟨set, image⟩ := loaded
  have started := List.length_pos_iff.2 begun
  have unfinished := List.length_pos_iff.2 cut
  cases t with
  | leaf y w =>
    have whole : k₁ ++ k₂ = [false] := by simpa [codes] using (Prod.mk.inj (List.mem_singleton.1 code)).2
    have := congrArg List.length whole
    simp at this
    omega
  | internal w l r =>
    obtain ⟨v, path⟩ := follow_of_mem_codes code
    obtain ⟨v', l', r', inner⟩ := Tree.follow_eq_internal path cut
    obtain ⟨j, walk, image'⟩ := answersOk_path_to_internal active set (atRoot ▸ image) inner
    refine ⟨j, walk, ?_⟩
    rintro rfl
    have same := image.height_eq image'
    have lower := Tree.length_add_height_le_of_follow inner
    omega

theorem map_decBit_chr (k : Code) : k.map (fun b => Instr.decBit (chr b)) = (charsOf k).map .decBit := by
  simp [charsOf, Function.comp_def]

/-- Settles O46: a whole code ends back at the root, and a part of it ends at an internal node below the root. -/
theorem oneCodeOneByte : Obligations.OneCodeOneByte := by
  intro s t x k loaded _ _ active atRoot code
  have mem := CodeTable.mem_of_code? code
  refine ⟨?_, ?_⟩
  · rw [map_decBit_chr, (answersOk_code active loaded atRoot mem).run]
    simp [charsOf, State.emitDec]
  · rintro k₁ k₂ rfl begun cut
    obtain ⟨j, walk, away⟩ := answersOk_code_part active loaded atRoot mem begun cut
    refine ⟨{ s with cur := j, rsp := s.rsp ++ List.replicate k₁.length 0x00000000#32 }, ?_, away, rfl⟩
    rw [map_decBit_chr, walk.run]
    simp [charsOf, State.setCur]

end Sys2Proof.Machine
end

section
/-! DECODE in every case (`43_decoder.md` R156, R162, R163). Of the run of its DEC_BITs both the final state and the
result are read, and whether CUR is back at ROOT says how DEC_END answers. -/

namespace Sys2Proof.Machine

variable {s u v : State} {t : Tree} {x : Sym} {b : List Sym} {k k₁ k₂ : Code} {cs : List EncChar}

/-- The state DEC_START leaves, without its response (R151). -/
def State.decOpened (s : State) : State := { s with decSt := .active, decErr := .ok, cur := s.root }

theorem answersOk_decStart (idle : s.decSt = .idle) : AnswersOk [.decStart] s s.decOpened :=
  .single fun r => .decStart { s with rsp := r } idle

/-- DECODE from DEC_ST = IDLE ends where its DEC_END ends. -/
theorem runInstrs_decodeMacro (idle : s.decSt = .idle)
    (run : runInstrs (cs.map .decBit) (s.decOpened.respond .ok 0#28) = .next u) (last : Effect .decEnd u v) :
    runInstrs (decodeMacro cs) s = .next v := by
  have start : exec .decStart s = .next (s.decOpened.respond .ok 0#28) := exec_of_effect (.decStart s idle)
  rw [decodeMacro, runInstrs_cons_of_next start, runInstrs_append_of_next run,
    runInstrs_cons_of_next (exec_of_effect last), runInstrs_nil]

/-! ## Whole codes -/

/-- R162, a stream of whole codes. -/
theorem runInstrs_decodeMacro_of_known (idle : s.decSt = .idle) (loaded : s.TreeLoaded t)
    (known : ∀ x ∈ b, x ∈ t.symbols) :
    runInstrs (decodeMacro (charsOf (encodedStream (codes t) b))) s = .next { s with
      decErr := .ok, cur := s.root, decOut := s.decOut ++ b
      rsp := s.rsp ++ List.replicate ((charsOf (encodedStream (codes t) b)).length + 2) 0x00000000#32 } := by
  have length (cs : List EncChar) : (decodeMacro cs).length = cs.length + 2 := by simp [decodeMacro]
  rw [(answersOk_decodeMacro idle loaded known).run, length, ← idle]

/-- Settles O47: the root is the leaf, so CUR rests there and both characters find it; and "0000" is the stream of
the symbol four times. -/
theorem oneSymbolAlphabet : Obligations.OneSymbolAlphabet := by
  intro s x n inv loaded
  obtain ⟨set, leaf⟩ := loaded
  refine ⟨fun active => ?_, rfl, fun idle => ?_⟩
  · have atRoot := inv.leafRoot active x leaf
    have here : s.tmRead s.cur = some (.leaf x) := atRoot ▸ leaf
    exact ⟨atRoot, exec_answers (.decBitLeafZero x s active set here) rspWord_ok,
      exec_answers (.decBitLeafOne x s active set here) (by rw [atRoot]; rfl)⟩
  · have stream : charsOf (encodedStream (codes (.leaf x n)) [x, x, x, x]) = [0x30#8, 0x30#8, 0x30#8, 0x30#8] := by
      simp [charsOf, encodedStream, codes, CodeTable.code?]
    rw [← stream]
    exact decodeResults_of_known idle ⟨set, leaf⟩ (by simp [Tree.symbols])

/-! ## A stream cut inside a code -/

/-- The DEC_BITs of whole codes and of a proper non-empty part of one more: the bytes of the whole codes, and CUR is
not ROOT. -/
theorem answersOk_codes_part (active : s.decSt = .active) (loaded : s.TreeLoaded t) (atRoot : s.cur = s.root)
    (known : ∀ y ∈ b, y ∈ t.symbols) (code : (x, k₁ ++ k₂) ∈ codes t) (begun : k₁ ≠ []) (cut : k₂ ≠ []) :
    ∃ j, AnswersOk ((charsOf (encodedStream (codes t) b ++ k₁)).map .decBit) s
      { s with cur := j, decOut := s.decOut ++ b } ∧ j ≠ s.root := by
  obtain ⟨j, walk, away⟩ :=
    answersOk_code_part (s := { s with decOut := s.decOut ++ b }) active loaded atRoot code begun cut
  refine ⟨j, ?_, away⟩
  have run := (answersOk_codes b active loaded atRoot known).append walk
  simpa [charsOf, State.setCur] using run

/-- R162, a truncated stream: E_MALFORMED with CUR, which is not ROOT. -/
theorem decodeMacro_of_truncated (idle : s.decSt = .idle) (loaded : s.TreeLoaded t)
    (known : ∀ y ∈ b, y ∈ t.symbols) (code : (x, k₁ ++ k₂) ∈ codes t) (begun : k₁ ≠ []) (cut : k₂ ≠ [])
    (stream : cs = charsOf (encodedStream (codes t) b ++ k₁)) :
    ∃ u, runInstrs (decodeMacro cs) s = .next u ∧ u.cur ≠ s.root ∧
      u = { s with
        decErr := .eMalformed, cur := u.cur, decOut := s.decOut ++ b
        rsp := s.rsp ++ (List.replicate (cs.length + 1) 0x00000000#32 ++ [5#4 ++ u.cur.setWidth 28]) } ∧
      decodeResults none (trace (wordsOf (decodeMacro cs)) s) = [.err 5#4] := by
  obtain ⟨j, walk, away⟩ := answersOk_codes_part (s := s.decOpened) rfl loaded rfl known code begun cut
  rw [← stream] at walk
  have run := walk (s.decOpened.respond .ok 0#28).rsp
  refine ⟨{ s with
    decErr := .eMalformed, cur := j, decOut := s.decOut ++ b
    rsp := s.rsp ++ (List.replicate (cs.length + 1) 0x00000000#32 ++ [5#4 ++ j.setWidth 28]) }, ?_, away, rfl,
    decodeResults_decodeMacro idle run rfl (.decEndMidCode _ rfl away) rfl⟩
  have word : rspWord .eMalformed (j.setWidth 28) = 5#4 ++ j.setWidth 28 := rfl
  rw [runInstrs_decodeMacro idle run (.decEndMidCode _ rfl away), ← idle, List.replicate_succ]
  simp [State.respond, State.decOpened, word]

/-- Settles O48. The empty stream needs no tree: DEC_START and DEC_END do not read TM. -/
theorem decodingIsCorrect : Obligations.DecodingIsCorrect := by
  refine ⟨fun s t b idle loaded _ known => ?_, fun s t b x k₁ k₂ idle loaded _ known code begun cut => ?_,
    fun s idle => ?_⟩
  · exact ⟨runInstrs_decodeMacro_of_known idle loaded known, decodeResults_of_known idle loaded known⟩
  · exact decodeMacro_of_truncated idle loaded known (CodeTable.mem_of_code? code) begun cut rfl
  · refine ⟨?_, decodeResults_decodeMacro (cs := []) (e := []) idle rfl (by simp) (.decEnd _ rfl rfl) rfl⟩
    rw [runInstrs_decodeMacro (cs := []) idle rfl (.decEnd _ rfl rfl), ← idle]
    simp [State.respond, State.decOpened]

/-! ## Any stream of '0' and '1' -/

/-- TM holds the image of a tree of height at least 1 at the index. -/
def InternalImage (tm : Memory TmNode) (i : Idx) : Prop := ∃ w l r, Represents tm i (.internal w l r)

/-- One character from an internal node of a loaded tree: the pointer is at an internal node again, the child or the
root (R152, R154). -/
theorem answersOk_decBit_of_internal (c : BitSym) (active : s.decSt = .active) (set : s.rootV = true)
    (root : InternalImage s.tm s.root) (here : InternalImage s.tm s.cur) :
    ∃ j e, AnswersOk [.decBit (chr c)] s { s with cur := j, decOut := s.decOut ++ e } ∧ InternalImage s.tm j := by
  obtain ⟨w, l, r, image⟩ := here
  obtain ⟨i₀, i₁, node, children⟩ := image.children
  have child := children c
  generalize (if c then r else l) = sub at child
  cases sub with
  | leaf x v =>
    exact ⟨s.root, [x], .single fun r => .decBitLeaf c i₀ i₁ x { s with rsp := r } active set node child, root⟩
  | internal v l' r' =>
    have move := answersOk_move active set node child
    exact ⟨childOf c i₀ i₁, [], by simpa [State.setCur] using move, v, l', r', child⟩

/-- Any stream of '0' and '1' from an internal node of a loaded tree is walked with OK throughout (R163). -/
theorem answersOk_decBits_of_internal (k : Code) (active : s.decSt = .active) (set : s.rootV = true)
    (root : InternalImage s.tm s.root) (here : InternalImage s.tm s.cur) :
    ∃ j e, AnswersOk ((charsOf k).map .decBit) s { s with cur := j, decOut := s.decOut ++ e } := by
  induction k generalizing s with
  | nil => exact ⟨s.cur, [], by simpa [charsOf] using AnswersOk.nil s⟩
  | cons c k ih =>
    obtain ⟨j₁, e₁, first, here'⟩ := answersOk_decBit_of_internal c active set root here
    obtain ⟨j₂, e₂, later⟩ := ih (s := { s with cur := j₁, decOut := s.decOut ++ e₁ }) active set root here'
    exact ⟨j₂, e₁ ++ e₂, by simpa [charsOf] using first.cons later⟩

theorem State.TreeLoaded.internalImage (loaded : s.TreeLoaded t) (high : 1 ≤ t.height) :
    InternalImage s.tm s.root := by
  cases t with
  | leaf y w => simp [Tree.height] at high
  | internal w l r => exact ⟨w, l, r, loaded.2⟩

/-- Settles O49: the walk goes through, and DEC_END answers by where it ends. -/
theorem anyBitStreamDecodesOrIsMalformed : Obligations.AnyBitStreamDecodesOrIsMalformed := by
  intro s t k idle loaded high
  have root := loaded.internalImage high
  obtain ⟨j, e, walk⟩ := answersOk_decBits_of_internal (s := s.decOpened) k rfl loaded.1 root root
  have run := walk (s.decOpened.respond .ok 0#28).rsp
  refine ⟨{ s with
    decSt := .active, decErr := .ok, cur := j, decOut := s.decOut ++ e
    rsp := s.rsp ++ List.replicate (k.length + 1) 0x00000000#32 }, ?_, rfl, fun edge => ⟨e, rfl, ?_⟩, fun mid => ?_⟩
  · rw [map_decBit_chr, ((answersOk_decStart idle).cons walk).run]
    simp [State.decOpened, charsOf]
  · exact decodeResults_decodeMacro idle run rfl (.decEnd _ rfl edge) rfl
  · exact decodeResults_decodeMacro idle run rfl (.decEndMidCode _ rfl mid) rfl

end Sys2Proof.Machine
end

section
/-! What a refusal, a latched fault and an empty CMD leave unchanged (`60_exceptions.md` R172, R174, R175, R191). -/

namespace Sys2Proof.Machine

variable {i : Instr} {is : List Instr} {s t u : State}

/-! ## Refusals -/

/-- R170, R172: the refusals are the codes 1 to 3. -/
theorem Status.isRefusal_iff {c : Status} : c.isRefusal = true ↔ c.bits = 1#4 ∨ c.bits = 2#4 ∨ c.bits = 3#4 := by
  cases c <;> decide

/-- A decode fault is no refusal. -/
theorem Status.isRefusal_eq_false_of_isDecodeFault {c : Status} (fault : c.isDecodeFault = true) :
    c.isRefusal = false := by
  simpa [← Bool.not_eq_true, Status.isRefusal_iff] using bits_of_isDecodeFault fault

/-- R172: a path that ends in a refusal writes nothing before it, and its info is 0. Of the paths that write, only an
END in FAULTED answers with a code it reads, and the invariant makes that code a transaction fault. -/
theorem Effect.refusal_frame (path : Effect i s t) (inv : Inv s) :
    ∃ u c info, t = State.respond u c info ∧ u.rsp = s.rsp ∧ (c.isRefusal = true → u = s ∧ info = 0#28) := by
  cases path
  case ctClearBusy | ctWriteBad | ctWriteBusy | trClearBusy | trLeafBusy | trNodeBusy | trRootBusy | encStartSeq |
      encSymSeq | encSymReplay | encEndSeq | decStartSeq | decBitSeq | decBitReplay | decEndSeq | reservedE |
      reservedF =>
    exact ⟨s, _, _, rfl, rfl, fun _ => ⟨rfl, rfl⟩⟩
  case encEndFaulted faulted =>
    refine ⟨_, _, _, rfl, rfl, fun refusal => ?_⟩
    simp [inv.encFaulted faulted, Status.isRefusal] at refusal
  case decEndFaulted faulted =>
    refine ⟨_, _, _, rfl, rfl, fun refusal => ?_⟩
    simp [Status.isRefusal_eq_false_of_isDecodeFault (inv.decFaulted faulted)] at refusal
  -- the other paths answer OK or enter a fault
  all_goals exact ⟨_, _, _, rfl, rfl, nofun⟩

/-- Settles O26: an illegal word only answers E_BADCMD, and a command's path that ends in a refusal writes nothing. -/
theorem refusalChangesNothing : Obligations.RefusalChangesNothing := by
  intro w s t c inv h code refusal
  cases decoded : decode s.cfg w with
  | illegal why =>
    rw [accept_of_illegal decoded] at h
    cases h
    exact ⟨responseInfo_respond _ _ rfl, rfl⟩
  | command i =>
    have path := effect_of_exec (accept_of_command decoded ▸ h)
    obtain ⟨u, st, info, rfl, same, frame⟩ := path.refusal_frame inv
    obtain rfl := Option.some.inj ((responseCode_respond st info same).symm.trans code)
    obtain ⟨rfl, rfl⟩ := frame (Status.isRefusal_iff.2 refusal)
    exact ⟨responseInfo_respond _ _ rfl, rfl⟩

/-! ## A latched fault -/

/-- What every command of a sequence keeps, the sequence keeps; and it runs through. -/
theorem runInstrs_keeps {P : State → Prop} (keeps : ∀ i ∈ is, ∀ u t, Effect i u t → P u → P t) (start : P s) :
    ∃ t, runInstrs is s = .next t ∧ P t := by
  induction is generalizing s with
  | nil => exact ⟨s, rfl, start⟩
  | cons i is ih =>
    obtain ⟨first, later⟩ := List.forall_mem_cons.1 keeps
    obtain ⟨u, hu, path⟩ := exec_effect i s
    rw [runInstrs_cons_of_next hu]
    exact ih later (first s u path start)

/-- The encoder of `u` is FAULTED, with the code, the table and the output of `s`. -/
def EncoderFaultKept (s u : State) : Prop :=
  u.encSt = .faulted ∧ u.encErr = s.encErr ∧ u.ct = s.ct ∧ u.encOut = s.encOut

/-- R147, R174: no path but ENC_END's writes the encoder in FAULTED; the paths that write it need another state. -/
theorem EncoderFaultKept.effect (kept : EncoderFaultKept s u) (path : Effect i u t) (goesOn : i ≠ .encEnd) :
    EncoderFaultKept s t := by
  have faulted : u.encSt = .faulted := kept.1
  cases path
  case ctClear other | ctWrite other | encStart other | encSymUnknown other _ | encSym other _ =>
    simp [faulted] at other
  case encEndSeq | encEndFaulted | encEnd => exact absurd rfl goesOn
  all_goals exact kept

/-- The decoder of `u` is FAULTED, with the code, the pointer, the tree and the output of `s`. -/
def DecoderFaultKept (s u : State) : Prop :=
  u.decSt = .faulted ∧ u.decErr = s.decErr ∧ u.cur = s.cur ∧ u.tm = s.tm ∧ u.root = s.root ∧ u.rootV = s.rootV ∧
    u.decOut = s.decOut

/-- R161, R174: no path but DEC_END's writes the decoder in FAULTED; the paths that write it need another state. -/
theorem DecoderFaultKept.effect (kept : DecoderFaultKept s u) (path : Effect i u t) (goesOn : i ≠ .decEnd) :
    DecoderFaultKept s t := by
  have faulted : u.decSt = .faulted := kept.1
  cases path
  case trClear other | trLeaf other | trNode other | trRoot other | decStart other | decBitBadch _ other |
      decBitNotree other _ | decBitNoEntry other _ _ | decBitLeafOne other _ _ | decBitLeafZero other _ _ |
      decBitNoChild other _ _ _ | decBitLeaf other _ _ _ | decBitMove other _ _ _ =>
    simp [faulted] at other
  case decEndSeq | decEndFaulted | decEnd | decEndMidCode => exact absurd rfl goesOn
  all_goals exact kept

/-- Settles O31: the engine is kept by each command that is not its END, so by the sequence. -/
theorem firstFaultStaysUntilEnd : Obligations.FirstFaultStaysUntilEnd := by
  constructor
  · intro is s faulted noEnd
    exact runInstrs_keeps (P := EncoderFaultKept s)
      (fun i mem _ _ path kept => kept.effect path (ne_of_mem_of_not_mem mem noEnd)) ⟨faulted, rfl, rfl, rfl⟩
  · intro is s faulted noEnd
    exact runInstrs_keeps (P := DecoderFaultKept s)
      (fun i mem _ _ path kept => kept.effect path (ne_of_mem_of_not_mem mem noEnd))
      ⟨faulted, rfl, rfl, rfl, rfl, rfl, rfl⟩

/-! ## Waiting -/

/-- Settles O20: with CMD empty the step has no word to accept. -/
theorem waitingBlockKeepsState : Obligations.WaitingBlockKeepsState := by
  intro s empty
  simp only [step, fetchStep, empty]

end Sys2Proof.Machine
end

section
/-! Reset, the host's side of the channels, and the tables while a transaction is open (`70_reset_and_hazards.md` R200,
R206, R213, `10_state.md` R38). -/

namespace Sys2Proof.Machine

variable {i : Instr} {s t : State} {a : HostAction} {p : PortCycle}

/-! ## The tables while a transaction is open -/

theorem State.respond_eBusy (s : State) : s.respond .eBusy 0#28 = { s with rsp := s.rsp ++ [0x30000000#32] } := by
  rw [State.respond, rspWord_busy]

/-- R206: the two paths that write CT need ENC_ST = IDLE. -/
theorem Effect.ct_frozen (path : Effect i s t) (opened : s.encSt ≠ .idle) : t.ct = s.ct := by
  cases path
  case ctClear idle | ctWrite idle => exact absurd idle opened
  all_goals rfl

/-- R206: the four paths that write TM or the root need DEC_ST = IDLE. -/
theorem Effect.tree_frozen (path : Effect i s t) (opened : s.decSt ≠ .idle) :
    t.tm = s.tm ∧ t.root = s.root ∧ t.rootV = s.rootV := by
  cases path
  case trClear idle | trLeaf idle | trNode idle | trRoot idle => exact absurd idle opened
  all_goals exact ⟨rfl, rfl, rfl⟩

/-- R179 for CT. A CT_WRITE that is not well formed is refused with E_BADCMD first (R123). -/
theorem Effect.ctLoad_busy (path : Effect i s t) (opened : s.encSt ≠ .idle) (legal : i.WellFormed s.cfg)
    (load : i = .ctClear ∨ ∃ x l k, i = .ctWrite x l k) : t = s.respond .eBusy 0#28 := by
  obtain rfl | ⟨x, l, k, rfl⟩ := load
  · exact path.unique (.ctClearBusy s opened)
  · exact path.unique (.ctWriteBusy x l k s legal opened)

/-- R179 for TM and the root. -/
theorem Effect.treeLoad_busy (path : Effect i s t) (opened : s.decSt ≠ .idle)
    (load : i = .trClear ∨ (∃ k x, i = .trLeaf k x) ∨ (∃ k l r, i = .trNode k l r) ∨ ∃ k, i = .trRoot k) :
    t = s.respond .eBusy 0#28 := by
  obtain rfl | ⟨k, x, rfl⟩ | ⟨k, l, r, rfl⟩ | ⟨k, rfl⟩ := load
  · exact path.unique (.trClearBusy s opened)
  · exact path.unique (.trLeafBusy k x s opened)
  · exact path.unique (.trNodeBusy k l r s opened)
  · exact path.unique (.trRootBusy k s opened)

/-- Settles O29: no path writes a table whose engine has a transaction open, and the load commands take their busy
path. -/
theorem openTransactionFreezesTables : Obligations.OpenTransactionFreezesTables := by
  intro i s t h
  have path := effect_of_exec h
  refine ⟨fun opened => ⟨path.ct_frozen opened, fun legal load => ?_⟩, fun opened => ?_⟩
  · exact (path.ctLoad_busy opened legal load).trans s.respond_eBusy
  · obtain ⟨tm, root, rootV⟩ := path.tree_frozen opened
    exact ⟨tm, root, rootV, fun load => (path.treeLoad_busy opened load).trans s.respond_eBusy⟩

/-! ## Reset -/

/-- R200: a clock edge with `rst` sampled at 1 makes no transfer. -/
theorem clockEdge_of_rst (reset : p.rst = true) : clockEdge p s = s.rst := by
  rw [clockEdge, if_pos reset]

/-- Settles O17: both forms of the reset are `State.rst`, which reads nothing of the state but its parameters. -/
theorem resetFromAnyState : Obligations.ResetFromAnyState :=
  fun _ _ => ⟨rfl, clockEdge_of_rst⟩

/-- The reset state of an instance meets the invariant as soon as its parameters are legal. -/
theorem Inv.rst (h : Inv s) : Inv s.rst := inv_resetWith h.legal

/-! ## The host's side of the channels -/

/-- `s` with the four channels of `t`. -/
def State.withChannelsOf (s t : State) : State :=
  { s with cmd := t.cmd, rsp := t.rsp, encOut := t.encOut, decOut := t.decOut }

/-- The invariant speaks of no channel, so what changes nothing else keeps it. -/
theorem Inv.of_channels (h : Inv s) (frame : t = s.withChannelsOf t) : Inv t := by
  rw [frame]
  exact { h with }

/-- R213: four of the host's five paths reach the channels only. -/
theorem hostStep_frame (noReset : a ≠ .reset) : hostStep a s = s.withChannelsOf (hostStep a s) := by
  cases a
  case reset => exact absurd rfl noReset
  all_goals rfl

/-- R38: without `rst` a clock edge only makes transfers. -/
theorem clockEdge_frame (noReset : p.rst = false) : clockEdge p s = s.withChannelsOf (clockEdge p s) := by
  simp only [clockEdge, noReset, Bool.false_eq_true, if_false, State.withChannelsOf]

/-- Settles O36: a host action or a clock edge resets or changes the channels only. -/
theorem hostKeepsInvariant : Obligations.HostKeepsInvariant := by
  refine ⟨fun a s inv => ⟨?_, hostStep_frame⟩, fun p s inv => ⟨?_, clockEdge_frame⟩⟩
  · by_cases reset : a = .reset
    · exact reset ▸ inv.rst
    · exact inv.of_channels (hostStep_frame reset)
  · cases reset : p.rst with
    | true => exact clockEdge_of_rst reset ▸ inv.rst
    | false => exact inv.of_channels (clockEdge_frame reset)

end Sys2Proof.Machine
end
